-- ==== Sys2Proof/Word.lean ====
section
/-! DEFINITION. The words of the block: command words, pulse words, response words, durations, and the two
levels of the pin. Widths: spec/00_scope.md R5, spec/30_encoding.md R51, R63, R64. -/

namespace Sys2Proof

/-- A command word, 64 bits, bit 63 most significant (30_encoding.md R51). It is a header or a code word. -/
abbrev CmdWord := BitVec 64

/-- A pulse instruction packed for the link to the pin driver, format P, 33 bits (30_encoding.md R63). -/
abbrev PulseWord := BitVec 33

/-- A response: bit 3 is `FAIL`, bits 2..0 are `ERR` (30_encoding.md R64). -/
abbrev RspWord := BitVec 4

/-- A duration in whole microseconds (00_scope.md R5, `DUR_W` = 32). -/
abbrev Dur := BitVec 32

/-- The two levels of the pin (00_scope.md R6). -/
inductive Level
  | low
  | high
  deriving DecidableEq, Repr

/-- On the wire `HIGH` is 1 and `LOW` is 0 (00_scope.md R6). -/
def Level.bit : Level → Bool
  | .low => false
  | .high => true

end Sys2Proof
end

