-- ==== Sys2Proof/Config.lean ====
section
/-! DEFINITION. What an instance of the block fixes: the protocol table and the other parameters of
spec/00_scope.md R5. The values the spec leaves `OPEN` are opaque constants: no proof can see them. -/

namespace Sys2Proof

/-- A Protocol, the immutable record of ten timing constants of 10_state.md R24, with its units and widths. -/
structure Protocol where
  /-- microseconds: base unit for regular pulses -/
  pulseLength : BitVec 24
  /-- microseconds: gap after each repetition block -/
  repeatDelay : BitVec 32
  /-- count of sync pulses before the code bits -/
  syncCount : BitVec 8
  /-- microseconds: optional extra pause after the sync pulses, 0 = none -/
  syncDelay : BitVec 32
  /-- absolute microseconds: high time of one sync pulse -/
  syncHigh : BitVec 32
  /-- absolute microseconds: low time of one sync pulse -/
  syncLow : BitVec 32
  /-- pulse lengths: high time of a 0 bit -/
  zeroHigh : BitVec 8
  /-- pulse lengths: low time of a 0 bit -/
  zeroLow : BitVec 8
  /-- pulse lengths: high time of a 1 bit -/
  oneHigh : BitVec 8
  /-- pulse lengths: low time of a 1 bit -/
  oneLow : BitVec 8
  deriving DecidableEq, Repr, Inhabited

/-- `PROTO_TABLE[1..2]`: index 1 is the generic shutter-control protocol, index 2 the rolling-code
garage-door protocol (40_protocol_table.md R72). Index 0 has no record. -/
structure ProtoTable where
  /-- `PROTO_TABLE[1]` -/
  shutter : Protocol
  /-- `PROTO_TABLE[2]` -/
  garage : Protocol
  deriving DecidableEq, Repr, Inhabited

/-- The invariant of 10_state.md R25 that the widths do not already give: `pulseLength >= 1` for every entry. -/
abbrev ProtoTable.Sound (t : ProtoTable) : Prop :=
  1 ≤ t.shutter.pulseLength.toNat ∧ 1 ≤ t.garage.pulseLength.toNat

/-- A table with the proof of its invariant: "A model takes `PROTO_TABLE` as an argument together with a
proof of these invariants" (10_state.md R25). The defaults only show that such a table exists. -/
structure SoundTable where
  /-- the table -/
  table : ProtoTable := ⟨⟨1, 0, 0, 0, 0, 0, 0, 0, 0, 0⟩, ⟨1, 0, 0, 0, 0, 0, 0, 0, 0, 0⟩⟩
  /-- the invariant of 10_state.md R25 -/
  sound : table.Sound := by decide
  deriving Inhabited

namespace Config

/-- `NPROTO`: the number of protocols; valid indices are `1..NPROTO` (00_scope.md R5). -/
def nproto : Nat := 2

/-- `DEFAULT_PROTO` of this hardware: the shutter-control protocol (00_scope.md R5, decision D8). -/
def defaultProto : BitVec 8 := 1

/-- `DEFAULT_PULSELEN` of this hardware: none is configured (00_scope.md R5, decision D11). -/
def defaultPulseLen : Option (BitVec 24) := none

/-- `DEFAULT_CODELEN`: the reset value of `CODELEN` and the width of a SEND that gives none
(00_scope.md R5, 30_encoding.md R56). -/
def defaultCodeLen : BitVec 8 := 40

/-- `MAXCODES`: the largest number of codes in one command (00_scope.md R5). -/
def maxCodes : Nat := 255

/-- OPEN: the numeric contents of the protocol table (decision D9; 91_not_in_source.md N1). Log 1. -/
opaque protoTable : SoundTable

/-- OPEN: the repeat count sampled into `REPEAT` at reset (decision D10). Log 1. -/
opaque repeatCount : BitVec 8

/-- OPEN: which pin the block drives, fixed by wiring (decision D26). Log 1. -/
opaque pin : Nat

/-- FREE VALUE: what word `i` of `CODEBUF` holds after the response with number `n`
(93_implementation_defined.md U8, "any value"). Log 2. -/
opaque deadCode : Nat → Nat → CmdWord

end Config

/-- The parameters of one instance (00_scope.md R5). Carried in the state and never written by a step (log 1), so
that a statement about every state is a statement about every instance. -/
structure Params where
  /-- `PROTO_TABLE` -/
  table : ProtoTable
  /-- `REPEAT_COUNT` -/
  repeatCount : BitVec 8
  /-- `DEFAULT_PROTO` -/
  defaultProto : BitVec 8
  /-- `DEFAULT_PULSELEN` -/
  defaultPulseLen : Option (BitVec 24)
  /-- `PIN` -/
  pin : Nat
  deriving DecidableEq, Repr

/-- What every instance must satisfy: the table's invariant (10_state.md R25), `DEFAULT_PROTO` in `0..NPROTO` and
`DEFAULT_PULSELEN` none or at least 1 (00_scope.md R5). -/
abbrev Params.Sound (p : Params) : Prop :=
  p.table.Sound ∧ p.defaultProto.toNat ≤ Config.nproto ∧ p.defaultPulseLen ≠ some 0

/-- The parameters of this hardware (00_scope.md R5). -/
def Config.params : Params where
  table := Config.protoTable.table
  repeatCount := Config.repeatCount
  defaultProto := Config.defaultProto
  defaultPulseLen := Config.defaultPulseLen
  pin := Config.pin

end Sys2Proof
end

