-- ==== Sys2Proof/Syntax.lean ====
section
/-! DEFINITION. The instructions: one constructor for each row of spec/opcode_table.json. -/

namespace Sys2Proof

/-- The four commands of the host (30_encoding.md R60) and the two pulse instructions that the WaveformGenerator
hands to the PinDriver (30_encoding.md R63). Optional operands of SEND are `none` when their presence bit is 0
(30_encoding.md R53). -/
inductive Instr
  /-- ENABLE (44_session.md R106) -/
  | enable
  /-- DISABLE (44_session.md R107) -/
  | disable
  /-- SEND codes protocolIndex? pulseLength? codeWidth? (44_session.md R108) -/
  | send (codes : List CmdWord) (protocolIndex : Option (BitVec 8)) (pulseLength : Option (BitVec 24))
      (codeWidth : Option (BitVec 8))
  /-- SENDB codes (44_session.md R113) -/
  | sendb (codes : List CmdWord)
  /-- PH d (43_pin_driver.md R97) -/
  | ph (d : Dur)
  /-- PL d (43_pin_driver.md R99) -/
  | pl (d : Dur)
  deriving DecidableEq, Repr

end Sys2Proof
end

