-- ==== Sys2Proof/WellFormed.lean ====
section
/-! DEFINITION. Which instructions have an encoding: the value constraints of spec/30_encoding.md R53, R54, R59. -/

namespace Sys2Proof

/-- `NCODES` is `0..255` (30_encoding.md R53, R54). -/
def codesFit (codes : List CmdWord) : Bool := decide (codes.length ≤ Config.maxCodes)

/-- `LV = 1` implies `PLENGTH >= 1`, and `WV = 1` implies `WIDTH >= 1` (30_encoding.md R59): an operand that is
present is not zero. -/
def presentNonzero {n : Nat} (v : Option (BitVec n)) : Bool := decide (v ≠ some 0)

/-- The instruction has an encoding. Any protocol index is well formed, also 0 and one above `NPROTO`, and any code
word is (30_encoding.md R59). Every pulse instruction is legal (30_encoding.md R63). -/
def Instr.wellFormed : Instr → Bool
  | .enable => true
  | .disable => true
  | .send codes _ pulseLength codeWidth => codesFit codes && presentNonzero pulseLength && presentNonzero codeWidth
  | .sendb codes => codesFit codes
  | .ph _ => true
  | .pl _ => true

end Sys2Proof
end

