-- ==== Sys2Proof/Decode.lean ====
section
/-! DEFINITION. Decoding and encoding: command packets (spec/30_encoding.md R51 to R61) and pulse words (R63).
Decoding is total: it answers one instruction or the name of what makes the packet `Illegal`. -/

namespace Sys2Proof

/-- Why a packet is `Illegal` (30_encoding.md R59, R60, R61). The machine treats all alike, by IllegalCommand. -/
inductive DecodeError
  /-- there is no header word -/
  | noHeader
  /-- the number of words is not the one the header determines (R57) -/
  | wrongLength
  /-- `OPC` is none of the four assigned opcodes (R60) -/
  | unassignedOpcode
  /-- a must-be-zero field is not zero (R52, R53, R54) -/
  | mustBeZero
  /-- an operand field is not zero although its presence bit is 0 (R59) -/
  | fieldWithoutPresence
  /-- `LV = 1` with `PLENGTH = 0` (R59) -/
  | zeroPulseLength
  /-- `WV = 1` with `WIDTH = 0` (R59) -/
  | zeroWidth
  deriving DecidableEq, Repr

/-- What is encoded: a command packet, header first, or a pulse word (30_encoding.md R50). -/
inductive Code
  | packet (words : List CmdWord)
  | pulse (w : PulseWord)
  deriving DecidableEq, Repr

/-! ### The fields of a header (30_encoding.md R51 to R54) -/

/-- `OPC`, bits 63:56. -/
def opcOf (h : CmdWord) : BitVec 8 := h.extractLsb' 56 8
/-- `PV`, bit 55. -/
def pvOf (h : CmdWord) : Bool := h.getLsbD 55
/-- `LV`, bit 54. -/
def lvOf (h : CmdWord) : Bool := h.getLsbD 54
/-- `WV`, bit 53. -/
def wvOf (h : CmdWord) : Bool := h.getLsbD 53
/-- The must-be-zero field of format S, bits 52:48. -/
def zeroSOf (h : CmdWord) : BitVec 5 := h.extractLsb' 48 5
/-- `PIDX`, bits 47:40. -/
def pidxOf (h : CmdWord) : BitVec 8 := h.extractLsb' 40 8
/-- `PLENGTH`, bits 39:16. -/
def plengthOf (h : CmdWord) : BitVec 24 := h.extractLsb' 16 24
/-- `WIDTH`, bits 15:8. -/
def widthOf (h : CmdWord) : BitVec 8 := h.extractLsb' 8 8
/-- `NCODES`, bits 7:0. -/
def ncodesOf (h : CmdWord) : BitVec 8 := h.extractLsb' 0 8
/-- The must-be-zero field of format N, bits 55:0. -/
def zeroNOf (h : CmdWord) : BitVec 56 := h.extractLsb' 0 56
/-- The must-be-zero field of format B, bits 55:8. -/
def zeroBOf (h : CmdWord) : BitVec 48 := h.extractLsb' 8 48

/-- The opcodes of 30_encoding.md R60. -/
def opcEnable : BitVec 8 := 0x01
/-- The opcode of DISABLE (R60). -/
def opcDisable : BitVec 8 := 0x02
/-- The opcode of SEND (R60). -/
def opcSend : BitVec 8 := 0x10
/-- The opcode of SENDB (R60). -/
def opcSendb : BitVec 8 := 0x11

/-- The length in words of the packet that a header opens: `1 + NCODES` when `OPC` is SEND or SENDB, whether or not
the header is legal, and 1 otherwise (30_encoding.md R57). -/
def packetLength (h : CmdWord) : Nat :=
  if opcOf h = opcSend ∨ opcOf h = opcSendb then 1 + (ncodesOf h).toNat else 1

/-! ### Decoding -/

/-- An optional operand from its presence bit and its field: with presence bit 0 the field must be 0
(30_encoding.md R56, R59). -/
def optField {n : Nat} (present : Bool) (v : BitVec n) : Except DecodeError (Option (BitVec n)) :=
  if present then .ok (some v) else if v = 0 then .ok none else .error .fieldWithoutPresence

/-- Decoding of a SEND header with its code words (30_encoding.md R53, R56, R59). -/
def decodeSend (h : CmdWord) (codes : List CmdWord) : Except DecodeError Instr :=
  if zeroSOf h ≠ 0 then .error .mustBeZero else
  match optField (pvOf h) (pidxOf h), optField (lvOf h) (plengthOf h), optField (wvOf h) (widthOf h) with
  | .ok pidx, .ok plen, .ok width =>
    if plen = some 0 then .error .zeroPulseLength
    else if width = some 0 then .error .zeroWidth
    else .ok (.send codes pidx plen width)
  | _, _, _ => .error .fieldWithoutPresence

/-- Decoding of a header whose packet is complete (30_encoding.md R61). -/
def decodeHeader (h : CmdWord) (codes : List CmdWord) : Except DecodeError Instr :=
  if opcOf h = opcEnable then (if zeroNOf h = 0 then .ok .enable else .error .mustBeZero)
  else if opcOf h = opcDisable then (if zeroNOf h = 0 then .ok .disable else .error .mustBeZero)
  else if opcOf h = opcSend then decodeSend h codes
  else if opcOf h = opcSendb then (if zeroBOf h = 0 then .ok (.sendb codes) else .error .mustBeZero)
  else .error .unassignedOpcode

/-- Decoding of a whole packet, total on any list of words (30_encoding.md R57, R61). -/
def decodePacket : List CmdWord → Except DecodeError Instr
  | [] => .error .noHeader
  | h :: codes => if codes.length + 1 = packetLength h then decodeHeader h codes else .error .wrongLength

/-- `LVL`, bit 32 of a pulse word (30_encoding.md R63). -/
def lvlOf (w : PulseWord) : Bool := w.getLsbD 32
/-- `DUR`, bits 31:0 of a pulse word (30_encoding.md R63). -/
def durOf (w : PulseWord) : Dur := w.extractLsb' 0 32

/-- Decoding of a pulse word: every 33-bit value is a legal pulse instruction (30_encoding.md R63). -/
def decodePulse (w : PulseWord) : Instr :=
  if lvlOf w then .ph (durOf w) else .pl (durOf w)

/-- The decoder over everything that is encoded. -/
def decode : Code → Except DecodeError Instr
  | .packet words => decodePacket words
  | .pulse w => .ok (decodePulse w)

/-! ### Encoding -/

/-- A presence bit (30_encoding.md R53). -/
def presence {n : Nat} (v : Option (BitVec n)) : BitVec 1 := BitVec.ofBool v.isSome

/-- A format N header (30_encoding.md R52). -/
def headerN (opc : BitVec 8) : CmdWord := opc ++ (0 : BitVec 56)

/-- A format S header (30_encoding.md R53); an absent operand's field is 0. -/
def headerS (pidx : Option (BitVec 8)) (plen : Option (BitVec 24)) (width : Option (BitVec 8)) (ncodes : BitVec 8) :
    CmdWord :=
  opcSend ++ presence pidx ++ presence plen ++ presence width ++ (0 : BitVec 5)
    ++ pidx.getD 0 ++ plen.getD 0 ++ width.getD 0 ++ ncodes

/-- A format B header (30_encoding.md R54). -/
def headerB (ncodes : BitVec 8) : CmdWord := opcSendb ++ (0 : BitVec 48) ++ ncodes

/-- A pulse word, format P (30_encoding.md R63). -/
def pulseWord (lvl : Level) (d : Dur) : PulseWord := BitVec.ofBool lvl.bit ++ d

/-- The words of a well-formed instruction, from the encoding tables of 30_encoding.md R52 to R55, R60, R63. -/
def encode : Instr → Code
  | .enable => .packet [headerN opcEnable]
  | .disable => .packet [headerN opcDisable]
  | .send codes pidx plen width => .packet (headerS pidx plen width (BitVec.ofNat 8 codes.length) :: codes)
  | .sendb codes => .packet (headerB (BitVec.ofNat 8 codes.length) :: codes)
  | .ph d => .pulse (pulseWord .high d)
  | .pl d => .pulse (pulseWord .low d)

/-! ### Words as spec/opcode_table.json numbers them -/

/-- The words of the packet whose bits are `w`: the header is bits 63:0, code word `i` is the 64 bits from
bit `64 * (i + 1)` on, as many as the header asks for (30_encoding.md R57). -/
def tablePacket (w : Nat) : List CmdWord :=
  let h : CmdWord := BitVec.ofNat 64 w
  h :: (List.range (packetLength h - 1)).map fun i => BitVec.ofNat 64 (w / 2 ^ (64 * (i + 1)))

/-- An instruction of `nbits` bits `w`: below 64 bits it is a pulse word, which has 33; otherwise a packet. -/
def tableCode (nbits w : Nat) : Option Code :=
  if nbits < 64 then (if w < 2 ^ 33 then some (.pulse (BitVec.ofNat 33 w)) else none)
  else some (.packet (tablePacket w))

/-- The instruction the decoder reads from the bits `w` of a row of spec/opcode_table.json. -/
def decodeTableWord (nbits w : Nat) : Option Instr :=
  match tableCode nbits w with
  | some c => (decode c).toOption
  | none => none

end Sys2Proof
end

