-- ==== Sys2Proof/Machine/State.lean ====
section
/-! DEFINITION. The state of one block instance (spec/10_state.md), as plain data, and its value after reset. -/

namespace Sys2Proof.Machine

/-- The error kinds (60_exceptions.md R125): failures reported in the response of a command. They are no faults of
the machine: a command that raises one ends, and the block goes on. -/
inductive ErrorKind
  /-- a protocol index operand outside `1..NPROTO` (R126) -/
  | unknownProtocol
  /-- a code that does not fit the width (R127) -/
  | codeTooWide
  /-- a SEND or a pulse attempted while not Armed (R128) -/
  | transmitterDisabled
  /-- the stored `PROTO` selects no record when a waveform is to be generated (R129) -/
  | protocolUnselected
  /-- a packet that does not decode to a command (R130) -/
  | illegalCommand
  deriving DecidableEq, Repr

/-- The events of the pin event trace (10_state.md R27). -/
inductive Event
  /-- a `configureAsOutput(PIN)`: `pin_oe` 0 to 1 -/
  | cfgOut
  /-- a `configureAsInput(PIN)`: `pin_oe` 1 to 0 -/
  | cfgIn
  /-- a `write(PIN, level)` followed by a hold of `d` microseconds: one executed pulse instruction -/
  | wr (level : Level) (d : Dur)
  deriving DecidableEq, Repr

/-- A pulse instruction as the pair `(level, durationMicros)` (42_waveform.md R80). -/
structure Pulse where
  /-- the level to write -/
  level : Level
  /-- how long it is held -/
  dur : Dur
  deriving DecidableEq, Repr

/-- The phase `ph` of a sequencer position (10_state.md R19). -/
inductive Phase
  | syncH
  | syncL
  | syncDly
  | bitH
  | bitL
  | repDly
  deriving DecidableEq, Repr

/-- A position `(ci, ri, ph, k)` of the sequencer (10_state.md R19). -/
structure Pos where
  /-- the index of the code being sent -/
  ci : Nat
  /-- the index of the repetition of that code -/
  ri : Nat
  /-- the phase -/
  ph : Phase
  /-- the index of the sync pulse or of the data bit; 0 in the other phases -/
  k : Nat
  deriving DecidableEq, Repr

/-- What `SEQ` holds while a SEND or SENDB is transmitting: a position, or `DONE`, the successor of the last one
(10_state.md R19). -/
inductive SeqPos
  | pos (p : Pos)
  | done
  deriving DecidableEq, Repr

/-- The command that the pulses in progress belong to. Only a SENDB disables when it ends (44_session.md R113). -/
inductive Enclosing
  | send
  | sendb
  deriving DecidableEq, Repr

/-- What the block is doing. The spec implies it (30_encoding.md R57, 44_session.md R113 line 3); log 3. -/
inductive Activity
  /-- `BUSY = 0`: it waits for a header -/
  | waiting
  /-- it has accepted the header and these code words of a packet -/
  | receiving (header : CmdWord) (got : List CmdWord)
  /-- it is inside a SEND or a SENDB -/
  | executing (command : Enclosing)
  deriving DecidableEq, Repr

/-- How far the pulse instruction of the current position has come on its way through the pin driver; log 5. -/
inductive PulseStage
  /-- not handed to the pin driver yet -/
  | ready
  /-- its word is on the link from the WaveformGenerator to the PinDriver (30_encoding.md R50) -/
  | issued (w : PulseWord)
  /-- its level is written and its hold is running or over (43_pin_driver.md R104) -/
  | playing
  deriving DecidableEq, Repr

/-- The state of one block instance. The registers are those of 10_state.md R10, under its names. -/
structure State where
  /-- the instance's parameters, `PROTO_TABLE` among them (00_scope.md R5, 10_state.md R24); never written; log 1 -/
  params : Params
  /-- `EN`: Armed when true, Idle when false (10_state.md R12) -/
  en : Bool
  /-- `PROTO`: the selected protocol's index, 0 for none (10_state.md R13) -/
  proto : BitVec 8
  /-- `PLENV`: a pulse length is configured (10_state.md R14) -/
  plenv : Bool
  /-- `PLEN`: the configured pulse length (10_state.md R14) -/
  plen : BitVec 24
  /-- `REPEAT`: repetition blocks for each code (10_state.md R15) -/
  repeatReg : BitVec 8
  /-- `CODELEN`: the width codes are encoded to (10_state.md R16) -/
  codelen : BitVec 8
  /-- `BUSY` (10_state.md R17) -/
  busy : Bool
  /-- `NC`: how many codes the command in flight has (10_state.md R18) -/
  nc : BitVec 8
  /-- `CODEBUF[0..NC-1]` (10_state.md R18) -/
  codebuf : List CmdWord
  /-- `SEQ`, `none` when absent (10_state.md R19) -/
  seq : Option SeqPos
  /-- `CNT`: microsecond ticks left in the hold (10_state.md R20) -/
  cnt : BitVec 32
  /-- `pin_oe`: the pin is an output (10_state.md R21) -/
  pinOe : Bool
  /-- `pin_out`: the level driven (10_state.md R21) -/
  pinOut : Bool
  /-- output port `pin_wr`, the strobe of a pin write (10_state.md R21, 43_pin_driver.md R95); log 6 -/
  pinWr : Bool
  /-- output port `rsp_valid` with `rsp_data` (92_eei_decisions.md D3); log 6 -/
  rsp : Option RspWord
  /-- input: the command words the host has still to deliver (92_eei_decisions.md D3); log 7 -/
  cmdIn : List CmdWord
  /-- input: the level of `rst` at each coming step, low when the list is at its end (70_reset_and_hazards.md R150);
  log 7 -/
  rstIn : List Bool
  /-- what the block is doing; log 3 -/
  activity : Activity
  /-- where the pulse instruction of the current position stands; log 5 -/
  stage : PulseStage
  /-- ghost: `TRACE`, in time order (10_state.md R27) -/
  trace : List Event
  /-- ghost: the responses in command order (10_state.md R27) -/
  responses : List RspWord
  /-- ghost: microsecond ticks spent in holds (43_pin_driver.md R103); log 8 -/
  ticks : Nat
  /-- the model's counter that makes each free value a fresh one; log 2 -/
  freeIdx : Nat
  deriving DecidableEq, Repr

/-- The reasons a step can stop with a fault. -/
inductive Fault
  /-- `SEQ` designates no pulse instruction: it is absent inside a transmission, or its code or bit index lies outside
  the code buffer or the code. Raised by `playAction` only. SAFE: no reachable state holds such a `SEQ` (10_state.md
  R19 bounds every index), and the spec gives it no meaning. Log 9. -/
  | strayPosition
  deriving DecidableEq, Repr

/-- The reasons an instruction can be refused. -/
inductive Refusal
  /-- The instruction has no meaning yet. Raised by `exec` only, in the arm of the instruction named. SAFE. No arm
  raises it now: every instruction has its meaning. -/
  | notModelled (mnemonic : String)
  deriving DecidableEq, Repr

/-- What one step is about to do: it runs an instruction, or its outcome needs none. -/
inductive Action
  | run (i : Instr) (s : State)
  | outcome (o : Host.Outcome State Fault Refusal)

/-- Why a position gives no pulse instruction. -/
inductive PulseStop
  /-- the generator raises an error kind (42_waveform.md R89) -/
  | raises (e : ErrorKind)
  /-- the position is out of range -/
  | stray
  deriving DecidableEq, Repr

/-- The state right after reset of an instance with parameters `p` (10_state.md R31). -/
def State.init (p : Params) : State where
  params := p
  en := false
  proto := p.defaultProto
  plenv := p.defaultPulseLen.isSome
  plen := p.defaultPulseLen.getD 0
  repeatReg := p.repeatCount
  codelen := Config.defaultCodeLen
  busy := false
  nc := 0
  codebuf := []
  seq := none
  cnt := 0
  pinOe := false
  pinOut := false
  pinWr := false
  rsp := none
  cmdIn := []
  rstIn := []
  activity := .waiting
  stage := .ready
  trace := []
  responses := []
  ticks := 0
  freeIdx := 0

/-- The machine right after reset (10_state.md R31; power-on is a reset, 70_reset_and_hazards.md R150). -/
def State.reset : State := State.init Config.params

end Sys2Proof.Machine
end

