-- ==== Sys2Proof/Machine/Flags.lean ====
section
/-! DEFINITION. The block's status: the session state, the ready line of the command channel and the response word
with its `FAIL` and `ERR` fields. There is no condition code and no sticky error flag (spec/10_state.md R17). -/

namespace Sys2Proof.Machine

/-- The session is Armed; Idle otherwise (44_session.md R109). -/
def armed (s : State) : Bool := s.en

/-- `cmd_ready`: the command channel takes the next word. While `BUSY = 1` only the words of the packet in progress are
taken (10_state.md R17, 30_encoding.md R57). -/
def cmdReady (s : State) : Bool :=
  match s.activity with
  | .waiting => true
  | .receiving h got => decide (got.length + 1 < packetLength h)
  | .executing _ => false

/-- `ERR`, the error code (60_exceptions.md R125). -/
def errCode : ErrorKind → BitVec 3
  | .unknownProtocol => 1
  | .codeTooWide => 2
  | .transmitterDisabled => 3
  | .protocolUnselected => 4
  | .illegalCommand => 7

/-- The response word: `none` is success, `some e` failure with error kind `e` (30_encoding.md R64). -/
def rspWord : Option ErrorKind → RspWord
  | none => 0
  | some e => BitVec.ofBool true ++ errCode e

/-- `FAIL`, bit 3 of a response (30_encoding.md R64). -/
def failOf (r : RspWord) : Bool := r.getLsbD 3

/-- `ERR`, bits 2..0 of a response (30_encoding.md R64). -/
def errOf (r : RspWord) : BitVec 3 := r.extractLsb' 0 3

end Sys2Proof.Machine
end

