-- ==== Sys2Proof/Machine/Encoder.lean ====
section
/-! DEFINITION. The Encoder: `bitlen` and ENCODE (spec/41_encoder.md). -/

namespace Sys2Proof.Machine

/-- The natural bit length: 0 for 0, otherwise the `L` with `2^(L-1) <= n < 2^L` (41_encoder.md R75). -/
def bitlen (n : Nat) : Nat := if n = 0 then 0 else Nat.log2 n + 1

/-- Bit `i` of the encoding, counted from the left: `(code div 2^(width-1-i)) mod 2` (41_encoder.md R76). -/
def codeBit (code width i : Nat) : Bool := code / 2 ^ (width - 1 - i) % 2 == 1

/-- ENCODE: the bits of `code`, most significant first, padded with zeros on the left to `width`; a code that does not
fit is an error, never truncated (41_encoder.md R76, R79). At width 0 there is no value: what asks for width 0 is
IllegalCommand (41_encoder.md R77; 93_implementation_defined.md U6; log 10). -/
def encodeCode (code width : Nat) : Except ErrorKind (List Bool) :=
  if width = 0 then .error .illegalCommand
  else if width < bitlen code then .error .codeTooWide
  else .ok ((List.range width).map (codeBit code width))

/-- Line 7 of SEND: every code is encoded, in list order; the first that fails gives the error
(44_session.md R108). -/
def encodeAll (width : Nat) : List CmdWord → Except ErrorKind (List (List Bool))
  | [] => .ok []
  | c :: cs =>
    match encodeCode c.toNat width with
    | .error e => .error e
    | .ok b =>
      match encodeAll width cs with
      | .error e => .error e
      | .ok bs => .ok (b :: bs)

end Sys2Proof.Machine
end

