-- ==== Sys2Proof/Machine/Waveform.lean ====
section
/-! DEFINITION. The WaveformGenerator as pure functions on lists of pulse instructions (spec/42_waveform.md R80 to
R91, R94). -/

namespace Sys2Proof.Machine

/-- A regular pulse's duration, multiplier times pulse length, computed exactly and narrowed to a duration; the
product always fits (42_waveform.md R84, R94). -/
def scaled (multiplier : BitVec 8) (pl : BitVec 24) : Dur := BitVec.ofNat 32 (multiplier.toNat * pl.toNat)

/-- The high time of a data bit (42_waveform.md R84). -/
def bitHigh (P : Protocol) (pl : BitVec 24) (b : Bool) : Dur := scaled (if b then P.oneHigh else P.zeroHigh) pl

/-- The low time of a data bit (42_waveform.md R84). -/
def bitLow (P : Protocol) (pl : BitVec 24) (b : Bool) : Dur := scaled (if b then P.oneLow else P.zeroLow) pl

/-- `rep(n, l)`: the list `l` concatenated `n` times (00_scope.md R7). -/
def rep {α : Type} : Nat → List α → List α
  | 0, _ => []
  | n + 1, l => l ++ rep n l

/-- Step 1: `syncCount` sync pulses in absolute microseconds (42_waveform.md R82). -/
def syncPulses (P : Protocol) : List Pulse := rep P.syncCount.toNat [⟨.high, P.syncHigh⟩, ⟨.low, P.syncLow⟩]

/-- Step 2: the sync delay, if any (42_waveform.md R83). -/
def syncDelay (P : Protocol) : List Pulse := if 0 < P.syncDelay.toNat then [⟨.low, P.syncDelay⟩] else []

/-- The pair of one data bit (42_waveform.md R84). -/
def bitPair (P : Protocol) (pl : BitVec 24) (b : Bool) : List Pulse :=
  [⟨.high, bitHigh P pl b⟩, ⟨.low, bitLow P pl b⟩]

/-- Step 3: the data bits, left to right (42_waveform.md R84). -/
def dataPulses (P : Protocol) (pl : BitVec 24) (bits : List Bool) : List Pulse := bits.flatMap (bitPair P pl)

/-- Step 4: the repeat delay, always emitted (42_waveform.md R85). -/
def repeatDelay (P : Protocol) : List Pulse := [⟨.low, P.repeatDelay⟩]

/-- One repetition block (42_waveform.md R86). -/
def block (P : Protocol) (pl : BitVec 24) (bits : List Bool) : List Pulse :=
  syncPulses P ++ syncDelay P ++ dataPulses P pl bits ++ repeatDelay P

/-- The waveform of one code: the block repeated `R` times (42_waveform.md R87). -/
def waveform (P : Protocol) (pl : BitVec 24) (R : Nat) (bits : List Bool) : List Pulse := rep R (block P pl bits)

/-- The pulses of a whole SEND: the codes' waveforms one after another, nothing between them (42_waveform.md R88). -/
def pulseSequence (P : Protocol) (pl : BitVec 24) (R : Nat) (codes : List (List Bool)) : List Pulse :=
  codes.flatMap (waveform P pl R)

/-- The `Wr` events of a list of pulse instructions (10_state.md R27). -/
def pulseEvents (ps : List Pulse) : List Event := ps.map fun p => .wr p.level p.dur

/-- The nominal duration of a list of pulse instructions in microseconds (42_waveform.md R91; 43_pin_driver.md R103). -/
def totalDuration (ps : List Pulse) : Nat := (ps.map fun p => p.dur.toNat).sum

/-- The instruction of a pulse (42_waveform.md R80). -/
def Pulse.instr (p : Pulse) : Instr :=
  match p.level with
  | .high => .ph p.dur
  | .low => .pl p.dur

end Sys2Proof.Machine
end

