-- ==== Sys2Proof/Machine/Operands.lean ====
section
/-! DEFINITION. The operands of the commands: the table read GET (spec/40_protocol_table.md), operand assembly
(30_encoding.md R56), the overrides of SEND (44_session.md R108 lines 2 to 6) and the effective pulse length
(42_waveform.md R81). -/

namespace Sys2Proof.Machine

/-- `valid(index)`: `1 <= index <= NPROTO` (40_protocol_table.md R71). -/
def validIndex (i : BitVec 8) : Bool := decide (1 ≤ i.toNat ∧ i.toNat ≤ Config.nproto)

/-- GET: the record of a valid index, UnknownProtocol otherwise (40_protocol_table.md R70). -/
def getProtocol (t : ProtoTable) (i : BitVec 8) : Except ErrorKind Protocol :=
  if validIndex i then .ok (if i = 1 then t.shutter else t.garage) else .error .unknownProtocol

/-- The width operand: 40 when absent (30_encoding.md R56). -/
def widthOperand (codeWidth : Option (BitVec 8)) : BitVec 8 := codeWidth.getD Config.defaultCodeLen

/-- Lines 2 to 4 of SEND: a protocol operand is checked, then stored (44_session.md R108). -/
def overrideProtocol (protocolIndex : Option (BitVec 8)) (s : State) : Except ErrorKind State :=
  match protocolIndex with
  | none => .ok s
  | some i =>
    match getProtocol s.params.table i with
    | .error e => .error e
    | .ok _ => .ok { s with proto := i }

/-- Line 5 of SEND: a pulse-length operand is stored (44_session.md R108). -/
def overridePulseLen (pulseLength : Option (BitVec 24)) (s : State) : State :=
  match pulseLength with
  | none => s
  | some l => { s with plenv := true, plen := l }

/-- The effective pulse length: the configured one, else the protocol's own; never written back
(42_waveform.md R81). -/
def effectivePulseLen (s : State) (P : Protocol) : BitVec 24 := if s.plenv then s.plen else P.pulseLength

end Sys2Proof.Machine
end

