-- ==== Sys2Proof/Machine/Ops.lean ====
section
/-! DEFINITION. The named operations on the state: the pin driver's primitives (spec/43_pin_driver.md), the command
channel, the response, RAISING AN ERROR KIND (60_exceptions.md R134) and reset (70_reset_and_hazards.md). -/

namespace Sys2Proof.Machine

/-- `emit(e)`: append an event to the trace (00_scope.md R7). -/
def emit (e : Event) (s : State) : State := { s with trace := s.trace ++ [e] }

/-- `setLevel(level)`: write the level, with the strobe `pin_wr` (43_pin_driver.md R95). -/
def setLevel (l : Level) (s : State) : State := { s with pinOut := l.bit, pinWr := true }

/-- `sleepMicros(n)`: load the hold counter (43_pin_driver.md R96). The ticks are steps of their own. -/
def sleepMicros (n : Dur) (s : State) : State := { s with cnt := n }

/-- One microsecond tick of a hold (43_pin_driver.md R104). -/
def tick (s : State) : State := { s with cnt := s.cnt - 1, ticks := s.ticks + 1 }

/-- `configureAsOutput(PIN)` (43_pin_driver.md R100). -/
def configureAsOutput (s : State) : State := emit .cfgOut { s with pinOe := true }

/-- `configureAsInput(PIN)` (43_pin_driver.md R100). -/
def configureAsInput (s : State) : State := emit .cfgIn { s with pinOut := false, pinOe := false }

/-- The body of ENABLE without its response: a no-op when already Armed (44_session.md R106). -/
def enableBody (s : State) : State := if s.en then s else { configureAsOutput s with en := true }

/-- The body of DISABLE without its response: a no-op when already Idle (44_session.md R107). -/
def disableBody (s : State) : State := if s.en then { configureAsInput s with en := false } else s

/-- The words of a code buffer that nothing may read any more: free values (93_implementation_defined.md U8; log 2). -/
def deadCodes (n count : Nat) : List CmdWord := (List.range count).map (Config.deadCode n)

/-- The code buffer of a SEND or SENDB that ends is dead: any value (10_state.md R18, 93_implementation_defined.md U8;
log 2). -/
def dropCodes (s : State) : State :=
  { s with codebuf := deadCodes s.freeIdx s.nc.toNat, freeIdx := s.freeIdx + 1 }

/-- Issue the one response of a command and be ready for the next: `BUSY <- 0` and `SEQ` is absent
(30_encoding.md R64, 60_exceptions.md R134). -/
def respond (r : Option ErrorKind) (s : State) : State :=
  { s with
    busy := false
    activity := .waiting
    seq := none
    stage := .ready
    rsp := some (rspWord r)
    responses := s.responses ++ [rspWord r] }

/-- End the command in progress with an outcome: a SENDB first performs the body of DISABLE (44_session.md R113
line 4, R115). -/
def finish (r : Option ErrorKind) (s : State) : State :=
  match s.activity with
  | .executing .sendb => respond r (dropCodes (disableBody s))
  | .executing .send => respond r (dropCodes s)
  | .receiving _ _ => respond r s
  | .waiting => respond r s

/-- `raise E`, the block's one way of taking an exception (60_exceptions.md R134): the command stops, what it wrote
stays, `SEQ` is discarded, `CNT <- 0`, a SENDB disables, and the response `FAIL(E)` is issued. There is no handler, so
there is no return from it (R137). -/
def raise (e : ErrorKind) (s : State) : State := finish (some e) { s with seq := none, stage := .ready, cnt := 0 }

/-- Acceptance of a SEND or SENDB: its codes are loaded (30_encoding.md R55, 10_state.md R18). `BUSY` is 1 since its
header was accepted (10_state.md R17). -/
def loadCodes (c : Enclosing) (codes : List CmdWord) (s : State) : State :=
  { s with busy := true, activity := .executing c, nc := BitVec.ofNat 8 codes.length, codebuf := codes }

/-- Take the next word of the command channel, if the host has one: the first is a header and sets `BUSY`
(30_encoding.md R57, 10_state.md R17). No effect of the command happens here. -/
def acceptWord (s : State) : State :=
  match s.cmdIn with
  | [] => s
  | w :: rest =>
    match s.activity with
    | .waiting => { s with cmdIn := rest, busy := true, activity := .receiving w [] }
    | .receiving h got => { s with cmdIn := rest, activity := .receiving h (got ++ [w]) }
    | .executing _ => s

/-- The start of a step outside reset: the strobes of the step before end, and its level of `rst` is used up
(log 6, log 7). -/
def beginStep (s : State) : State := { s with pinWr := false, rsp := none, rstIn := s.rstIn.tail }

/-- A step with `rst` asserted: every register has its reset value, the pin is an input at once, what was received is
dropped and no response is issued; the trace gains `CfgIn` if the session was Armed (70_reset_and_hazards.md R150,
R151). The inputs, the ghosts and the parameters go on (log 4, log 7). -/
def resetStep (s : State) : State :=
  { State.init s.params with
    cmdIn := s.cmdIn
    rstIn := s.rstIn.tail
    trace := if s.en then s.trace ++ [.cfgIn] else s.trace
    responses := s.responses
    ticks := s.ticks
    freeIdx := s.freeIdx }

end Sys2Proof.Machine
end

