-- ==== Sys2Proof/Machine/Sequencer.lean ====
section
/-! DEFINITION. The sequencer: the pulse instruction a position designates and the successor function
(spec/42_waveform.md R92, R93), and how one pulse instruction goes to the pin driver. -/

namespace Sys2Proof.Machine

/-- `after_sync(ci, ri)` (42_waveform.md R92). -/
def afterSync (P : Protocol) (ci ri : Nat) : Pos :=
  if 0 < P.syncDelay.toNat then ⟨ci, ri, .syncDly, 0⟩ else ⟨ci, ri, .bitH, 0⟩

/-- `start(ci, ri)` (42_waveform.md R92). -/
def startBlock (P : Protocol) (ci ri : Nat) : Pos :=
  if 0 < P.syncCount.toNat then ⟨ci, ri, .syncH, 0⟩ else afterSync P ci ri

/-- `first(0)` for `N` codes and `R` repetitions (42_waveform.md R92). -/
def firstPos (P : Protocol) (R N : Nat) : SeqPos := if N = 0 ∨ R = 0 then .done else .pos (startBlock P 0 0)

/-- `next`, the successor of a position (42_waveform.md R92). -/
def nextPos (P : Protocol) (W R N : Nat) (p : Pos) : SeqPos :=
  match p.ph with
  | .syncH => .pos { p with ph := .syncL }
  | .syncL =>
    if p.k + 1 < P.syncCount.toNat then .pos { p with ph := .syncH, k := p.k + 1 } else .pos (afterSync P p.ci p.ri)
  | .syncDly => .pos { p with ph := .bitH, k := 0 }
  | .bitH => .pos { p with ph := .bitL }
  | .bitL => if p.k + 1 < W then .pos { p with ph := .bitH, k := p.k + 1 } else .pos { p with ph := .repDly, k := 0 }
  | .repDly =>
    if p.ri + 1 < R then .pos (startBlock P p.ci (p.ri + 1))
    else if p.ci + 1 < N then .pos (startBlock P (p.ci + 1) 0)
    else .done

/-- The pulse instruction of a position, from the bits `b` of its code (the table of 42_waveform.md R92); `none` when
the bit index lies outside the code. -/
def pulseAt (P : Protocol) (pl : BitVec 24) (b : List Bool) (p : Pos) : Option Pulse :=
  match p.ph with
  | .syncH => some ⟨.high, P.syncHigh⟩
  | .syncL => some ⟨.low, P.syncLow⟩
  | .syncDly => some ⟨.low, P.syncDelay⟩
  | .bitH => b[p.k]?.map fun v => ⟨.high, bitHigh P pl v⟩
  | .bitL => b[p.k]?.map fun v => ⟨.low, bitLow P pl v⟩
  | .repDly => some ⟨.low, P.repeatDelay⟩

/-- The pulse instruction that a position designates in a state (42_waveform.md R92). An invalid `PROTO` raises
ProtocolUnselected (R89). -/
def designated (s : State) (p : Pos) : Except PulseStop Pulse :=
  match getProtocol s.params.table s.proto with
  | .error _ => .error (.raises .protocolUnselected)
  | .ok P =>
    match s.codebuf[p.ci]? with
    | none => .error .stray
    | some c =>
      match encodeCode c.toNat s.codelen.toNat with
      | .error e => .error (.raises e)
      | .ok b =>
        match pulseAt P (effectivePulseLen s P) b p with
        | none => .error .stray
        | some x => .ok x

/-- Lines 8 to 11 of SEND, then `SEQ <- first(0)`: an empty list needs no protocol; otherwise an invalid `PROTO` raises
ProtocolUnselected before the first pulse, also when `REPEAT = 0` (44_session.md R108, R111; 42_waveform.md R89,
R92). -/
def launch (s : State) : State :=
  if s.nc = 0 then { s with seq := some .done, stage := .ready }
  else
    match getProtocol s.params.table s.proto with
    | .error _ => raise .protocolUnselected s
    | .ok P => { s with seq := some (firstPos P s.repeatReg.toNat s.nc.toNat), stage := .ready }

/-- Hand the designated pulse instruction to the pin driver, as a word on the link (30_encoding.md R50). -/
def issuePulse (p : Pos) (s : State) : Host.Outcome State Fault Refusal :=
  match designated s p with
  | .ok x => .next { s with stage := .issued (pulseWord x.level x.dur) }
  | .error (.raises e) => .next (raise e s)
  | .error .stray => .fault .strayPosition

/-- The hold is over: `SEQ <- next(SEQ)` (42_waveform.md R92). -/
def advance (s : State) : Host.Outcome State Fault Refusal :=
  match s.seq with
  | none => .fault .strayPosition
  | some .done => .next { s with stage := .ready }
  | some (.pos p) =>
    match getProtocol s.params.table s.proto with
    | .error _ => .next (raise .protocolUnselected s)
    | .ok P =>
      .next { s with seq := some (nextPos P s.codelen.toNat s.repeatReg.toNat s.nc.toNat p), stage := .ready }

/-- What a step does inside a SEND or SENDB: issue the designated pulse instruction, run it, let one tick of its hold
pass, advance, or, at `DONE`, end the command with success (42_waveform.md R92; 43_pin_driver.md R104). -/
def playAction (s : State) : Action :=
  match s.stage with
  | .issued w => .run (decodePulse w) s
  | .playing => .outcome (if s.cnt = 0 then advance s else .next (tick s))
  | .ready =>
    match s.seq with
    | none => .outcome (.fault .strayPosition)
    | some .done => .outcome (.next (finish none s))
    | some (.pos p) => .outcome (issuePulse p s)

end Sys2Proof.Machine
end

