-- ==== Sys2Proof/Machine/Control.lean ====
section
/-! DEFINITION. What a step does next: take a word, run a complete packet, or play a transmission
(spec/30_encoding.md R57, R61; 10_state.md R17; 42_waveform.md R92). And where an instruction is put so that the next
step fetches it. -/

namespace Sys2Proof.Machine

/-- A complete packet: it is decoded and run, or it is `Illegal` and answers IllegalCommand (30_encoding.md R61,
60_exceptions.md R130). -/
def runPacket (h : CmdWord) (codes : List CmdWord) (s : State) : Action :=
  match decodePacket (h :: codes) with
  | .ok i => .run i s
  | .error _ => .outcome (.next (raise .illegalCommand s))

/-- What a step outside reset does. With no word on the channel the block waits (70_reset_and_hazards.md R150, R158). -/
def action (s : State) : Action :=
  match s.activity with
  | .waiting => .outcome (.next (acceptWord s))
  | .receiving h got => if cmdReady s then .outcome (.next (acceptWord s)) else runPacket h got s
  | .executing _ => playAction s

/-- A state whose next step fetches the code `c`. A packet stands completely received (30_encoding.md R57); a pulse
word stands on the link to the pin driver, inside a SEND whose sequencer is at `DONE` (log 12, log 13). Reset is not
asserted. -/
def placeCode (c : Code) (s : State) : State :=
  match c with
  | .packet [] => s
  | .packet (h :: codes) =>
    { s with rstIn := [], busy := true, activity := .receiving h codes }
  | .pulse w =>
    { s with rstIn := [], busy := true, activity := .executing .send, seq := some .done, stage := .issued w }

end Sys2Proof.Machine
end

