-- ==== Sys2Proof/Machine/Pulse.lean ====
section
/-! DEFINITION. The meanings of the pulse instructions PH and PL (spec/43_pin_driver.md R97, R99). -/

namespace Sys2Proof.Machine

/-- A pulse instruction: the Armed check, then the level is written, the event recorded and the hold started
(43_pin_driver.md R97, R99). A duration of 0 is executed like any other (R101). -/
def drive (l : Level) (d : Dur) (s : State) : State :=
  if s.en then { sleepMicros d (emit (.wr l d) (setLevel l s)) with stage := .playing }
  else raise .transmitterDisabled s

/-- PH d (43_pin_driver.md R97). -/
def execPh (d : Dur) (s : State) : Host.Outcome State Fault Refusal := .next (drive .high d s)

/-- PL d (43_pin_driver.md R99). -/
def execPl (d : Dur) (s : State) : Host.Outcome State Fault Refusal := .next (drive .low d s)

end Sys2Proof.Machine
end

