-- ==== Sys2Proof/Machine/Session.lean ====
section
/-! DEFINITION. The meanings of the four commands ENABLE, DISABLE, SEND and SENDB (spec/44_session.md). -/

namespace Sys2Proof.Machine

/-- ENABLE (44_session.md R106). -/
def execEnable (s : State) : Host.Outcome State Fault Refusal := .next (respond none (enableBody s))

/-- DISABLE (44_session.md R107). -/
def execDisable (s : State) : Host.Outcome State Fault Refusal := .next (respond none (disableBody s))

/-- Lines 1 to 11 of SEND on the codes already loaded, up to the start of the transmission (44_session.md R108). The
pulses are steps of their own (log 5), and line 14 is the step at `DONE`. -/
def sendBody (protocolIndex : Option (BitVec 8)) (pulseLength : Option (BitVec 24)) (width : BitVec 8) (s : State) :
    State :=
  if s.en then
    match overrideProtocol protocolIndex s with
    | .error e => raise e s
    | .ok t =>
      let u : State := { overridePulseLen pulseLength t with codelen := width }
      match encodeAll width.toNat u.codebuf with
      | .error e => raise e u
      | .ok _ => launch u
  else raise .transmitterDisabled s

/-- SEND (44_session.md R108). Operands that no packet encodes are an illegal command (30_encoding.md R59, R61;
93_implementation_defined.md U6; log 10). -/
def execSend (codes : List CmdWord) (protocolIndex : Option (BitVec 8)) (pulseLength : Option (BitVec 24))
    (codeWidth : Option (BitVec 8)) (s : State) : Host.Outcome State Fault Refusal :=
  .next (if (Instr.send codes protocolIndex pulseLength codeWidth).wellFormed then
      sendBody protocolIndex pulseLength (widthOperand codeWidth) (loadCodes .send codes s)
    else raise .illegalCommand s)

/-- SENDB (44_session.md R113): nothing but success for an empty list (R114); otherwise the body of ENABLE, then SEND
with no overrides at width 40. Line 4, the body of DISABLE, is in `finish`, where success and failure both end. -/
def execSendb (codes : List CmdWord) (s : State) : Host.Outcome State Fault Refusal :=
  .next (if (Instr.sendb codes).wellFormed then
      (if codes = [] then respond none (dropCodes (loadCodes .sendb codes s))
       else sendBody none none (widthOperand none) (enableBody (loadCodes .sendb codes s)))
    else raise .illegalCommand s)

end Sys2Proof.Machine
end

