-- ==== Sys2Proof/Machine/Dispatch.lean ====
section
/-! DEFINITION. The dispatch: one arm per instruction, each one direct call of its meaning. -/

namespace Sys2Proof.Machine

def exec (i : Instr) (s : State) : Host.Outcome State Fault Refusal :=
  match i with
  | .enable => Sys2Proof.Machine.execEnable s
  | .disable => Sys2Proof.Machine.execDisable s
  | .send codes protocolIndex pulseLength codeWidth => Sys2Proof.Machine.execSend codes protocolIndex pulseLength codeWidth s
  | .sendb codes => Sys2Proof.Machine.execSendb codes s
  | .ph d => Sys2Proof.Machine.execPh d s
  | .pl d => Sys2Proof.Machine.execPl d s

end Sys2Proof.Machine
end

