-- ==== Sys2Proof/Machine/Step.lean ====
section
/-! DEFINITION. One step of the machine: reset if it is asserted, otherwise what `action` says, with the instruction
it names run by `exec`. -/

namespace Sys2Proof.Machine

/-- One step. `rst` acts between any two steps, also inside a hold (70_reset_and_hazards.md R151). -/
def step (s : State) : Host.Outcome State Fault Refusal :=
  if s.rstIn.headD false then .next (resetStep s)
  else
    match action (beginStep s) with
    | .run i t => exec i t
    | .outcome o => o

/-- `s` with the instruction of spec/opcode_table.json whose bits are `w` placed where the next step fetches it. -/
def State.withFetchWord (s : State) (nbits w : Nat) : State :=
  match tableCode nbits w with
  | some c => placeCode c s
  | none => s

end Sys2Proof.Machine
end

