-- ==== Sys2Proof/Machine/HostSide.lean ====
section
/-! DEFINITION. The host's side of the command channel: the text form of commands (spec/30_encoding.md R65, R66), the
contract of the device-table lookup (44_session.md R117) and the result of `sendShutterCommand` (R118). No step uses
any of it: the device code table is an external collaborator (00_scope.md R4). -/

namespace Sys2Proof.Machine

/-- The groups a lookup returns, each with its command codes (44_session.md R117). -/
abbrev Groups := List (List Char × List (List Char × CmdWord))

/-- `resolve`: the codes of one command name over the groups that `lookup` returned, in its order (44_session.md R117).
What a group without that name gives is in no source: no answer then (log 23). -/
def resolve (groups : Groups) (commandName : List Char) : Option (List CmdWord) :=
  match groups with
  | [] => some []
  | (_, m) :: rest =>
    match m.lookup commandName, resolve rest commandName with
    | some c, some cs => some (c :: cs)
    | _, _ => none

/-- The boolean result of a call: `not FAIL` (30_encoding.md R64, 44_session.md R118). -/
def callResult (r : RspWord) : Bool := !failOf r

/-- The list of characters cut at every occurrence of `c`. -/
def splitAt (c : Char) : List Char → List (List Char)
  | [] => [[]]
  | x :: xs =>
    if x = c then [] :: splitAt c xs
    else
      match splitAt c xs with
      | [] => [[x]]
      | w :: ws => (x :: w) :: ws

/-- The value of a digit in a base up to 16. -/
def digitValue (base : Nat) (c : Char) : Option Nat :=
  let n := c.toNat
  let v :=
    if 48 ≤ n ∧ n ≤ 57 then n - 48
    else if 97 ≤ n ∧ n ≤ 102 then n - 87
    else if 65 ≤ n ∧ n ≤ 70 then n - 55
    else base
  if v < base then some v else none

/-- The number that digits spell after the number `acc`. -/
def digits (base acc : Nat) : List Char → Option Nat
  | [] => some acc
  | c :: cs =>
    match digitValue base c with
    | some v => digits base (acc * base + v) cs
    | none => none

/-- A number of one digit or more. -/
def numeral (base : Nat) : List Char → Option Nat
  | [] => none
  | c :: cs => digits base 0 (c :: cs)

/-- A number: decimal, hexadecimal after `0x`, binary after `0b` (30_encoding.md R65). -/
def number : List Char → Option Nat
  | '0' :: 'x' :: ds => numeral 16 ds
  | '0' :: 'b' :: ds => numeral 2 ds
  | ds => numeral 10 ds

/-- A number that fits `n` bits. -/
def operand (n : Nat) (cs : List Char) : Option (BitVec n) :=
  match number cs with
  | some v => if v < 2 ^ n then some (BitVec.ofNat n v) else none
  | none => none

/-- What follows the prefix `key`, if the token begins with it. -/
def afterKey : List Char → List Char → Option (List Char)
  | [], cs => some cs
  | _ :: _, [] => none
  | k :: ks, c :: cs => if k = c then afterKey ks cs else none

/-- An optional item `key<n>` at the head of the tokens: omitted, it is absent (30_encoding.md R65). -/
def optItem (n : Nat) (key : List Char) : List (List Char) → Option (Option (BitVec n) × List (List Char))
  | [] => some (none, [])
  | t :: ts =>
    match afterKey key t with
    | none => some (none, t :: ts)
    | some v =>
      match operand n v with
      | some x => some (some x, ts)
      | none => none

/-- A list of codes between commas; nothing at all is the empty list (30_encoding.md R65). -/
def codeList (cs : List Char) : Option (List CmdWord) :=
  if cs = [] then some [] else (splitAt ',' cs).mapM (operand 64)

/-- The item `codes=` as the last token. -/
def codesItem : List (List Char) → Option (List CmdWord)
  | [t] => (afterKey "codes=".toList t).bind codeList
  | _ => none

/-- The operands of a SEND line, in the order of 30_encoding.md R65. -/
def sendLine (ts : List (List Char)) : Option Instr :=
  match optItem 8 "proto=".toList ts with
  | none => none
  | some (pidx, ts) =>
    match optItem 24 "plen=".toList ts with
    | none => none
    | some (plen, ts) =>
      match optItem 8 "width=".toList ts with
      | none => none
      | some (width, ts) => (codesItem ts).map fun codes => .send codes pidx plen width

/-- One line of text as an instruction; `lookup` is the device table's (44_session.md R117). `TX` and `SHUTTER` are the
pseudo-instructions of 30_encoding.md R66. -/
def parseLine (lookup : List Char → Groups) (line : List Char) : Option Instr :=
  match (splitAt ' ' line).filter (· ≠ []) with
  | [] => none
  | op :: ts =>
    if op = "ENABLE".toList ∧ ts = [] then some .enable
    else if op = "DISABLE".toList ∧ ts = [] then some .disable
    else if op = "SEND".toList then sendLine ts
    else if op = "SENDB".toList then (codesItem ts).map .sendb
    else
      match ts with
      | [t] =>
        if op = "PH".toList then (operand 32 t).map .ph
        else if op = "PL".toList then (operand 32 t).map .pl
        else if op = "TX".toList then (codeList t).map fun codes => .send codes none none none
        else none
      | [token, commandName] =>
        if op = "SHUTTER".toList then (resolve (lookup token) commandName).map .sendb else none
      | _ => none

/-- The words of one line of text. A line without an encoding, also one with more than 255 codes, has none
(93_implementation_defined.md U5). -/
def assemble (lookup : List Char → Groups) (line : List Char) : Option Code :=
  match parseLine lookup line with
  | some i => if i.wellFormed then some (encode i) else none
  | none => none

/-- The text of a level (30_encoding.md R65). -/
def levelText : Level → String
  | .low => "LOW"
  | .high => "HIGH"

/-- The text of an event (30_encoding.md R65). -/
def eventText : Event → String
  | .cfgOut => "CfgOut"
  | .cfgIn => "CfgIn"
  | .wr l d => "Wr(" ++ levelText l ++ ", " ++ toString d.toNat ++ ")"

/-- The name of an error kind (60_exceptions.md R125). -/
def errorText : ErrorKind → String
  | .unknownProtocol => "UnknownProtocol"
  | .codeTooWide => "CodeTooWide"
  | .transmitterDisabled => "TransmitterDisabled"
  | .protocolUnselected => "ProtocolUnselected"
  | .illegalCommand => "IllegalCommand"

/-- The text of a command's outcome (30_encoding.md R65). -/
def responseText : Option ErrorKind → String
  | none => "OK"
  | some e => "FAIL(" ++ errorText e ++ ")"

end Sys2Proof.Machine
end

