-- ==== Sys2Proof/Machine/Timing.lean ====
section
/-! DEFINITION. The time-domain view of a trace (spec/43_pin_driver.md R103): a function of the trace, used by no
step. -/

namespace Sys2Proof.Machine

/-- The time and the level of each `Wr` event of a transmission whose first one is written at time `t` (R103). -/
def writeTimes (t : Nat) : List Event → List (Nat × Level)
  | [] => []
  | .wr l d :: es => (t, l) :: writeTimes (t + d.toNat) es
  | .cfgOut :: es => writeTimes t es
  | .cfgIn :: es => writeTimes t es

/-- The time at which the response of the transmission is issued, when its first `Wr` is written at time `t` (R103). -/
def endTime (t : Nat) : List Event → Nat
  | [] => t
  | .wr _ d :: es => endTime (t + d.toNat) es
  | .cfgOut :: es => endTime t es
  | .cfgIn :: es => endTime t es

/-- The pin level at time `u`, from the writes `(time, level)` in order; `l` is the level before the first (R103). -/
def levelAt (u : Nat) (l : Option Level) : List (Nat × Level) → Option Level
  | [] => l
  | (t, l') :: ws => if t ≤ u then levelAt u (some l') ws else l

end Sys2Proof.Machine
end

