-- ==== Sys2Proof/Safety.lean ====
section
/-! DEFINITION. What a good state and a good run are, in the terms the statements use: the invariants of
spec/10_state.md R30, the pin replayed from its trace, and the pulses a transmission is to play. -/

namespace Sys2Proof.Machine

/-! ### The invariants of the registers -/

/-- The registers that commands set hold legal values (10_state.md R13 to R16, R18, R30). -/
structure RegsOk (s : State) : Prop where
  /-- R25 and 00_scope.md R5: what every instance satisfies -/
  params : s.params.Sound
  /-- R13: `PROTO <= NPROTO` -/
  proto_le : s.proto.toNat ≤ Config.nproto
  /-- R14: a configured pulse length is at least 1 -/
  plen_pos : s.plenv = true → 1 ≤ s.plen.toNat
  /-- R14: with none configured `PLEN` is 0 -/
  plen_zero : s.plenv = false → s.plen = 0
  /-- R15: `REPEAT` keeps the parameter's value -/
  repeat_fixed : s.repeatReg = s.params.repeatCount
  /-- R16: `1 <= CODELEN` (the upper bound is its width) -/
  codelen_pos : 1 ≤ s.codelen.toNat
  /-- R18: the code buffer has `NC` words -/
  codebuf_len : s.codebuf.length = s.nc.toNat

/-- The pin follows the session state, and an input drives nothing (10_state.md R21, R22). -/
structure PinOk (s : State) : Prop where
  /-- R22: `pin_oe = EN` -/
  oe_eq_en : s.pinOe = s.en
  /-- R21: `pin_out` is 0 whenever `pin_oe = 0` -/
  out_low : s.pinOe = false → s.pinOut = false

/-- The level that the pulse instruction of a phase writes (42_waveform.md R92). -/
def phaseLevel : Phase → Level
  | .syncH => .high
  | .bitH => .high
  | .syncL => .low
  | .syncDly => .low
  | .bitL => .low
  | .repDly => .low

/-- The level the pin has while the pulse instruction of a phase is still to be executed: the low half of a sync pulse
or of a data bit follows its high half, and every other phase follows a `PL` or nothing (42_waveform.md R92, R120). -/
def levelBefore : Phase → Level
  | .syncL => .high
  | .bitL => .high
  | .syncH => .low
  | .bitH => .low
  | .syncDly => .low
  | .repDly => .low

/-- The indices of a position are in range (10_state.md R19). -/
def PosInRange (P : Protocol) (W R N : Nat) (p : Pos) : Prop :=
  p.ci < N ∧ p.ri < R ∧
    match p.ph with
    | .syncH => p.k < P.syncCount.toNat
    | .syncL => p.k < P.syncCount.toNat
    | .syncDly => 0 < P.syncDelay.toNat ∧ p.k = 0
    | .bitH => p.k < W
    | .bitL => p.k < W
    | .repDly => p.k = 0

/-- What holds while the block plays position `p`: the protocol check has passed, the position is in range, and the pin
has the level that the stage of its pulse instruction gives (42_waveform.md R89, R92; 43_pin_driver.md R104). -/
def PlayingOk (s : State) (p : Pos) : Prop :=
  ∃ P, getProtocol s.params.table s.proto = .ok P ∧
    PosInRange P s.codelen.toNat s.repeatReg.toNat s.nc.toNat p ∧
    match s.stage with
    | .ready => s.cnt = 0 ∧ s.pinOut = (levelBefore p.ph).bit
    | .issued w =>
      s.cnt = 0 ∧ s.pinOut = (levelBefore p.ph).bit ∧
        ∃ x, designated s p = .ok x ∧ w = pulseWord x.level x.dur
    | .playing => s.pinOut = (phaseLevel p.ph).bit

/-- What holds of the sequencer and the pin by what the block is doing (10_state.md R17, R19, R30; 60_exceptions.md
R146). Outside a transmission `SEQ` is absent, `CNT` is 0 and the pin is not `HIGH`; inside one the session is Armed and
every code fits the width. -/
def ActivityOk (s : State) : Prop :=
  match s.activity with
  | .waiting => s.busy = false ∧ s.seq = none ∧ s.cnt = 0 ∧ s.stage = .ready ∧ s.pinOut = false
  | .receiving h got =>
    s.busy = true ∧ got.length < packetLength h ∧ s.seq = none ∧ s.cnt = 0 ∧ s.stage = .ready ∧ s.pinOut = false
  | .executing _ =>
    s.busy = true ∧ s.en = true ∧ (∃ bs, encodeAll s.codelen.toNat s.codebuf = .ok bs) ∧
      match s.seq with
      | none => False
      | some .done => s.stage = .ready ∧ s.cnt = 0 ∧ s.pinOut = false
      | some (.pos p) => PlayingOk s p

/-- The invariant of every reachable state (10_state.md R30). -/
structure Inv (s : State) : Prop where
  regs : RegsOk s
  pin : PinOk s
  act : ActivityOk s

/-! ### The pin, replayed from the trace -/

/-- The pin's direction and level after one event, from the operations of 43_pin_driver.md R95 and R100; `none` where
the event cannot happen: `CfgOut` on an output, `CfgIn` on an input, a write to a pin that is not driven. -/
def replayEvent (e : Event) (pin : Bool × Bool) : Option (Bool × Bool) :=
  match e, pin with
  | .cfgOut, (false, _) => some (true, false)
  | .cfgIn, (true, _) => some (false, false)
  | .wr l _, (true, _) => some (true, l.bit)
  | .cfgOut, (true, _) => none
  | .cfgIn, (false, _) => none
  | .wr _ _, (false, _) => none

/-- The pin after a list of events. -/
def replay : List Event → Bool × Bool → Option (Bool × Bool)
  | [], pin => some pin
  | e :: es, pin =>
    match replayEvent e pin with
    | none => none
    | some pin' => replay es pin'

/-- The pin is what its trace says, from reset on, and follows the session state (43_pin_driver.md R100, R105;
10_state.md R22). -/
def TraceTold (s : State) : Prop := replay s.trace (false, false) = some (s.pinOe, s.pinOut) ∧ s.pinOe = s.en

/-- The number of `Wr` events of a trace, the "pin writes" (10_state.md R27). -/
def writeCount : List Event → Nat
  | [] => 0
  | .wr _ _ :: es => writeCount es + 1
  | .cfgOut :: es => writeCount es
  | .cfgIn :: es => writeCount es

/-! ### Transmissions -/

/-- The pulses that the command in flight is to play: `sequence(P, pl, W, R, codes)` of 42_waveform.md R88 with
the registers' values (R92). -/
def plannedPulses (s : State) : List Pulse :=
  match getProtocol s.params.table s.proto, encodeAll s.codelen.toNat s.codebuf with
  | .ok P, .ok bs => pulseSequence P (effectivePulseLen s P) s.repeatReg.toNat bs
  | _, _ => []

/-- The sequencer stands at the start of a transmission (42_waveform.md R92): `SEQ = first(0)`. -/
def AtFirst (s : State) : Prop :=
  s.stage = .ready ∧
    ((s.nc = 0 ∧ s.seq = some .done) ∨
      ∃ P, getProtocol s.params.table s.proto = .ok P ∧
        s.seq = some (firstPos P s.repeatReg.toNat s.nc.toNat))

/-- The steps that a list of pulse instructions takes: each is issued, executed, held for its ticks, and left. -/
def playSteps (ps : List Pulse) : Nat := (ps.map fun p => p.dur.toNat + 3).sum

/-- What a walk of the sequencer plays from a position on, in at most `fuel` positions: the designated instructions in
order (42_waveform.md R92); `none` if it does not reach `DONE` or meets a position that designates nothing. -/
def walk (P : Protocol) (pl : BitVec 24) (W R : Nat) (codes : List (List Bool)) : Nat → SeqPos → Option (List Pulse)
  | _, .done => some []
  | 0, .pos _ => none
  | fuel + 1, .pos p =>
    match codes[p.ci]? with
    | none => none
    | some b =>
      match pulseAt P pl b p, walk P pl W R codes fuel (nextPos P W R codes.length p) with
      | some x, some xs => some (x :: xs)
      | _, _ => none

/-- No reset is asserted at any coming step. -/
abbrev NoReset (s : State) : Prop := s.rstIn = []

end Sys2Proof.Machine
end

