-- ==== Sys2Proof/Certificates/Slice0/Obligations.lean ====
section
/-! DEFINITION. The statements about the machine. A next state is written out as an update of the state before: every
field that the update does not name is unchanged, so each such equation is also the instruction's frame. Ports:
`pinWr` and `rsp` are the strobes of the step (log 6). -/

open Sys2Proof Sys2Proof.Machine

/-! ### Encoding -/

/-- Decoding what `encode` writes gives the instruction back, for every instruction and every operand that an encoding
admits (30_encoding.md R52 to R56, R60, R63). -/
def Obligations.DecodeOfEncode : Prop :=
  ∀ i : Instr, i.wellFormed = true → decode (encode i) = .ok i

/-- What decodes has exactly one encoding: no packet or pulse word but the one `encode` writes decodes to an
instruction, and only well-formed instructions are decoded (30_encoding.md R59, R61). -/
def Obligations.EncodeOfDecode : Prop :=
  ∀ (c : Code) (i : Instr), decode c = .ok i → encode i = c ∧ i.wellFormed = true

/-- The packets that decode, said of the header as a number, `w[hi:lo]` being `w / 2^lo mod 2^(hi-lo+1)`
(00_scope.md R6): the word count of R57, an opcode of R60 and a header that is well formed by R59. -/
def Obligations.PacketAcceptedExactly : Prop :=
  ∀ (h : CmdWord) (codes : List CmdWord),
    let n := h.toNat
    let opc := n / 2 ^ 56
    let pv := n / 2 ^ 55 % 2
    let lv := n / 2 ^ 54 % 2
    let wv := n / 2 ^ 53 % 2
    let pidx := n / 2 ^ 40 % 2 ^ 8
    let plength := n / 2 ^ 16 % 2 ^ 24
    let width := n / 2 ^ 8 % 2 ^ 8
    let ncodes := n % 2 ^ 8
    (∃ i, decodePacket (h :: codes) = .ok i) ↔
      (((opc = 0x01 ∨ opc = 0x02) ∧ n % 2 ^ 56 = 0 ∧ codes.length = 0) ∨
        (opc = 0x10 ∧ codes.length = ncodes ∧ n / 2 ^ 48 % 2 ^ 5 = 0 ∧ (pv = 0 → pidx = 0) ∧
          (lv = 0 → plength = 0) ∧ (lv = 1 → 1 ≤ plength) ∧ (wv = 0 → width = 0) ∧ (wv = 1 → 1 ≤ width)) ∨
        (opc = 0x11 ∧ codes.length = ncodes ∧ n / 2 ^ 8 % 2 ^ 48 = 0))

/-- The worked encodings of 30_encoding.md R67: each line of text with its words, what the words decode to, and the
illegal ones. -/
def Obligations.WorkedEncodings : Prop :=
  decode (.packet [0x0100000000000000]) = .ok .enable ∧
  decode (.packet [0x0200000000000000]) = .ok .disable ∧
  decode (.packet [0x1000000000000001, 0x0000000000000005]) = .ok (.send [5] none none none) ∧
  decode (.packet [0x1020000000000301, 0x0000000000000005]) = .ok (.send [5] none none (some 3)) ∧
  decode (.packet [0x10E0020000320402, 0x0000000000000009, 0x000000000000001F])
    = .ok (.send [9, 31] (some 2) (some 50) (some 4)) ∧
  decode (.packet [0x1080000000000000]) = .ok (.send [] (some 0) none none) ∧
  decode (.packet [0x1100000000000001, 0x0000001633BD7155]) = .ok (.sendb [95357333845]) ∧
  decode (.packet [0x1100000000000000]) = .ok (.sendb []) ∧
  (∀ lookup : List Char → Groups,
    assemble lookup "ENABLE".toList = some (.packet [0x0100000000000000]) ∧
    assemble lookup "DISABLE".toList = some (.packet [0x0200000000000000]) ∧
    assemble lookup "SEND codes=5".toList = some (.packet [0x1000000000000001, 0x0000000000000005]) ∧
    assemble lookup "SEND width=3 codes=5".toList = some (.packet [0x1020000000000301, 0x0000000000000005]) ∧
    assemble lookup "SEND proto=2 plen=50 width=4 codes=9,31".toList
      = some (.packet [0x10E0020000320402, 0x0000000000000009, 0x000000000000001F]) ∧
    assemble lookup "SEND proto=0 codes=".toList = some (.packet [0x1080000000000000]) ∧
    assemble lookup "SENDB codes=95357333845".toList = some (.packet [0x1100000000000001, 0x0000001633BD7155]) ∧
    assemble lookup "SENDB codes=".toList = some (.packet [0x1100000000000000])) ∧
  decode (.packet [0x0000000000000000]) = .error .unassignedOpcode ∧
  decode (.packet [0x0100000000000001]) = .error .mustBeZero ∧
  packetLength 0x1020000000000001 = 2 ∧
  (∀ c : CmdWord, decode (.packet [0x1020000000000001, c]) = .error .zeroWidth) ∧
  (∀ c : CmdWord, decode (.packet [0x1000000000000501, c]) = .error .fieldWithoutPresence)

/-- A pulse word is PH or PL by its bit 32 and its duration is bits 31:0; every 33-bit value is legal, and the word is
the encoding of what it decodes to (30_encoding.md R63). -/
def Obligations.PulseWordReading : Prop :=
  ∀ (w : PulseWord) (d : Dur),
    (w.toNat / 2 ^ 32 = 1 → decodePulse w = .ph (BitVec.ofNat 32 (w.toNat % 2 ^ 32))) ∧
    (w.toNat / 2 ^ 32 = 0 → decodePulse w = .pl (BitVec.ofNat 32 (w.toNat % 2 ^ 32))) ∧
    (w.toNat / 2 ^ 32 = 0 ∨ w.toNat / 2 ^ 32 = 1) ∧
    encode (.ph d) = .pulse (BitVec.ofNat 33 (2 ^ 32 + d.toNat)) ∧
    encode (.pl d) = .pulse (BitVec.ofNat 33 d.toNat)

/-- The response words and their `FAIL` and `ERR` fields (30_encoding.md R64, 60_exceptions.md R125). -/
def Obligations.ResponseWords : Prop :=
  rspWord none = 0x0 ∧ rspWord (some .unknownProtocol) = 0x9 ∧ rspWord (some .codeTooWide) = 0xA ∧
  rspWord (some .transmitterDisabled) = 0xB ∧ rspWord (some .protocolUnselected) = 0xC ∧
  rspWord (some .illegalCommand) = 0xF ∧ failOf (rspWord none) = false ∧ errOf (rspWord none) = 0 ∧
  ∀ e : ErrorKind, failOf (rspWord (some e)) = true ∧ errOf (rspWord (some e)) = errCode e

/-- The host's side of SHUTTER and TX (30_encoding.md R65, R66; 44_session.md R117, R118): `resolve` collects the codes
of the command name in the order of the groups, and answers exactly when every group has one (that it has no answer
otherwise is the model's choice, log 23); SHUTTER with any token and command name is one SENDB of them; TX and
`SEND codes=` with any text of codes are the same SEND with no overrides, whose codes are the numbers between the
commas; and the result of a call is true exactly for success. That a line is cut at its spaces, so that a token, a name
and a text of codes hold none, and that TX needs some text, is the model's choice (log 25). -/
def Obligations.ShutterIsOneSendb : Prop :=
  (∀ (groups : Groups) (name : List Char) (codes : List CmdWord),
    resolve groups name = some codes ↔ (groups.map fun g => g.2.lookup name) = codes.map some) ∧
  (∀ (lookup : List Char → Groups) (token name : List Char),
    token ≠ [] → ' ' ∉ token → name ≠ [] → ' ' ∉ name →
      parseLine lookup ("SHUTTER ".toList ++ token ++ ' ' :: name) = (resolve (lookup token) name).map .sendb) ∧
  (∀ (lookup : List Char → Groups) (text : List Char), ' ' ∉ text →
    (text ≠ [] →
      parseLine lookup ("TX ".toList ++ text) = (codeList text).map fun codes => .send codes none none none) ∧
    parseLine lookup ("SEND codes=".toList ++ text) = (codeList text).map fun codes => .send codes none none none) ∧
  (∀ (number : List Char) (numbers : List (List Char)) (codes : List CmdWord),
    number ≠ [] → (∀ t ∈ number :: numbers, ',' ∉ t) →
      (codeList (List.intercalate [','] (number :: numbers)) = some codes ↔
        (number :: numbers).map (operand 64) = codes.map some)) ∧
  codeList [] = some [] ∧
  (∀ r : Option ErrorKind, callResult (rspWord r) = true ↔ r = none)

/-! ### The protocol table, the encoder and the waveform -/

/-- GET (40_protocol_table.md R70): index 1 and index 2 give their records, every other index fails with
UnknownProtocol. -/
def Obligations.GetReadsTheTable : Prop :=
  ∀ (t : ProtoTable) (i : BitVec 8),
    (i.toNat = 0 ∨ Config.nproto < i.toNat → getProtocol t i = .error .unknownProtocol) ∧
    getProtocol t 1 = .ok t.shutter ∧ getProtocol t 2 = .ok t.garage ∧
    getProtocol t 0 = .error .unknownProtocol ∧ getProtocol t 3 = .error .unknownProtocol ∧
    getProtocol t 255 = .error .unknownProtocol

/-- `bitlen` (41_encoder.md R75): 0 for 0; otherwise the unique `L >= 1` with `2^(L-1) <= n < 2^L`; the least `L` with
`n < 2^L`; and the rule's examples. -/
def Obligations.BitlenIsNaturalLength : Prop :=
  bitlen 0 = 0 ∧
  (∀ n L : Nat, n ≠ 0 → (bitlen n = L ↔ 1 ≤ L ∧ 2 ^ (L - 1) ≤ n ∧ n < 2 ^ L)) ∧
  (∀ n L : Nat, bitlen n ≤ L ↔ n < 2 ^ L) ∧
  bitlen 1 = 1 ∧ bitlen 5 = 3 ∧ bitlen (2 ^ 40 - 1) = 40 ∧ bitlen (2 ^ 40) = 41 ∧ bitlen (2 ^ 41) = 42 ∧
  bitlen 95357333845 = 37

/-- ENCODE (41_encoder.md R76): it fails with CodeTooWide exactly when `code >= 2^width`, and otherwise gives `width`
bits of which number `i` is bit `width-1-i` of the code; with the rule's corner cases and examples. -/
def Obligations.EncodeGivesTheBits : Prop :=
  (∀ code width : Nat, 1 ≤ width →
    (2 ^ width ≤ code → encodeCode code width = .error .codeTooWide) ∧
    (code < 2 ^ width → ∃ b, encodeCode code width = .ok b ∧ b.length = width ∧
      ∀ i, i < width → b[i]? = some (code.testBit (width - 1 - i)))) ∧
  (∀ width : Nat, 1 ≤ width → encodeCode 0 width = .ok (List.replicate width false) ∧
    encodeCode (2 ^ width - 1) width = .ok (List.replicate width true) ∧
    encodeCode (2 ^ width) width = .error .codeTooWide) ∧
  (∀ (c : CmdWord) (width : Nat), 64 ≤ width → ∃ b, encodeCode c.toNat width = .ok b) ∧
  encodeCode 5 3 = .ok [true, false, true] ∧
  encodeCode 5 8 = .ok [false, false, false, false, false, true, false, true] ∧
  encodeCode 5 2 = .error .codeTooWide

/-- ENCODE loses nothing (41_encoder.md R78): the source's three tests; the length; the code is the sum of its bits'
weights; ENCODE at one width is injective; and a larger width only puts zeros in front. -/
def Obligations.EncodeLosesNothing : Prop :=
  encodeCode 0 40 = .ok (List.replicate 40 false) ∧
  encodeCode (2 ^ 40 - 1) 40 = .ok (List.replicate 40 true) ∧
  encodeCode (2 ^ 41) 40 = .error .codeTooWide ∧
  (∀ (code width : Nat) (b : List Bool), encodeCode code width = .ok b →
    b.length = width ∧
    code = ((List.range width).map fun i => (b[i]?.getD false).toNat * 2 ^ (width - 1 - i)).sum) ∧
  (∀ (c c' width : Nat) (b : List Bool), encodeCode c width = .ok b → encodeCode c' width = .ok b → c = c') ∧
  (∀ (code w w' : Nat) (b : List Bool), encodeCode code w = .ok b → w < w' →
    encodeCode code w' = .ok (List.replicate (w' - w) false ++ b))

/-- One repetition block is the four steps in order, and its length is the one of 42_waveform.md R86. -/
def Obligations.BlockShape : Prop :=
  ∀ (P : Protocol) (pl : BitVec 24) (bits : List Bool),
    block P pl bits = syncPulses P ++ syncDelay P ++ dataPulses P pl bits ++ repeatDelay P ∧
    (block P pl bits).length
      = 2 * P.syncCount.toNat + (if 0 < P.syncDelay.toNat then 1 else 0) + 2 * bits.length + 1

/-- The arithmetic of durations (42_waveform.md R94): the product of a multiplier and a pulse length is exact and at most
`255 * (2^24 - 1)`, below `2^32`; the other durations are copied from the protocol's fields. -/
def Obligations.DurationProductExact : Prop :=
  (∀ (m : BitVec 8) (pl : BitVec 24),
    (scaled m pl).toNat = m.toNat * pl.toNat ∧ m.toNat * pl.toNat ≤ 4278189825 ∧ 4278189825 < 2 ^ 32) ∧
  (∀ (P : Protocol) (p : Pulse),
    (p ∈ syncPulses P → p.dur = P.syncHigh ∨ p.dur = P.syncLow) ∧
    (p ∈ syncDelay P → p.dur = P.syncDelay) ∧
    (p ∈ repeatDelay P → p.dur = P.repeatDelay))

/-- Counts and durations (42_waveform.md R91): the duration of a block; a waveform lasts `R` of them; a SEND of these
codes emits `R` times the blocks' lengths and lasts the sum of its waveforms; and the data portion of a code has exactly
one (HIGH, LOW) pair for each bit of its zero-padded binary, with the high duration of that bit. -/
def Obligations.NominalDurations : Prop :=
  (∀ (P : Protocol) (pl : BitVec 24) (bits : List Bool),
    totalDuration (block P pl bits)
      = P.syncCount.toNat * (P.syncHigh.toNat + P.syncLow.toNat) + P.syncDelay.toNat
        + pl.toNat * (bits.count false * (P.zeroHigh.toNat + P.zeroLow.toNat)
            + bits.count true * (P.oneHigh.toNat + P.oneLow.toNat))
        + P.repeatDelay.toNat) ∧
  (∀ (P : Protocol) (pl : BitVec 24) (R : Nat) (bits : List Bool),
    totalDuration (waveform P pl R bits) = R * totalDuration (block P pl bits)) ∧
  (∀ (P : Protocol) (pl : BitVec 24) (R : Nat) (codes : List (List Bool)),
    (pulseEvents (pulseSequence P pl R codes)).length = R * (codes.map fun b => (block P pl b).length).sum ∧
    totalDuration (pulseSequence P pl R codes) = (codes.map fun b => totalDuration (waveform P pl R b)).sum) ∧
  (∀ (P : Protocol) (pl : BitVec 24) (code width : Nat) (b : List Bool), encodeCode code width = .ok b →
    (dataPulses P pl b).length = 2 * width ∧
    ∀ i, i < width →
      (dataPulses P pl b)[2 * i]?
        = some ⟨.high, scaled (if code.testBit (width - 1 - i) then P.oneHigh else P.zeroHigh) pl⟩ ∧
      (dataPulses P pl b)[2 * i + 1]?
        = some ⟨.low, scaled (if code.testBit (width - 1 - i) then P.oneLow else P.zeroLow) pl⟩)

/-- The effective pulse length is never 0 where the registers hold legal values (42_waveform.md R81). -/
def Obligations.EffectivePulseLengthPositive : Prop :=
  ∀ (s : State) (P : Protocol), RegsOk s → getProtocol s.params.table s.proto = .ok P →
    effectivePulseLen s P = (if s.plenv then s.plen else P.pulseLength) ∧ 1 ≤ (effectivePulseLen s P).toNat

/-- The sequencer of 42_waveform.md R92, walked from `first(0)`, plays exactly the list `sequence(P, pl, W, R, codes)`
of R88, where every code has `W >= 1` bits. -/
def Obligations.SequencerPlaysTheSequence : Prop :=
  ∀ (P : Protocol) (pl : BitVec 24) (W R : Nat) (codes : List (List Bool)),
    1 ≤ W → (∀ b ∈ codes, b.length = W) →
    walk P pl W R codes (pulseSequence P pl R codes).length (firstPos P R codes.length) = some (pulseSequence P pl R codes)

/-- The time-domain view (43_pin_driver.md R103): write `j` of a transmission happens at the sum of the durations before
it; the level from then until the next write is its own, and the last one's level stays; the response comes at the sum
of all. -/
def Obligations.WriteTimesAreSums : Prop :=
  ∀ (t : Nat) (ps : List Pulse),
    (writeTimes t (pulseEvents ps)).length = ps.length ∧
    (∀ (j : Nat) (p : Pulse), ps[j]? = some p →
      (writeTimes t (pulseEvents ps))[j]? = some (t + totalDuration (ps.take j), p.level) ∧
      ∀ (u : Nat) (l : Option Level), t + totalDuration (ps.take j) ≤ u →
        (u < t + totalDuration (ps.take (j + 1)) ∨ j + 1 = ps.length) →
        levelAt u l (writeTimes t (pulseEvents ps)) = some p.level) ∧
    endTime t (pulseEvents ps) = t + totalDuration ps

/-! ### The instructions -/

/-- ENABLE (44_session.md R106), in every state: from Idle the pin becomes an output with the event `CfgOut` and the
session is Armed; when already Armed nothing changes; success. -/
def Obligations.EnableArms : Prop :=
  ∀ s : State,
    exec .enable s = .next { s with
      en := true
      pinOe := if s.en then s.pinOe else true
      trace := if s.en then s.trace else s.trace ++ [.cfgOut]
      busy := false, activity := .waiting, seq := none, stage := .ready
      rsp := some 0x0, responses := s.responses ++ [0x0] }

/-- DISABLE (44_session.md R107), in every state: from Armed the pin becomes an input, not driven, with the event
`CfgIn`, and the session is Idle; when already Idle nothing changes; success. -/
def Obligations.DisableDisarms : Prop :=
  ∀ s : State,
    exec .disable s = .next { s with
      en := false
      pinOe := if s.en then false else s.pinOe
      pinOut := if s.en then false else s.pinOut
      trace := if s.en then s.trace ++ [.cfgIn] else s.trace
      busy := false, activity := .waiting, seq := none, stage := .ready
      rsp := some 0x0, responses := s.responses ++ [0x0] }

/-- SEND on operands that pass every check (44_session.md R108 lines 1 to 11, R110): in an Armed session, with a valid
protocol operand or none, codes that fit the width and, if there is a code, a selected protocol, it stores its overrides
and the width and stands at `first(0)`, before the first pulse. The spec's step that follows is stated by
`TransmissionCompletes`; that the pulses are steps of their own is the model's choice (log 5). -/
def Obligations.SendLaunches : Prop :=
  ∀ (s : State) (codes : List CmdWord) (pidx : Option (BitVec 8)) (plen : Option (BitVec 24))
    (width : Option (BitVec 8)) (bs : List (List Bool)),
    (Instr.send codes pidx plen width).wellFormed = true → s.en = true →
    (∀ i, pidx = some i → validIndex i = true) →
    encodeAll (width.getD 40).toNat codes = .ok bs →
    (codes ≠ [] → validIndex (pidx.getD s.proto) = true) →
    ∃ q, exec (.send codes pidx plen width) s = .next { s with
        proto := pidx.getD s.proto
        plenv := plen.isSome || s.plenv
        plen := plen.getD s.plen
        codelen := width.getD 40
        nc := BitVec.ofNat 8 codes.length, codebuf := codes
        busy := true, activity := .executing .send, seq := some q, stage := .ready } ∧
      (codes = [] → q = .done) ∧
      (∀ P, codes ≠ [] → getProtocol s.params.table (pidx.getD s.proto) = .ok P →
        q = firstPos P s.repeatReg.toNat codes.length)

/-- The failures of SEND that come before anything is stored (44_session.md R108 lines 1 and 3; 60_exceptions.md R126,
R128, R133): in Idle, whatever the operands, TransmitterDisabled; in an Armed session a protocol operand outside the
table, whatever the other operands, UnknownProtocol. No session register changes and no event is emitted; only the
command's own code buffer was loaded, and is dead again (log 2). -/
def Obligations.SendRefusedBeforeStoring : Prop :=
  ∀ (s : State) (codes : List CmdWord) (pidx : Option (BitVec 8)) (plen : Option (BitVec 24))
    (width : Option (BitVec 8)) (i : BitVec 8),
    (Instr.send codes pidx plen width).wellFormed = true →
    (s.en = false ∨ (pidx = some i ∧ validIndex i = false)) →
    exec (.send codes pidx plen width) s = .next { s with
      nc := BitVec.ofNat 8 codes.length, codebuf := deadCodes s.freeIdx codes.length, freeIdx := s.freeIdx + 1
      busy := false, activity := .waiting, seq := none, stage := .ready, cnt := 0
      rsp := some (if s.en then 0x9 else 0xB)
      responses := s.responses ++ [if s.en then 0x9 else 0xB] }

/-- The failures of SEND after its overrides are stored (44_session.md R108 lines 7 and 9, R110; 60_exceptions.md R127,
R129): a code that does not fit the width gives CodeTooWide; codes that fit, at least one, and no selected protocol give
ProtocolUnselected, also when `REPEAT = 0`. The overrides stay, and no event is emitted. -/
def Obligations.SendFailsAfterStoring : Prop :=
  ∀ (s : State) (codes : List CmdWord) (pidx : Option (BitVec 8)) (plen : Option (BitVec 24))
    (width : Option (BitVec 8)),
    (Instr.send codes pidx plen width).wellFormed = true → s.en = true →
    (∀ i, pidx = some i → validIndex i = true) →
    ((∃ c ∈ codes, 2 ^ (width.getD 40).toNat ≤ c.toNat) ∨
      (codes ≠ [] ∧ validIndex (pidx.getD s.proto) = false)) →
    ∃ r : RspWord,
      ((∃ c ∈ codes, 2 ^ (width.getD 40).toNat ≤ c.toNat) → r = 0xA) ∧
      ((∀ c ∈ codes, c.toNat < 2 ^ (width.getD 40).toNat) → r = 0xC) ∧
      exec (.send codes pidx plen width) s = .next { s with
        proto := pidx.getD s.proto
        plenv := plen.isSome || s.plenv
        plen := plen.getD s.plen
        codelen := width.getD 40
        nc := BitVec.ofNat 8 codes.length, codebuf := deadCodes s.freeIdx codes.length, freeIdx := s.freeIdx + 1
        busy := false, activity := .waiting, seq := none, stage := .ready, cnt := 0
        rsp := some r, responses := s.responses ++ [r] }

/-- Operands that no packet encodes (30_encoding.md R59, R61; 93_implementation_defined.md U5, U6): a SEND or SENDB of
more than 255 codes, or a SEND with a pulse length or a width that is present and 0, is IllegalCommand, in either session
state. No packet decodes to such an instruction; what `exec` does with one is the model's choice (log 10), as is what
raising an error kind does outside a command (log 18). -/
def Obligations.UnencodableOperandsAreIllegal : Prop :=
  ∀ (s : State) (codes : List CmdWord) (pidx : Option (BitVec 8)) (plen : Option (BitVec 24))
    (width : Option (BitVec 8)),
    (∀ c, s.activity ≠ .executing c) →
    (255 < codes.length ∨ plen = some 0 ∨ width = some 0 →
      exec (.send codes pidx plen width) s = .next { s with
        busy := false, activity := .waiting, seq := none, stage := .ready, cnt := 0
        rsp := some 0xF, responses := s.responses ++ [0xF] }) ∧
    (255 < codes.length →
      exec (.sendb codes) s = .next { s with
        busy := false, activity := .waiting, seq := none, stage := .ready, cnt := 0
        rsp := some 0xF, responses := s.responses ++ [0xF] })

/-- SENDB with no codes (44_session.md R114): success, no event, and no session register changes; only the in-flight
registers `NC` and `CODEBUF` hold its empty list (log 2). -/
def Obligations.SendbWithoutCodes : Prop :=
  ∀ s : State,
    exec (.sendb []) s = .next { s with
      nc := 0, codebuf := [], freeIdx := s.freeIdx + 1
      busy := false, activity := .waiting, seq := none, stage := .ready
      rsp := some 0x0, responses := s.responses ++ [0x0] }

/-- SENDB with codes that fit 40 bits and a selected protocol (44_session.md R113 lines 2 and 3, R116): it arms the
session, with `CfgOut` unless it was Armed, sets the width to 40, leaves the other session registers, and stands at
`first(0)`. -/
def Obligations.SendbLaunches : Prop :=
  ∀ (s : State) (codes : List CmdWord) (P : Protocol) (bs : List (List Bool)),
    codes ≠ [] → codes.length ≤ 255 → encodeAll 40 codes = .ok bs →
    getProtocol s.params.table s.proto = .ok P →
    exec (.sendb codes) s = .next { s with
      en := true
      pinOe := if s.en then s.pinOe else true
      trace := if s.en then s.trace else s.trace ++ [.cfgOut]
      codelen := 40
      nc := BitVec.ofNat 8 codes.length, codebuf := codes
      busy := true, activity := .executing .sendb
      seq := some (firstPos P s.repeatReg.toNat codes.length), stage := .ready }

/-- SENDB that fails (44_session.md R115): a code of `2^40` or more gives CodeTooWide; codes that fit and no selected
protocol give ProtocolUnselected. In both cases the session ends Idle with the pin an input, the trace ends with
`CfgIn`, and no pulse was executed. -/
def Obligations.SendbFailsDisarmed : Prop :=
  ∀ (s : State) (codes : List CmdWord),
    codes.length ≤ 255 →
    ((∃ c ∈ codes, 2 ^ 40 ≤ c.toNat) ∨ (codes ≠ [] ∧ validIndex s.proto = false)) →
    ∃ r : RspWord,
      ((∃ c ∈ codes, 2 ^ 40 ≤ c.toNat) → r = 0xA) ∧
      ((∀ c ∈ codes, c.toNat < 2 ^ 40) → r = 0xC) ∧
      exec (.sendb codes) s = .next { s with
        en := false, pinOe := false, pinOut := false
        trace := s.trace ++ (if s.en then [.cfgIn] else [.cfgOut, .cfgIn])
        codelen := 40
        nc := BitVec.ofNat 8 codes.length, codebuf := deadCodes s.freeIdx codes.length, freeIdx := s.freeIdx + 1
        busy := false, activity := .waiting, seq := none, stage := .ready, cnt := 0
        rsp := some r, responses := s.responses ++ [r] }

/-- PH (43_pin_driver.md R97): in an Armed session the level `HIGH` is written with its strobe and its event, and the
hold of `d` microseconds starts. -/
def Obligations.PulseHighDrives : Prop :=
  ∀ (s : State) (d : Dur), s.en = true →
    exec (.ph d) s = .next { s with
      pinOut := true, pinWr := true, trace := s.trace ++ [.wr .high d], cnt := d, stage := .playing }

/-- PL (43_pin_driver.md R99): in an Armed session the level `LOW` is written with its strobe and its event, also when
the pin is already low, and the hold of `d` microseconds starts. -/
def Obligations.PulseLowDrives : Prop :=
  ∀ (s : State) (d : Dur), s.en = true →
    exec (.pl d) s = .next { s with
      pinOut := false, pinWr := true, trace := s.trace ++ [.wr .low d], cnt := d, stage := .playing }

/-- A pulse instruction attempted while the session is Idle (43_pin_driver.md R97, R99; 60_exceptions.md R128, R136):
TransmitterDisabled before any write, in every state (also outside a command, where what raising does is the model's
choice, log 18); inside a SEND the command ends there, its code buffer is dead then (log 2), and the pin keeps its
level. -/
def Obligations.PulseRefusedWhenIdle : Prop :=
  ∀ (s : State) (d : Dur), s.en = false →
    exec (.ph d) s = .next (raise .transmitterDisabled s) ∧
    exec (.pl d) s = .next (raise .transmitterDisabled s) ∧
    (s.activity = .executing .send →
      exec (.ph d) s = .next { s with
        codebuf := deadCodes s.freeIdx s.nc.toNat, freeIdx := s.freeIdx + 1
        busy := false, activity := .waiting, seq := none, stage := .ready, cnt := 0
        rsp := some 0xB, responses := s.responses ++ [0xB] })

/-- What raising an error kind does (60_exceptions.md R134): the command stops and what it wrote stays; `SEQ` is
discarded, `CNT` becomes 0, a SENDB first performs the body of DISABLE, the response `FAIL(E)` is issued, `BUSY` becomes
0. The code buffer of a SEND or SENDB is dead then (log 2). The rule speaks of raising inside a command; what raising
does while the block waits for one is the model's choice (log 18). -/
def Obligations.RaiseEndsTheCommand : Prop :=
  ∀ (s : State) (e : ErrorKind),
    (s.activity = .executing .sendb →
      raise e s = { s with
        en := false
        pinOe := if s.en then false else s.pinOe
        pinOut := if s.en then false else s.pinOut
        trace := if s.en then s.trace ++ [.cfgIn] else s.trace
        codebuf := deadCodes s.freeIdx s.nc.toNat, freeIdx := s.freeIdx + 1
        busy := false, activity := .waiting, seq := none, stage := .ready, cnt := 0
        rsp := some (rspWord (some e)), responses := s.responses ++ [rspWord (some e)] }) ∧
    (s.activity = .executing .send →
      raise e s = { s with
        codebuf := deadCodes s.freeIdx s.nc.toNat, freeIdx := s.freeIdx + 1
        busy := false, activity := .waiting, seq := none, stage := .ready, cnt := 0
        rsp := some (rspWord (some e)), responses := s.responses ++ [rspWord (some e)] }) ∧
    ((∀ c, s.activity ≠ .executing c) →
      raise e s = { s with
        busy := false, activity := .waiting, seq := none, stage := .ready, cnt := 0
        rsp := some (rspWord (some e)), responses := s.responses ++ [rspWord (some e)] })

/-! ### The step -/

/-- A step runs the decoded packet: when the words of a packet are complete and decode to `i`, and `rst` is low, the
step is `exec i` on the state with the strobes of the step before ended and its level of `rst` used up. -/
def Obligations.StepRunsThePacket : Prop :=
  ∀ (s : State) (h : CmdWord) (codes : List CmdWord) (i : Instr),
    s.rstIn.headD false = false → s.activity = .receiving h codes → decodePacket (h :: codes) = .ok i →
    step s = exec i { s with pinWr := false, rsp := none, rstIn := s.rstIn.tail }

/-- A step runs the pulse instruction on the link to the pin driver: `exec` of what its word decodes to. -/
def Obligations.StepRunsThePulse : Prop :=
  ∀ (s : State) (c : Enclosing) (w : PulseWord),
    s.rstIn.headD false = false → s.activity = .executing c → s.stage = .issued w →
    step s = exec (decodePulse w) { s with pinWr := false, rsp := none, rstIn := s.rstIn.tail }

/-- An Illegal packet (60_exceptions.md R130): once it is wholly received, and in either session state, the response is
FAIL(IllegalCommand), no register but `BUSY` changes and no event is emitted. -/
def Obligations.IllegalPacketChangesNothing : Prop :=
  ∀ (s : State) (h : CmdWord) (codes : List CmdWord),
    s.rstIn.headD false = false → s.activity = .receiving h codes → codes.length + 1 = packetLength h →
    (∀ i, decodePacket (h :: codes) ≠ .ok i) → s.seq = none → s.stage = .ready → s.cnt = 0 →
    step s = .next { s with
      pinWr := false, rstIn := s.rstIn.tail
      busy := false, activity := .waiting
      rsp := some 0xF, responses := s.responses ++ [0xF] }

/-- The command channel (30_encoding.md R57, 10_state.md R17): the first word of a packet is taken as its header and
sets `BUSY`; further words are taken while the packet is incomplete; with no word the block waits; and none of these
steps has any other effect. -/
def Obligations.ReceptionHasNoEffect : Prop :=
  ∀ (s : State) (w : CmdWord) (rest : List CmdWord) (h : CmdWord) (got : List CmdWord),
    s.rstIn.headD false = false →
    (s.activity = .waiting → s.cmdIn = w :: rest →
      step s = .next { s with
        pinWr := false, rsp := none, rstIn := s.rstIn.tail
        busy := true, cmdIn := rest, activity := .receiving w [] }) ∧
    (s.activity = .receiving h got → got.length + 1 < packetLength h → s.cmdIn = w :: rest →
      step s = .next { s with
        pinWr := false, rsp := none, rstIn := s.rstIn.tail
        cmdIn := rest, activity := .receiving h (got ++ [w]) }) ∧
    (s.activity = .waiting ∨ (s.activity = .receiving h got ∧ got.length + 1 < packetLength h) → s.cmdIn = [] →
      step s = .next { s with pinWr := false, rsp := none, rstIn := s.rstIn.tail })

/-- The hold of a pulse instruction (43_pin_driver.md R96, R104): with `CNT = n`, `n` steps later `CNT` is 0, `n` ticks
have passed, and no other register changed, no pin operation happened and no word was taken. -/
def Obligations.HoldLastsItsTicks : Prop :=
  ∀ (s : State) (c : Enclosing),
    NoReset s → s.activity = .executing c → s.stage = .playing → s.cnt ≠ 0 →
    core.run s.cnt.toNat s = .next { s with
      cnt := 0, ticks := s.ticks + s.cnt.toNat, pinWr := false, rsp := none }

/-- A step with `rst` asserted, in every state and so also inside a packet or a hold (70_reset_and_hazards.md R150,
R151): every register has its reset value, the pin is an input, nothing that was received or was to be played is left,
no response is issued, and the trace gains `CfgIn` if the session was Armed. The words not yet taken, the observations
and the model's own counters go on (logs 2, 4, 7, 8). -/
def Obligations.ResetAbandonsEverything : Prop :=
  ∀ s : State, s.rstIn.headD false = true →
    step s = .next {
      params := s.params
      en := false, proto := s.params.defaultProto
      plenv := s.params.defaultPulseLen.isSome, plen := s.params.defaultPulseLen.getD 0
      repeatReg := s.params.repeatCount, codelen := 40, busy := false, nc := 0, codebuf := []
      seq := none, cnt := 0, pinOe := false, pinOut := false, pinWr := false, rsp := none
      activity := .waiting, stage := .ready
      cmdIn := s.cmdIn, rstIn := s.rstIn.tail
      trace := s.trace ++ (if s.en then [.cfgIn] else [])
      responses := s.responses, ticks := s.ticks, freeIdx := s.freeIdx }

/-- The state after reset (10_state.md R31), for every instance and for this hardware, and that the block then waits for
a command: a step changes nothing. -/
def Obligations.ResetValues : Prop :=
  (∀ p : Params,
    (State.init p).en = false ∧ (State.init p).pinOe = false ∧ (State.init p).pinOut = false ∧
    (State.init p).proto = p.defaultProto ∧
    (p.defaultPulseLen = none → (State.init p).plenv = false ∧ (State.init p).plen = 0) ∧
    (∀ l, p.defaultPulseLen = some l → (State.init p).plenv = true ∧ (State.init p).plen = l) ∧
    (State.init p).repeatReg = p.repeatCount ∧ (State.init p).codelen = 40 ∧ (State.init p).busy = false ∧
    (State.init p).nc = 0 ∧ (State.init p).seq = none ∧ (State.init p).cnt = 0 ∧ (State.init p).trace = [] ∧
    (State.init p).rsp = none) ∧
  State.reset = State.init Config.params ∧ State.reset.proto = 1 ∧ State.reset.plenv = false ∧
  State.reset.repeatReg = Config.repeatCount ∧ step State.reset = .next State.reset

/-! ### Invariants and whole-machine rules -/

/-- The invariant of 10_state.md R30 holds at reset. -/
def Obligations.InvAtReset : Prop := Inv State.reset

/-- Every step keeps the invariant of 10_state.md R30, with what holds of the sequencer and the pin inside a command. -/
def Obligations.StepKeepsInv : Prop := ∀ s t : State, Inv s → step s = .next t → Inv t

/-- From a state that meets the invariant a step always answers a next state: the block never stops
(70_reset_and_hazards.md R164, 30_encoding.md R61). -/
def Obligations.StepAlwaysProceeds : Prop := ∀ s : State, Inv s → ∃ t, step s = .next t

/-- The invariants of every reachable state, as 10_state.md R30 collects them, whatever words the host sends and whenever
it asserts reset. -/
def Obligations.ReachableInvariants : Prop :=
  ∀ (words : List CmdWord) (rst : List Bool) (n : Nat) (t : State),
    core.run n { State.reset with cmdIn := words, rstIn := rst } = .next t →
    t.pinOe = t.en ∧ (t.pinOe = false → t.pinOut = false) ∧ t.proto.toNat ≤ Config.nproto ∧
    (t.plenv = true → 1 ≤ t.plen.toNat) ∧ (t.plenv = false → t.plen = 0) ∧
    1 ≤ t.codelen.toNat ∧ t.codelen.toNat ≤ 255 ∧ t.repeatReg = Config.repeatCount ∧
    (t.busy = false → t.seq = none ∧ t.cnt = 0)

/-- The transmitter is never left keyed (60_exceptions.md R146): in every reachable state in which no command is in
flight the pin does not drive `HIGH`, and in every reachable state it is driven only in an Armed session. -/
def Obligations.NeverKeyedBetweenCommands : Prop :=
  ∀ (words : List CmdWord) (rst : List Bool) (n : Nat) (t : State),
    core.run n { State.reset with cmdIn := words, rstIn := rst } = .next t →
    (t.busy = false → t.pinOut = false) ∧ (t.en = false → t.pinOe = false ∧ t.pinOut = false)

/-- The pin is what its trace says: every step keeps that the trace, replayed from an input pin by the three pin
operations, gives the pin's direction and level, and that the direction follows the session state. So `CfgOut` and
`CfgIn` alternate, starting with `CfgOut`, and every write falls between them (43_pin_driver.md R100, R105). -/
def Obligations.StepKeepsTraceTold : Prop := ∀ s t : State, TraceTold s → step s = .next t → TraceTold t

/-- The trace of the reset state, which is empty, tells its pin. -/
def Obligations.TraceToldAtReset : Prop := TraceTold State.reset

/-- Nothing is taken back: every step leaves the trace and the responses as they were or appends to them (20_memory.md
R40, R43). -/
def Obligations.ObservationsOnlyGrow : Prop :=
  ∀ s t : State, step s = .next t →
    (∃ es, t.trace = s.trace ++ es ∧ es.length ≤ 2) ∧ (∃ rs, t.responses = s.responses ++ rs ∧ rs.length ≤ 1)

/-- One response for each command, and none without one (30_encoding.md R64, 10_state.md R17): a step that issues a
response ends a command in flight, the response is one of the six legal words, and a command that ends without reset
issues one. -/
def Obligations.OneResponsePerCommand : Prop :=
  ∀ s t : State, Inv s → step s = .next t →
    (t.responses ≠ s.responses → s.busy = true ∧ t.busy = false ∧
      ∃ r ∈ ([0x0, 0x9, 0xA, 0xB, 0xC, 0xF] : List RspWord), t.responses = s.responses ++ [r] ∧ t.rsp = some r) ∧
    (s.rstIn.headD false = false → s.busy = true → t.busy = false → t.responses ≠ s.responses)

/-- Errors are precise with respect to the pin (60_exceptions.md R135): the step that issues a failing response is the
one that runs the packet, so its command has executed no pulse; a failed SEND has emitted no event, and a failed SENDB
only `CfgOut`, if it started Idle, and `CfgIn`. -/
def Obligations.ErrorsArePrecise : Prop :=
  ∀ (s t : State) (r : RspWord), Inv s → step s = .next t → t.responses = s.responses ++ [r] → failOf r = true →
    ∃ h codes, s.activity = .receiving h codes ∧ codes.length + 1 = packetLength h ∧
      (t.trace = s.trace ∨
        ((∃ cs, decodePacket (h :: codes) = .ok (.sendb cs)) ∧
          t.trace = s.trace ++ (if s.en then [.cfgIn] else [.cfgOut, .cfgIn])))

/-- The session state changes only by ENABLE, DISABLE, SENDB and reset (44_session.md R109): a step that changes `EN`
has reset asserted, or runs one of the three, or is inside a SENDB. -/
def Obligations.OnlyTheseChangeTheSession : Prop :=
  ∀ s t : State, step s = .next t → t.en ≠ s.en →
    s.rstIn.headD false = true ∨
    (∃ h codes, s.activity = .receiving h codes ∧
      (decodePacket (h :: codes) = .ok .enable ∨ decodePacket (h :: codes) = .ok .disable ∨
        ∃ cs, decodePacket (h :: codes) = .ok (.sendb cs))) ∨
    s.activity = .executing .sendb

/-- The pin is written only by a pulse instruction: the strobe `pin_wr` is up after a step only if the step ran one, and
then the trace gained exactly its event and the pin has its level (43_pin_driver.md R95, R105). -/
def Obligations.OnlyPulsesWriteThePin : Prop :=
  ∀ s t : State, step s = .next t →
    (t.pinWr = true → ∃ c w l d, s.activity = .executing c ∧ s.stage = .issued w ∧ w = pulseWord l d ∧
      t.trace = s.trace ++ [.wr l d] ∧ t.pinOut = l.bit) ∧
    (t.pinWr = false → writeCount t.trace = writeCount s.trace)

/-- What no command writes (10_state.md R15, 40_protocol_table.md R73): no step changes the parameters, the protocol
table among them; no step without reset changes `REPEAT`; and `PROTO` changes only to a valid index that a SEND gives. -/
def Obligations.TableAndRepeatNeverWritten : Prop :=
  ∀ s t : State, step s = .next t →
    t.params = s.params ∧
    (s.rstIn.headD false = false → t.repeatReg = s.repeatReg) ∧
    (s.rstIn.headD false = false → t.proto ≠ s.proto →
      ∃ h codes cs i plen width, s.activity = .receiving h codes ∧
        decodePacket (h :: codes) = .ok (.send cs (some i) plen width) ∧ t.proto = i ∧ validIndex i = true)

/-- The code buffer and its count are dead between commands (10_state.md R18 of both; 93_implementation_defined.md U8
of `CODEBUF` alone): outside a transmission the contents of `CODEBUF` and of `NC` make no difference to what a step
does, and they are either overwritten or carried along (that they are carried along is the model's choice, log 2). -/
def Obligations.CodeBufferUnread : Prop :=
  ∀ (s : State) (n : BitVec 8) (buf : List CmdWord), (∀ c, s.activity ≠ .executing c) →
    step { s with nc := n, codebuf := buf } = step s ∨
    ∃ t, step s = .next t ∧ step { s with nc := n, codebuf := buf } = .next { t with nc := n, codebuf := buf }

/-! ### Transmissions from end to end -/

/-- A transmission, once launched, plays exactly its planned pulses and completes (42_waveform.md R92, 44_session.md
R108 lines 12 to 14, R113 line 4): from `first(0)`, with no reset, after the steps of the planned pulses and one more,
the trace has gained exactly their `Wr` events, and `CfgIn` at the end of a SENDB; the response is success; the ticks
spent are the sum of the durations; a SEND leaves the session Armed, a SENDB Idle; the pin is not `HIGH`; `CODEBUF`
holds dead values, fresh ones by the counter `freeIdx`, which goes up by one, and `NC` stays (the model's choice, log 2);
and beside all these nothing has changed. How many steps it takes is the model's choice (log 5). -/
def Obligations.TransmissionCompletes : Prop :=
  ∀ (s : State) (c : Enclosing), Inv s → NoReset s → s.activity = .executing c → AtFirst s →
    core.run (playSteps (plannedPulses s) + 1) s = .next { s with
      en := decide (c = .send), pinOe := decide (c = .send), pinOut := false, pinWr := false
      trace := s.trace ++ pulseEvents (plannedPulses s) ++ (if c = .sendb then [.cfgIn] else [])
      ticks := s.ticks + totalDuration (plannedPulses s)
      codebuf := deadCodes s.freeIdx s.nc.toNat, freeIdx := s.freeIdx + 1
      busy := false, activity := .waiting, seq := none, stage := .ready, cnt := 0
      rsp := some 0x0, responses := s.responses ++ [0x0] }

/-- SEND from its complete packet to its response (44_session.md R108, R110, R120; 42_waveform.md R81, R88): in an Armed
session with a valid protocol and codes that fit, the `Wr` events are exactly those of `sequence(P, pl, W, R, codes)`
with the effective pulse length (operand, else configured, else the protocol's), the overrides and the width stay, the
session is still Armed with the pin low, and the response is success. After it `NC` still holds the number of the codes,
`CODEBUF` holds dead values and `freeIdx` has gone up by one (the model's choice, log 2); how many steps it takes is the
model's choice (log 5). -/
def Obligations.SendPlaysItsSequence : Prop :=
  ∀ (s : State) (h : CmdWord) (words codes : List CmdWord) (pidx : Option (BitVec 8)) (plen : Option (BitVec 24))
    (width : Option (BitVec 8)) (P : Protocol) (bs : List (List Bool)),
    Inv s → NoReset s → s.en = true → s.activity = .receiving h words →
    decodePacket (h :: words) = .ok (.send codes pidx plen width) →
    getProtocol s.params.table (pidx.getD s.proto) = .ok P →
    encodeAll (width.getD 40).toNat codes = .ok bs →
    let pl := plen.getD (if s.plenv then s.plen else P.pulseLength)
    let ps := pulseSequence P pl s.repeatReg.toNat bs
    core.run (playSteps ps + 2) s = .next { s with
      proto := pidx.getD s.proto
      plenv := plen.isSome || s.plenv
      plen := plen.getD s.plen
      codelen := width.getD 40
      trace := s.trace ++ pulseEvents ps
      ticks := s.ticks + totalDuration ps
      nc := BitVec.ofNat 8 codes.length, codebuf := deadCodes s.freeIdx codes.length, freeIdx := s.freeIdx + 1
      pinOut := false, pinWr := false
      busy := false, activity := .waiting, seq := none, stage := .ready, cnt := 0
      rsp := some 0x0, responses := s.responses ++ [0x0] }

/-- SENDB from its complete packet to its response (44_session.md R113, R116): from Idle or Armed, all its codes go out
in one bracket at width 40 with the session's protocol and pulse length: `CfgOut` if the session was Idle, the `Wr`
events of `sequence`, `CfgIn`; it ends Idle with the pin an input, and the response is success. After it `NC` still
holds the number of the codes, `CODEBUF` holds dead values and `freeIdx` has gone up by one (the model's choice, log 2);
how many steps it takes is the model's choice (log 5). -/
def Obligations.SendbPlaysInOneBracket : Prop :=
  ∀ (s : State) (h : CmdWord) (words codes : List CmdWord) (P : Protocol) (bs : List (List Bool)),
    Inv s → NoReset s → s.activity = .receiving h words →
    decodePacket (h :: words) = .ok (.sendb codes) → codes ≠ [] →
    getProtocol s.params.table s.proto = .ok P →
    encodeAll 40 codes = .ok bs →
    let ps := pulseSequence P (if s.plenv then s.plen else P.pulseLength) s.repeatReg.toNat bs
    core.run (playSteps ps + 2) s = .next { s with
      en := false, pinOe := false, pinOut := false, pinWr := false
      codelen := 40
      trace := s.trace ++ (if s.en then [] else [.cfgOut]) ++ pulseEvents ps ++ [.cfgIn]
      ticks := s.ticks + totalDuration ps
      nc := BitVec.ofNat 8 codes.length, codebuf := deadCodes s.freeIdx codes.length, freeIdx := s.freeIdx + 1
      busy := false, activity := .waiting, seq := none, stage := .ready, cnt := 0
      rsp := some 0x0, responses := s.responses ++ [0x0] }

/-- Every command responds (70_reset_and_hazards.md R164): from a state that meets the invariant with a command's packet
complete or its transmission under way, and no reset, some number of steps ends it with exactly one response. -/
def Obligations.EveryCommandResponds : Prop :=
  ∀ s : State, Inv s → NoReset s → s.busy = true → cmdReady s = false →
    ∃ n t r, core.run n s = .next t ∧ t.busy = false ∧ t.responses = s.responses ++ [r] ∧ t.cmdIn = s.cmdIn
end

