-- ==== Sys2Proof/Laws/Encoder.lean ====
section
/-! SUPPORT. What ENCODE answers, said once: which codes and widths it takes and the bits it gives. -/

namespace Sys2Proof.Machine

/-- A natural length is at most `L` exactly when the number is below `2^L`. -/
theorem bitlen_le_iff_lt (n L : Nat) : bitlen n ≤ L ↔ n < 2 ^ L := by
  unfold bitlen
  split
  · rename_i h; subst h; simp
  · rename_i h
    have := Nat.log2_lt (n := n) (k := L) h
    omega

/-- A bit of an encoding is a bit of the code. -/
theorem codeBit_eq_testBit (code width i : Nat) : codeBit code width i = code.testBit (width - 1 - i) := by
  rw [codeBit, Nat.testBit_eq_decide_div_mod_eq]
  simp [beq_eq_decide]

/-- ENCODE succeeds exactly on a width of at least 1 and a code that fits it, and its bits are the code's. -/
theorem encodeCode_ok_iff (code width : Nat) (b : List Bool) :
    encodeCode code width = .ok b ↔
      1 ≤ width ∧ code < 2 ^ width ∧ b = (List.range width).map fun i => code.testBit (width - 1 - i) := by
  have hb : codeBit code width = fun i => code.testBit (width - 1 - i) := funext (codeBit_eq_testBit code width)
  unfold encodeCode
  split
  · simp; omega
  · split
    · have := (bitlen_le_iff_lt code width).not.mp (by omega)
      simp; omega
    · have := (bitlen_le_iff_lt code width).mp (by omega)
      simp only [Except.ok.injEq, hb]
      constructor
      · rintro rfl; exact ⟨by omega, this, rfl⟩
      · rintro ⟨_, _, rfl⟩; rfl

/-- ENCODE fails with CodeTooWide exactly on a width of at least 1 and a code that does not fit it. -/
theorem encodeCode_tooWide_iff (code width : Nat) :
    encodeCode code width = .error .codeTooWide ↔ 1 ≤ width ∧ 2 ^ width ≤ code := by
  have := bitlen_le_iff_lt code width
  unfold encodeCode
  split
  · simp; omega
  · split
    · simp; omega
    · simp; omega

/-- The encoding has as many bits as the width. -/
theorem encodeCode_length {code width : Nat} {b : List Bool} (h : encodeCode code width = .ok b) :
    b.length = width := by
  obtain ⟨_, _, rfl⟩ := (encodeCode_ok_iff code width b).mp h
  simp

/-- Bit `i` of the encoding, from the left. -/
theorem encodeCode_getElem {code width : Nat} {b : List Bool} (h : encodeCode code width = .ok b) {i : Nat}
    (hi : i < width) : b[i]? = some (code.testBit (width - 1 - i)) := by
  obtain ⟨_, _, rfl⟩ := (encodeCode_ok_iff code width b).mp h
  simp [hi]

/-- Line 7 of SEND, one code at a time. -/
theorem encodeAll_cons_ok {width : Nat} {c : CmdWord} {cs : List CmdWord} {bs : List (List Bool)}
    (h : encodeAll width (c :: cs) = .ok bs) :
    ∃ b bs', encodeCode c.toNat width = .ok b ∧ encodeAll width cs = .ok bs' ∧ bs = b :: bs' := by
  unfold encodeAll at h
  split at h
  · cases h
  · rename_i b hb
    split at h
    · cases h
    · rename_i bs' hbs
      cases h
      exact ⟨b, bs', hb, hbs, rfl⟩

/-- Encoding a list of codes gives one encoding for each. -/
theorem encodeAll_length {width : Nat} : ∀ {cs : List CmdWord} {bs : List (List Bool)},
    encodeAll width cs = .ok bs → bs.length = cs.length
  | [], bs, h => by cases h; rfl
  | c :: cs, bs, h => by
    obtain ⟨b, bs', _, h', rfl⟩ := encodeAll_cons_ok h
    simp [encodeAll_length h']

/-- The encoding at an index is the encoding of the code at that index. -/
theorem encodeAll_getElem {width : Nat} {c : CmdWord} : ∀ (cs : List CmdWord) (bs : List (List Bool)) (i : Nat),
    encodeAll width cs = .ok bs → cs[i]? = some c →
      ∃ b, bs[i]? = some b ∧ encodeCode c.toNat width = .ok b
  | [], _, _, _, hc => by simp at hc
  | c' :: cs, bs, i, h, hc => by
    obtain ⟨b, bs', hb, h', rfl⟩ := encodeAll_cons_ok h
    cases i with
    | zero => simp at hc; subst hc; exact ⟨b, rfl, hb⟩
    | succ i => simpa using encodeAll_getElem cs bs' i h' (by simpa using hc)

/-- Every encoding of a list has the width's number of bits. -/
theorem encodeAll_widths {width : Nat} {cs : List CmdWord} {bs : List (List Bool)}
    (h : encodeAll width cs = .ok bs) : ∀ b ∈ bs, b.length = width := by
  intro b hb
  obtain ⟨i, hi, rfl⟩ := List.getElem_of_mem hb
  have hlen := encodeAll_length h
  obtain ⟨b', hb', henc⟩ := encodeAll_getElem _ _ i h (List.getElem?_eq_getElem (hlen ▸ hi))
  rw [List.getElem?_eq_getElem hi] at hb'
  cases hb'
  exact encodeCode_length henc

/-- Line 7 of SEND succeeds exactly when every code fits the width. -/
theorem encodeAll_isOk_iff {width : Nat} (hw : 1 ≤ width) : ∀ cs : List CmdWord,
    (∃ bs, encodeAll width cs = .ok bs) ↔ ∀ c ∈ cs, c.toNat < 2 ^ width
  | [] => by simp [encodeAll]
  | c :: cs => by
    have ih := encodeAll_isOk_iff hw cs
    constructor
    · rintro ⟨bs, h⟩
      obtain ⟨b, bs', hb, h', rfl⟩ := encodeAll_cons_ok h
      have := (encodeCode_ok_iff _ _ _).mp hb
      simpa [this.2.1] using ih.mp ⟨bs', h'⟩
    · intro h
      simp only [List.mem_cons, forall_eq_or_imp] at h
      obtain ⟨bs', h'⟩ := ih.mpr h.2
      have hb := (encodeCode_ok_iff c.toNat width _).mpr ⟨hw, h.1, rfl⟩
      exact ⟨_, by rw [encodeAll, hb, h']⟩

/-- Line 7 of SEND fails with CodeTooWide and nothing else, exactly when some code does not fit the width. -/
theorem encodeAll_error_iff {width : Nat} (hw : 1 ≤ width) : ∀ (cs : List CmdWord) (e : ErrorKind),
    encodeAll width cs = .error e ↔ e = .codeTooWide ∧ ∃ c ∈ cs, 2 ^ width ≤ c.toNat
  | [], e => by simp [encodeAll]
  | c :: cs, e => by
    have ih := encodeAll_error_iff hw cs e
    unfold encodeAll
    by_cases hc : c.toNat < 2 ^ width
    · rw [(encodeCode_ok_iff c.toNat width _).mpr ⟨hw, hc, rfl⟩]
      rcases h : encodeAll width cs with e' | bs
      · have := ih.symm.trans (by rw [h])
        simp only [Except.error.injEq] at this ⊢
        rw [← this]
        simp [hc]
      · have hno := (encodeAll_isOk_iff hw cs).mp ⟨bs, h⟩
        simp only [reduceCtorEq, List.mem_cons, exists_eq_or_imp, false_iff, not_and, not_or, not_exists, not_le]
        exact fun _ => ⟨hc, fun x hx => hno x hx⟩
    · have htw := (encodeCode_tooWide_iff c.toNat width).mpr ⟨hw, by omega⟩
      rw [htw]
      simp only [Except.error.injEq, List.mem_cons, exists_eq_or_imp]
      constructor
      · rintro rfl; exact ⟨rfl, .inl (by omega)⟩
      · rintro ⟨rfl, _⟩; rfl

end Sys2Proof.Machine
end

