-- ==== Sys2Proof/Laws/Encoding.lean ====
section
/-! SUPPORT. The fields of a header and of a pulse word as numbers, and the headers that `encode` writes as numbers: with
these, a fact about an encoding is linear arithmetic. -/

namespace Sys2Proof

/-- Putting one bit vector in front of another, as numbers. -/
theorem toNat_append_eq {m n : Nat} (x : BitVec m) (y : BitVec n) :
    (x ++ y).toNat = x.toNat * 2 ^ n + y.toNat := by
  rw [BitVec.toNat_append, ← Nat.shiftLeft_add_eq_or_of_lt y.isLt, Nat.shiftLeft_eq]

/-- A field of a word as a number (00_scope.md R6). -/
theorem toNat_field {n : Nat} (w : BitVec n) (lo len : Nat) :
    (w.extractLsb' lo len).toNat = w.toNat / 2 ^ lo % 2 ^ len := by
  simp [Nat.shiftRight_eq_div_pow]

/-- A bit of a word as a number (00_scope.md R6). -/
theorem bit_eq {n : Nat} (w : BitVec n) (i : Nat) : w.getLsbD i = decide (w.toNat / 2 ^ i % 2 = 1) := by
  simp [BitVec.getLsbD, Nat.testBit_eq_decide_div_mod_eq]

theorem opcOf_toNat (h : CmdWord) : (opcOf h).toNat = h.toNat / 2 ^ 56 := by
  have := h.isLt
  rw [opcOf, toNat_field]; omega
theorem pvOf_eq (h : CmdWord) : pvOf h = decide (h.toNat / 2 ^ 55 % 2 = 1) := bit_eq h 55
theorem lvOf_eq (h : CmdWord) : lvOf h = decide (h.toNat / 2 ^ 54 % 2 = 1) := bit_eq h 54
theorem wvOf_eq (h : CmdWord) : wvOf h = decide (h.toNat / 2 ^ 53 % 2 = 1) := bit_eq h 53
theorem zeroSOf_toNat (h : CmdWord) : (zeroSOf h).toNat = h.toNat / 2 ^ 48 % 2 ^ 5 := toNat_field h 48 5
theorem pidxOf_toNat (h : CmdWord) : (pidxOf h).toNat = h.toNat / 2 ^ 40 % 2 ^ 8 := toNat_field h 40 8
theorem plengthOf_toNat (h : CmdWord) : (plengthOf h).toNat = h.toNat / 2 ^ 16 % 2 ^ 24 := toNat_field h 16 24
theorem widthOf_toNat (h : CmdWord) : (widthOf h).toNat = h.toNat / 2 ^ 8 % 2 ^ 8 := toNat_field h 8 8
theorem ncodesOf_toNat (h : CmdWord) : (ncodesOf h).toNat = h.toNat % 2 ^ 8 := by
  rw [ncodesOf, toNat_field]; omega
theorem zeroNOf_toNat (h : CmdWord) : (zeroNOf h).toNat = h.toNat % 2 ^ 56 := by
  rw [zeroNOf, toNat_field]; omega
theorem zeroBOf_toNat (h : CmdWord) : (zeroBOf h).toNat = h.toNat / 2 ^ 8 % 2 ^ 48 := toNat_field h 8 48
theorem durOf_toNat (w : PulseWord) : (durOf w).toNat = w.toNat % 2 ^ 32 := by
  rw [durOf, toNat_field]; omega
theorem lvlOf_eq (w : PulseWord) : lvlOf w = decide (w.toNat / 2 ^ 32 % 2 = 1) := bit_eq w 32

/-- A field is 0 exactly when its number is. -/
theorem eq_zero_iff_toNat {n : Nat} (x : BitVec n) : x = 0 ↔ x.toNat = 0 := by
  simp [BitVec.toNat_eq]

/-- The presence bit of an operand as a number. -/
theorem presence_toNat {n : Nat} (v : Option (BitVec n)) : (presence v).toNat = v.isSome.toNat := by
  simp [presence]

theorem headerN_toNat (opc : BitVec 8) : (headerN opc).toNat = opc.toNat * 2 ^ 56 :=
  (toNat_append_eq opc (0 : BitVec 56)).trans (by simp)

theorem headerB_toNat (n : BitVec 8) : (headerB n).toNat = 0x11 * 2 ^ 56 + n.toNat :=
  (toNat_append_eq (opcSendb ++ (0 : BitVec 48)) n).trans (by rw [toNat_append_eq]; simp [opcSendb])

/-- A format S header as a number: each field at the place that 30_encoding.md R53 gives it. -/
theorem headerS_toNat (pidx : Option (BitVec 8)) (plen : Option (BitVec 24)) (width : Option (BitVec 8))
    (n : BitVec 8) :
    (headerS pidx plen width n).toNat
      = 0x10 * 2 ^ 56 + pidx.isSome.toNat * 2 ^ 55 + plen.isSome.toNat * 2 ^ 54 + width.isSome.toNat * 2 ^ 53
        + (pidx.getD 0).toNat * 2 ^ 40 + (plen.getD 0).toNat * 2 ^ 16 + (width.getD 0).toNat * 2 ^ 8 + n.toNat := by
  have h := toNat_append_eq (opcSend ++ presence pidx ++ presence plen ++ presence width ++ (0 : BitVec 5)
    ++ pidx.getD 0 ++ plen.getD 0 ++ width.getD 0) n
  refine Eq.trans h ?_
  simp only [toNat_append_eq, presence_toNat]
  have hopc : opcSend.toNat = 0x10 := rfl
  have hzero : (0 : BitVec 5).toNat = 0 := rfl
  omega

theorem pulseWord_toNat (l : Level) (d : Dur) : (pulseWord l d).toNat = l.bit.toNat * 2 ^ 32 + d.toNat :=
  (toNat_append_eq (BitVec.ofBool l.bit) d).trans (by simp)

/-- A pulse word has one level and one duration. -/
theorem pulseWord_inj {l l' : Level} {d d' : Dur} (h : pulseWord l d = pulseWord l' d') : l = l' ∧ d = d' := by
  have h := congrArg BitVec.toNat h
  have h1 := d.isLt
  have h2 := d'.isLt
  rw [pulseWord_toNat, pulseWord_toNat] at h
  cases l <;> cases l' <;> simp only [Level.bit, Bool.toNat_true, Bool.toNat_false] at h <;>
    first
    | omega
    | exact ⟨rfl, BitVec.eq_of_toNat_eq (by omega)⟩

end Sys2Proof
end

