-- ==== Sys2Proof/Laws/HostSide.lean ====
section
/-! SUPPORT. Cutting a text at a character, said once: the pieces of texts joined by it are those texts again. -/

namespace Sys2Proof.Machine

/-- A text without the character is one piece. -/
theorem splitAt_of_not_mem {c : Char} {w : List Char} (h : c ∉ w) : splitAt c w = [w] := by
  induction w with
  | nil => rfl
  | cons x xs ih =>
    simp only [List.mem_cons, not_or] at h
    simp [splitAt, ih h.2, Ne.symm h.1]

/-- What stands before the first occurrence of the character is the first piece. -/
theorem splitAt_append_cons {c : Char} {w : List Char} (h : c ∉ w) (rest : List Char) :
    splitAt c (w ++ c :: rest) = w :: splitAt c rest := by
  induction w with
  | nil => simp [splitAt]
  | cons x xs ih =>
    simp only [List.mem_cons, not_or] at h
    simp [splitAt, ih h.2, Ne.symm h.1]

end Sys2Proof.Machine
end

