-- ==== Sys2Proof/Laws/State.lean ====
section
/-! SUPPORT. One lemma per field per update of the state: what each operation of Machine/Ops.lean that is one record
update leaves in every field. -/

namespace Sys2Proof.Machine

/-! ### emit -/

@[simp] theorem emit_params (e : Event) (s : State) : (emit e s).params = s.params := rfl
@[simp] theorem emit_en (e : Event) (s : State) : (emit e s).en = s.en := rfl
@[simp] theorem emit_proto (e : Event) (s : State) : (emit e s).proto = s.proto := rfl
@[simp] theorem emit_plenv (e : Event) (s : State) : (emit e s).plenv = s.plenv := rfl
@[simp] theorem emit_plen (e : Event) (s : State) : (emit e s).plen = s.plen := rfl
@[simp] theorem emit_repeatReg (e : Event) (s : State) : (emit e s).repeatReg = s.repeatReg := rfl
@[simp] theorem emit_codelen (e : Event) (s : State) : (emit e s).codelen = s.codelen := rfl
@[simp] theorem emit_busy (e : Event) (s : State) : (emit e s).busy = s.busy := rfl
@[simp] theorem emit_nc (e : Event) (s : State) : (emit e s).nc = s.nc := rfl
@[simp] theorem emit_codebuf (e : Event) (s : State) : (emit e s).codebuf = s.codebuf := rfl
@[simp] theorem emit_seq (e : Event) (s : State) : (emit e s).seq = s.seq := rfl
@[simp] theorem emit_cnt (e : Event) (s : State) : (emit e s).cnt = s.cnt := rfl
@[simp] theorem emit_pinOe (e : Event) (s : State) : (emit e s).pinOe = s.pinOe := rfl
@[simp] theorem emit_pinOut (e : Event) (s : State) : (emit e s).pinOut = s.pinOut := rfl
@[simp] theorem emit_pinWr (e : Event) (s : State) : (emit e s).pinWr = s.pinWr := rfl
@[simp] theorem emit_rsp (e : Event) (s : State) : (emit e s).rsp = s.rsp := rfl
@[simp] theorem emit_cmdIn (e : Event) (s : State) : (emit e s).cmdIn = s.cmdIn := rfl
@[simp] theorem emit_rstIn (e : Event) (s : State) : (emit e s).rstIn = s.rstIn := rfl
@[simp] theorem emit_activity (e : Event) (s : State) : (emit e s).activity = s.activity := rfl
@[simp] theorem emit_stage (e : Event) (s : State) : (emit e s).stage = s.stage := rfl
@[simp] theorem emit_trace (e : Event) (s : State) : (emit e s).trace = s.trace ++ [e] := rfl
@[simp] theorem emit_responses (e : Event) (s : State) : (emit e s).responses = s.responses := rfl
@[simp] theorem emit_ticks (e : Event) (s : State) : (emit e s).ticks = s.ticks := rfl
@[simp] theorem emit_freeIdx (e : Event) (s : State) : (emit e s).freeIdx = s.freeIdx := rfl

/-! ### setLevel -/

@[simp] theorem setLevel_params (l : Level) (s : State) : (setLevel l s).params = s.params := rfl
@[simp] theorem setLevel_en (l : Level) (s : State) : (setLevel l s).en = s.en := rfl
@[simp] theorem setLevel_proto (l : Level) (s : State) : (setLevel l s).proto = s.proto := rfl
@[simp] theorem setLevel_plenv (l : Level) (s : State) : (setLevel l s).plenv = s.plenv := rfl
@[simp] theorem setLevel_plen (l : Level) (s : State) : (setLevel l s).plen = s.plen := rfl
@[simp] theorem setLevel_repeatReg (l : Level) (s : State) : (setLevel l s).repeatReg = s.repeatReg := rfl
@[simp] theorem setLevel_codelen (l : Level) (s : State) : (setLevel l s).codelen = s.codelen := rfl
@[simp] theorem setLevel_busy (l : Level) (s : State) : (setLevel l s).busy = s.busy := rfl
@[simp] theorem setLevel_nc (l : Level) (s : State) : (setLevel l s).nc = s.nc := rfl
@[simp] theorem setLevel_codebuf (l : Level) (s : State) : (setLevel l s).codebuf = s.codebuf := rfl
@[simp] theorem setLevel_seq (l : Level) (s : State) : (setLevel l s).seq = s.seq := rfl
@[simp] theorem setLevel_cnt (l : Level) (s : State) : (setLevel l s).cnt = s.cnt := rfl
@[simp] theorem setLevel_pinOe (l : Level) (s : State) : (setLevel l s).pinOe = s.pinOe := rfl
@[simp] theorem setLevel_pinOut (l : Level) (s : State) : (setLevel l s).pinOut = l.bit := rfl
@[simp] theorem setLevel_pinWr (l : Level) (s : State) : (setLevel l s).pinWr = true := rfl
@[simp] theorem setLevel_rsp (l : Level) (s : State) : (setLevel l s).rsp = s.rsp := rfl
@[simp] theorem setLevel_cmdIn (l : Level) (s : State) : (setLevel l s).cmdIn = s.cmdIn := rfl
@[simp] theorem setLevel_rstIn (l : Level) (s : State) : (setLevel l s).rstIn = s.rstIn := rfl
@[simp] theorem setLevel_activity (l : Level) (s : State) : (setLevel l s).activity = s.activity := rfl
@[simp] theorem setLevel_stage (l : Level) (s : State) : (setLevel l s).stage = s.stage := rfl
@[simp] theorem setLevel_trace (l : Level) (s : State) : (setLevel l s).trace = s.trace := rfl
@[simp] theorem setLevel_responses (l : Level) (s : State) : (setLevel l s).responses = s.responses := rfl
@[simp] theorem setLevel_ticks (l : Level) (s : State) : (setLevel l s).ticks = s.ticks := rfl
@[simp] theorem setLevel_freeIdx (l : Level) (s : State) : (setLevel l s).freeIdx = s.freeIdx := rfl

/-! ### sleepMicros -/

@[simp] theorem sleepMicros_params (n : Dur) (s : State) : (sleepMicros n s).params = s.params := rfl
@[simp] theorem sleepMicros_en (n : Dur) (s : State) : (sleepMicros n s).en = s.en := rfl
@[simp] theorem sleepMicros_proto (n : Dur) (s : State) : (sleepMicros n s).proto = s.proto := rfl
@[simp] theorem sleepMicros_plenv (n : Dur) (s : State) : (sleepMicros n s).plenv = s.plenv := rfl
@[simp] theorem sleepMicros_plen (n : Dur) (s : State) : (sleepMicros n s).plen = s.plen := rfl
@[simp] theorem sleepMicros_repeatReg (n : Dur) (s : State) : (sleepMicros n s).repeatReg = s.repeatReg := rfl
@[simp] theorem sleepMicros_codelen (n : Dur) (s : State) : (sleepMicros n s).codelen = s.codelen := rfl
@[simp] theorem sleepMicros_busy (n : Dur) (s : State) : (sleepMicros n s).busy = s.busy := rfl
@[simp] theorem sleepMicros_nc (n : Dur) (s : State) : (sleepMicros n s).nc = s.nc := rfl
@[simp] theorem sleepMicros_codebuf (n : Dur) (s : State) : (sleepMicros n s).codebuf = s.codebuf := rfl
@[simp] theorem sleepMicros_seq (n : Dur) (s : State) : (sleepMicros n s).seq = s.seq := rfl
@[simp] theorem sleepMicros_cnt (n : Dur) (s : State) : (sleepMicros n s).cnt = n := rfl
@[simp] theorem sleepMicros_pinOe (n : Dur) (s : State) : (sleepMicros n s).pinOe = s.pinOe := rfl
@[simp] theorem sleepMicros_pinOut (n : Dur) (s : State) : (sleepMicros n s).pinOut = s.pinOut := rfl
@[simp] theorem sleepMicros_pinWr (n : Dur) (s : State) : (sleepMicros n s).pinWr = s.pinWr := rfl
@[simp] theorem sleepMicros_rsp (n : Dur) (s : State) : (sleepMicros n s).rsp = s.rsp := rfl
@[simp] theorem sleepMicros_cmdIn (n : Dur) (s : State) : (sleepMicros n s).cmdIn = s.cmdIn := rfl
@[simp] theorem sleepMicros_rstIn (n : Dur) (s : State) : (sleepMicros n s).rstIn = s.rstIn := rfl
@[simp] theorem sleepMicros_activity (n : Dur) (s : State) : (sleepMicros n s).activity = s.activity := rfl
@[simp] theorem sleepMicros_stage (n : Dur) (s : State) : (sleepMicros n s).stage = s.stage := rfl
@[simp] theorem sleepMicros_trace (n : Dur) (s : State) : (sleepMicros n s).trace = s.trace := rfl
@[simp] theorem sleepMicros_responses (n : Dur) (s : State) : (sleepMicros n s).responses = s.responses := rfl
@[simp] theorem sleepMicros_ticks (n : Dur) (s : State) : (sleepMicros n s).ticks = s.ticks := rfl
@[simp] theorem sleepMicros_freeIdx (n : Dur) (s : State) : (sleepMicros n s).freeIdx = s.freeIdx := rfl

/-! ### tick -/

@[simp] theorem tick_params (s : State) : (tick s).params = s.params := rfl
@[simp] theorem tick_en (s : State) : (tick s).en = s.en := rfl
@[simp] theorem tick_proto (s : State) : (tick s).proto = s.proto := rfl
@[simp] theorem tick_plenv (s : State) : (tick s).plenv = s.plenv := rfl
@[simp] theorem tick_plen (s : State) : (tick s).plen = s.plen := rfl
@[simp] theorem tick_repeatReg (s : State) : (tick s).repeatReg = s.repeatReg := rfl
@[simp] theorem tick_codelen (s : State) : (tick s).codelen = s.codelen := rfl
@[simp] theorem tick_busy (s : State) : (tick s).busy = s.busy := rfl
@[simp] theorem tick_nc (s : State) : (tick s).nc = s.nc := rfl
@[simp] theorem tick_codebuf (s : State) : (tick s).codebuf = s.codebuf := rfl
@[simp] theorem tick_seq (s : State) : (tick s).seq = s.seq := rfl
@[simp] theorem tick_cnt (s : State) : (tick s).cnt = s.cnt - 1 := rfl
@[simp] theorem tick_pinOe (s : State) : (tick s).pinOe = s.pinOe := rfl
@[simp] theorem tick_pinOut (s : State) : (tick s).pinOut = s.pinOut := rfl
@[simp] theorem tick_pinWr (s : State) : (tick s).pinWr = s.pinWr := rfl
@[simp] theorem tick_rsp (s : State) : (tick s).rsp = s.rsp := rfl
@[simp] theorem tick_cmdIn (s : State) : (tick s).cmdIn = s.cmdIn := rfl
@[simp] theorem tick_rstIn (s : State) : (tick s).rstIn = s.rstIn := rfl
@[simp] theorem tick_activity (s : State) : (tick s).activity = s.activity := rfl
@[simp] theorem tick_stage (s : State) : (tick s).stage = s.stage := rfl
@[simp] theorem tick_trace (s : State) : (tick s).trace = s.trace := rfl
@[simp] theorem tick_responses (s : State) : (tick s).responses = s.responses := rfl
@[simp] theorem tick_ticks (s : State) : (tick s).ticks = s.ticks + 1 := rfl
@[simp] theorem tick_freeIdx (s : State) : (tick s).freeIdx = s.freeIdx := rfl

/-! ### configureAsOutput -/

@[simp] theorem configureAsOutput_params (s : State) : (configureAsOutput s).params = s.params := rfl
@[simp] theorem configureAsOutput_en (s : State) : (configureAsOutput s).en = s.en := rfl
@[simp] theorem configureAsOutput_proto (s : State) : (configureAsOutput s).proto = s.proto := rfl
@[simp] theorem configureAsOutput_plenv (s : State) : (configureAsOutput s).plenv = s.plenv := rfl
@[simp] theorem configureAsOutput_plen (s : State) : (configureAsOutput s).plen = s.plen := rfl
@[simp] theorem configureAsOutput_repeatReg (s : State) : (configureAsOutput s).repeatReg = s.repeatReg := rfl
@[simp] theorem configureAsOutput_codelen (s : State) : (configureAsOutput s).codelen = s.codelen := rfl
@[simp] theorem configureAsOutput_busy (s : State) : (configureAsOutput s).busy = s.busy := rfl
@[simp] theorem configureAsOutput_nc (s : State) : (configureAsOutput s).nc = s.nc := rfl
@[simp] theorem configureAsOutput_codebuf (s : State) : (configureAsOutput s).codebuf = s.codebuf := rfl
@[simp] theorem configureAsOutput_seq (s : State) : (configureAsOutput s).seq = s.seq := rfl
@[simp] theorem configureAsOutput_cnt (s : State) : (configureAsOutput s).cnt = s.cnt := rfl
@[simp] theorem configureAsOutput_pinOe (s : State) : (configureAsOutput s).pinOe = true := rfl
@[simp] theorem configureAsOutput_pinOut (s : State) : (configureAsOutput s).pinOut = s.pinOut := rfl
@[simp] theorem configureAsOutput_pinWr (s : State) : (configureAsOutput s).pinWr = s.pinWr := rfl
@[simp] theorem configureAsOutput_rsp (s : State) : (configureAsOutput s).rsp = s.rsp := rfl
@[simp] theorem configureAsOutput_cmdIn (s : State) : (configureAsOutput s).cmdIn = s.cmdIn := rfl
@[simp] theorem configureAsOutput_rstIn (s : State) : (configureAsOutput s).rstIn = s.rstIn := rfl
@[simp] theorem configureAsOutput_activity (s : State) : (configureAsOutput s).activity = s.activity := rfl
@[simp] theorem configureAsOutput_stage (s : State) : (configureAsOutput s).stage = s.stage := rfl
@[simp] theorem configureAsOutput_trace (s : State) : (configureAsOutput s).trace = s.trace ++ [.cfgOut] := rfl
@[simp] theorem configureAsOutput_responses (s : State) : (configureAsOutput s).responses = s.responses := rfl
@[simp] theorem configureAsOutput_ticks (s : State) : (configureAsOutput s).ticks = s.ticks := rfl
@[simp] theorem configureAsOutput_freeIdx (s : State) : (configureAsOutput s).freeIdx = s.freeIdx := rfl

/-! ### configureAsInput -/

@[simp] theorem configureAsInput_params (s : State) : (configureAsInput s).params = s.params := rfl
@[simp] theorem configureAsInput_en (s : State) : (configureAsInput s).en = s.en := rfl
@[simp] theorem configureAsInput_proto (s : State) : (configureAsInput s).proto = s.proto := rfl
@[simp] theorem configureAsInput_plenv (s : State) : (configureAsInput s).plenv = s.plenv := rfl
@[simp] theorem configureAsInput_plen (s : State) : (configureAsInput s).plen = s.plen := rfl
@[simp] theorem configureAsInput_repeatReg (s : State) : (configureAsInput s).repeatReg = s.repeatReg := rfl
@[simp] theorem configureAsInput_codelen (s : State) : (configureAsInput s).codelen = s.codelen := rfl
@[simp] theorem configureAsInput_busy (s : State) : (configureAsInput s).busy = s.busy := rfl
@[simp] theorem configureAsInput_nc (s : State) : (configureAsInput s).nc = s.nc := rfl
@[simp] theorem configureAsInput_codebuf (s : State) : (configureAsInput s).codebuf = s.codebuf := rfl
@[simp] theorem configureAsInput_seq (s : State) : (configureAsInput s).seq = s.seq := rfl
@[simp] theorem configureAsInput_cnt (s : State) : (configureAsInput s).cnt = s.cnt := rfl
@[simp] theorem configureAsInput_pinOe (s : State) : (configureAsInput s).pinOe = false := rfl
@[simp] theorem configureAsInput_pinOut (s : State) : (configureAsInput s).pinOut = false := rfl
@[simp] theorem configureAsInput_pinWr (s : State) : (configureAsInput s).pinWr = s.pinWr := rfl
@[simp] theorem configureAsInput_rsp (s : State) : (configureAsInput s).rsp = s.rsp := rfl
@[simp] theorem configureAsInput_cmdIn (s : State) : (configureAsInput s).cmdIn = s.cmdIn := rfl
@[simp] theorem configureAsInput_rstIn (s : State) : (configureAsInput s).rstIn = s.rstIn := rfl
@[simp] theorem configureAsInput_activity (s : State) : (configureAsInput s).activity = s.activity := rfl
@[simp] theorem configureAsInput_stage (s : State) : (configureAsInput s).stage = s.stage := rfl
@[simp] theorem configureAsInput_trace (s : State) : (configureAsInput s).trace = s.trace ++ [.cfgIn] := rfl
@[simp] theorem configureAsInput_responses (s : State) : (configureAsInput s).responses = s.responses := rfl
@[simp] theorem configureAsInput_ticks (s : State) : (configureAsInput s).ticks = s.ticks := rfl
@[simp] theorem configureAsInput_freeIdx (s : State) : (configureAsInput s).freeIdx = s.freeIdx := rfl

/-! ### dropCodes -/

@[simp] theorem dropCodes_params (s : State) : (dropCodes s).params = s.params := rfl
@[simp] theorem dropCodes_en (s : State) : (dropCodes s).en = s.en := rfl
@[simp] theorem dropCodes_proto (s : State) : (dropCodes s).proto = s.proto := rfl
@[simp] theorem dropCodes_plenv (s : State) : (dropCodes s).plenv = s.plenv := rfl
@[simp] theorem dropCodes_plen (s : State) : (dropCodes s).plen = s.plen := rfl
@[simp] theorem dropCodes_repeatReg (s : State) : (dropCodes s).repeatReg = s.repeatReg := rfl
@[simp] theorem dropCodes_codelen (s : State) : (dropCodes s).codelen = s.codelen := rfl
@[simp] theorem dropCodes_busy (s : State) : (dropCodes s).busy = s.busy := rfl
@[simp] theorem dropCodes_nc (s : State) : (dropCodes s).nc = s.nc := rfl
@[simp] theorem dropCodes_codebuf (s : State) : (dropCodes s).codebuf = deadCodes s.freeIdx s.nc.toNat := rfl
@[simp] theorem dropCodes_seq (s : State) : (dropCodes s).seq = s.seq := rfl
@[simp] theorem dropCodes_cnt (s : State) : (dropCodes s).cnt = s.cnt := rfl
@[simp] theorem dropCodes_pinOe (s : State) : (dropCodes s).pinOe = s.pinOe := rfl
@[simp] theorem dropCodes_pinOut (s : State) : (dropCodes s).pinOut = s.pinOut := rfl
@[simp] theorem dropCodes_pinWr (s : State) : (dropCodes s).pinWr = s.pinWr := rfl
@[simp] theorem dropCodes_rsp (s : State) : (dropCodes s).rsp = s.rsp := rfl
@[simp] theorem dropCodes_cmdIn (s : State) : (dropCodes s).cmdIn = s.cmdIn := rfl
@[simp] theorem dropCodes_rstIn (s : State) : (dropCodes s).rstIn = s.rstIn := rfl
@[simp] theorem dropCodes_activity (s : State) : (dropCodes s).activity = s.activity := rfl
@[simp] theorem dropCodes_stage (s : State) : (dropCodes s).stage = s.stage := rfl
@[simp] theorem dropCodes_trace (s : State) : (dropCodes s).trace = s.trace := rfl
@[simp] theorem dropCodes_responses (s : State) : (dropCodes s).responses = s.responses := rfl
@[simp] theorem dropCodes_ticks (s : State) : (dropCodes s).ticks = s.ticks := rfl
@[simp] theorem dropCodes_freeIdx (s : State) : (dropCodes s).freeIdx = s.freeIdx + 1 := rfl

/-! ### respond -/

@[simp] theorem respond_params (r : Option ErrorKind) (s : State) : (respond r s).params = s.params := rfl
@[simp] theorem respond_en (r : Option ErrorKind) (s : State) : (respond r s).en = s.en := rfl
@[simp] theorem respond_proto (r : Option ErrorKind) (s : State) : (respond r s).proto = s.proto := rfl
@[simp] theorem respond_plenv (r : Option ErrorKind) (s : State) : (respond r s).plenv = s.plenv := rfl
@[simp] theorem respond_plen (r : Option ErrorKind) (s : State) : (respond r s).plen = s.plen := rfl
@[simp] theorem respond_repeatReg (r : Option ErrorKind) (s : State) : (respond r s).repeatReg = s.repeatReg := rfl
@[simp] theorem respond_codelen (r : Option ErrorKind) (s : State) : (respond r s).codelen = s.codelen := rfl
@[simp] theorem respond_busy (r : Option ErrorKind) (s : State) : (respond r s).busy = false := rfl
@[simp] theorem respond_nc (r : Option ErrorKind) (s : State) : (respond r s).nc = s.nc := rfl
@[simp] theorem respond_codebuf (r : Option ErrorKind) (s : State) : (respond r s).codebuf = s.codebuf := rfl
@[simp] theorem respond_seq (r : Option ErrorKind) (s : State) : (respond r s).seq = none := rfl
@[simp] theorem respond_cnt (r : Option ErrorKind) (s : State) : (respond r s).cnt = s.cnt := rfl
@[simp] theorem respond_pinOe (r : Option ErrorKind) (s : State) : (respond r s).pinOe = s.pinOe := rfl
@[simp] theorem respond_pinOut (r : Option ErrorKind) (s : State) : (respond r s).pinOut = s.pinOut := rfl
@[simp] theorem respond_pinWr (r : Option ErrorKind) (s : State) : (respond r s).pinWr = s.pinWr := rfl
@[simp] theorem respond_rsp (r : Option ErrorKind) (s : State) : (respond r s).rsp = some (rspWord r) := rfl
@[simp] theorem respond_cmdIn (r : Option ErrorKind) (s : State) : (respond r s).cmdIn = s.cmdIn := rfl
@[simp] theorem respond_rstIn (r : Option ErrorKind) (s : State) : (respond r s).rstIn = s.rstIn := rfl
@[simp] theorem respond_activity (r : Option ErrorKind) (s : State) : (respond r s).activity = .waiting := rfl
@[simp] theorem respond_stage (r : Option ErrorKind) (s : State) : (respond r s).stage = .ready := rfl
@[simp] theorem respond_trace (r : Option ErrorKind) (s : State) : (respond r s).trace = s.trace := rfl
@[simp] theorem respond_responses (r : Option ErrorKind) (s : State) : (respond r s).responses = s.responses ++ [rspWord r] := rfl
@[simp] theorem respond_ticks (r : Option ErrorKind) (s : State) : (respond r s).ticks = s.ticks := rfl
@[simp] theorem respond_freeIdx (r : Option ErrorKind) (s : State) : (respond r s).freeIdx = s.freeIdx := rfl

/-! ### loadCodes -/

@[simp] theorem loadCodes_params (c : Enclosing) (cs : List CmdWord) (s : State) : (loadCodes c cs s).params = s.params := rfl
@[simp] theorem loadCodes_en (c : Enclosing) (cs : List CmdWord) (s : State) : (loadCodes c cs s).en = s.en := rfl
@[simp] theorem loadCodes_proto (c : Enclosing) (cs : List CmdWord) (s : State) : (loadCodes c cs s).proto = s.proto := rfl
@[simp] theorem loadCodes_plenv (c : Enclosing) (cs : List CmdWord) (s : State) : (loadCodes c cs s).plenv = s.plenv := rfl
@[simp] theorem loadCodes_plen (c : Enclosing) (cs : List CmdWord) (s : State) : (loadCodes c cs s).plen = s.plen := rfl
@[simp] theorem loadCodes_repeatReg (c : Enclosing) (cs : List CmdWord) (s : State) : (loadCodes c cs s).repeatReg = s.repeatReg := rfl
@[simp] theorem loadCodes_codelen (c : Enclosing) (cs : List CmdWord) (s : State) : (loadCodes c cs s).codelen = s.codelen := rfl
@[simp] theorem loadCodes_busy (c : Enclosing) (cs : List CmdWord) (s : State) : (loadCodes c cs s).busy = true := rfl
@[simp] theorem loadCodes_nc (c : Enclosing) (cs : List CmdWord) (s : State) : (loadCodes c cs s).nc = BitVec.ofNat 8 cs.length := rfl
@[simp] theorem loadCodes_codebuf (c : Enclosing) (cs : List CmdWord) (s : State) : (loadCodes c cs s).codebuf = cs := rfl
@[simp] theorem loadCodes_seq (c : Enclosing) (cs : List CmdWord) (s : State) : (loadCodes c cs s).seq = s.seq := rfl
@[simp] theorem loadCodes_cnt (c : Enclosing) (cs : List CmdWord) (s : State) : (loadCodes c cs s).cnt = s.cnt := rfl
@[simp] theorem loadCodes_pinOe (c : Enclosing) (cs : List CmdWord) (s : State) : (loadCodes c cs s).pinOe = s.pinOe := rfl
@[simp] theorem loadCodes_pinOut (c : Enclosing) (cs : List CmdWord) (s : State) : (loadCodes c cs s).pinOut = s.pinOut := rfl
@[simp] theorem loadCodes_pinWr (c : Enclosing) (cs : List CmdWord) (s : State) : (loadCodes c cs s).pinWr = s.pinWr := rfl
@[simp] theorem loadCodes_rsp (c : Enclosing) (cs : List CmdWord) (s : State) : (loadCodes c cs s).rsp = s.rsp := rfl
@[simp] theorem loadCodes_cmdIn (c : Enclosing) (cs : List CmdWord) (s : State) : (loadCodes c cs s).cmdIn = s.cmdIn := rfl
@[simp] theorem loadCodes_rstIn (c : Enclosing) (cs : List CmdWord) (s : State) : (loadCodes c cs s).rstIn = s.rstIn := rfl
@[simp] theorem loadCodes_activity (c : Enclosing) (cs : List CmdWord) (s : State) : (loadCodes c cs s).activity = .executing c := rfl
@[simp] theorem loadCodes_stage (c : Enclosing) (cs : List CmdWord) (s : State) : (loadCodes c cs s).stage = s.stage := rfl
@[simp] theorem loadCodes_trace (c : Enclosing) (cs : List CmdWord) (s : State) : (loadCodes c cs s).trace = s.trace := rfl
@[simp] theorem loadCodes_responses (c : Enclosing) (cs : List CmdWord) (s : State) : (loadCodes c cs s).responses = s.responses := rfl
@[simp] theorem loadCodes_ticks (c : Enclosing) (cs : List CmdWord) (s : State) : (loadCodes c cs s).ticks = s.ticks := rfl
@[simp] theorem loadCodes_freeIdx (c : Enclosing) (cs : List CmdWord) (s : State) : (loadCodes c cs s).freeIdx = s.freeIdx := rfl

/-! ### beginStep -/

@[simp] theorem beginStep_params (s : State) : (beginStep s).params = s.params := rfl
@[simp] theorem beginStep_en (s : State) : (beginStep s).en = s.en := rfl
@[simp] theorem beginStep_proto (s : State) : (beginStep s).proto = s.proto := rfl
@[simp] theorem beginStep_plenv (s : State) : (beginStep s).plenv = s.plenv := rfl
@[simp] theorem beginStep_plen (s : State) : (beginStep s).plen = s.plen := rfl
@[simp] theorem beginStep_repeatReg (s : State) : (beginStep s).repeatReg = s.repeatReg := rfl
@[simp] theorem beginStep_codelen (s : State) : (beginStep s).codelen = s.codelen := rfl
@[simp] theorem beginStep_busy (s : State) : (beginStep s).busy = s.busy := rfl
@[simp] theorem beginStep_nc (s : State) : (beginStep s).nc = s.nc := rfl
@[simp] theorem beginStep_codebuf (s : State) : (beginStep s).codebuf = s.codebuf := rfl
@[simp] theorem beginStep_seq (s : State) : (beginStep s).seq = s.seq := rfl
@[simp] theorem beginStep_cnt (s : State) : (beginStep s).cnt = s.cnt := rfl
@[simp] theorem beginStep_pinOe (s : State) : (beginStep s).pinOe = s.pinOe := rfl
@[simp] theorem beginStep_pinOut (s : State) : (beginStep s).pinOut = s.pinOut := rfl
@[simp] theorem beginStep_pinWr (s : State) : (beginStep s).pinWr = false := rfl
@[simp] theorem beginStep_rsp (s : State) : (beginStep s).rsp = none := rfl
@[simp] theorem beginStep_cmdIn (s : State) : (beginStep s).cmdIn = s.cmdIn := rfl
@[simp] theorem beginStep_rstIn (s : State) : (beginStep s).rstIn = s.rstIn.tail := rfl
@[simp] theorem beginStep_activity (s : State) : (beginStep s).activity = s.activity := rfl
@[simp] theorem beginStep_stage (s : State) : (beginStep s).stage = s.stage := rfl
@[simp] theorem beginStep_trace (s : State) : (beginStep s).trace = s.trace := rfl
@[simp] theorem beginStep_responses (s : State) : (beginStep s).responses = s.responses := rfl
@[simp] theorem beginStep_ticks (s : State) : (beginStep s).ticks = s.ticks := rfl
@[simp] theorem beginStep_freeIdx (s : State) : (beginStep s).freeIdx = s.freeIdx := rfl

/-! ### resetStep -/

@[simp] theorem resetStep_params (s : State) : (resetStep s).params = s.params := rfl
@[simp] theorem resetStep_en (s : State) : (resetStep s).en = false := rfl
@[simp] theorem resetStep_proto (s : State) : (resetStep s).proto = s.params.defaultProto := rfl
@[simp] theorem resetStep_plenv (s : State) : (resetStep s).plenv = s.params.defaultPulseLen.isSome := rfl
@[simp] theorem resetStep_plen (s : State) : (resetStep s).plen = s.params.defaultPulseLen.getD 0 := rfl
@[simp] theorem resetStep_repeatReg (s : State) : (resetStep s).repeatReg = s.params.repeatCount := rfl
@[simp] theorem resetStep_codelen (s : State) : (resetStep s).codelen = Config.defaultCodeLen := rfl
@[simp] theorem resetStep_busy (s : State) : (resetStep s).busy = false := rfl
@[simp] theorem resetStep_nc (s : State) : (resetStep s).nc = 0 := rfl
@[simp] theorem resetStep_codebuf (s : State) : (resetStep s).codebuf = [] := rfl
@[simp] theorem resetStep_seq (s : State) : (resetStep s).seq = none := rfl
@[simp] theorem resetStep_cnt (s : State) : (resetStep s).cnt = 0 := rfl
@[simp] theorem resetStep_pinOe (s : State) : (resetStep s).pinOe = false := rfl
@[simp] theorem resetStep_pinOut (s : State) : (resetStep s).pinOut = false := rfl
@[simp] theorem resetStep_pinWr (s : State) : (resetStep s).pinWr = false := rfl
@[simp] theorem resetStep_rsp (s : State) : (resetStep s).rsp = none := rfl
@[simp] theorem resetStep_cmdIn (s : State) : (resetStep s).cmdIn = s.cmdIn := rfl
@[simp] theorem resetStep_rstIn (s : State) : (resetStep s).rstIn = s.rstIn.tail := rfl
@[simp] theorem resetStep_activity (s : State) : (resetStep s).activity = .waiting := rfl
@[simp] theorem resetStep_stage (s : State) : (resetStep s).stage = .ready := rfl
@[simp] theorem resetStep_trace (s : State) : (resetStep s).trace = if s.en then s.trace ++ [.cfgIn] else s.trace := rfl
@[simp] theorem resetStep_responses (s : State) : (resetStep s).responses = s.responses := rfl
@[simp] theorem resetStep_ticks (s : State) : (resetStep s).ticks = s.ticks := rfl
@[simp] theorem resetStep_freeIdx (s : State) : (resetStep s).freeIdx = s.freeIdx := rfl

end Sys2Proof.Machine
end

