-- ==== Sys2Proof/Laws/Ops.lean ====
section
/-! SUPPORT. What each shared operation of the machine can do, said once: the callers' proofs cite these and need not
unfold the operation. -/

namespace Sys2Proof.Machine

/-! ### Status words -/

/-- A success response does not fail, and a failure does. -/
theorem failOf_rspWord (r : Option ErrorKind) : failOf (rspWord r) = r.isSome := by
  cases r with
  | none => decide
  | some e => cases e <;> decide

/-- Every response word is one of the six legal ones (30_encoding.md R64). -/
theorem rspWord_legal (r : Option ErrorKind) : rspWord r ∈ ([0x0, 0x9, 0xA, 0xB, 0xC, 0xF] : List RspWord) := by
  cases r with
  | none => decide
  | some e => cases e <;> decide

/-! ### Operands -/

/-- GET succeeds exactly on a valid index. -/
theorem getProtocol_isOk_iff (t : ProtoTable) (i : BitVec 8) :
    (∃ P, getProtocol t i = .ok P) ↔ validIndex i = true := by
  unfold getProtocol; split <;> simp_all

/-- GET on an invalid index. -/
theorem getProtocol_invalid {t : ProtoTable} {i : BitVec 8} (h : validIndex i = false) :
    getProtocol t i = .error .unknownProtocol := by
  unfold getProtocol; simp [h]

/-- A valid index is at most `NPROTO`. -/
theorem validIndex_le {i : BitVec 8} (h : validIndex i = true) : i.toNat ≤ Config.nproto := (of_decide_eq_true h).2

/-- Lines 2 to 4 of SEND with a valid operand or none. -/
theorem overrideProtocol_valid {pidx : Option (BitVec 8)} {s : State}
    (h : ∀ i, pidx = some i → validIndex i = true) :
    overrideProtocol pidx s = .ok { s with proto := pidx.getD s.proto } := by
  cases pidx with
  | none => rfl
  | some i =>
    obtain ⟨P, hP⟩ := (getProtocol_isOk_iff s.params.table i).mpr (h i rfl)
    simp [overrideProtocol, hP]

/-- Lines 2 to 4 of SEND with an invalid operand. -/
theorem overrideProtocol_invalid {i : BitVec 8} {s : State} (h : validIndex i = false) :
    overrideProtocol (some i) s = .error .unknownProtocol := by
  simp [overrideProtocol, getProtocol_invalid h]

/-- Line 5 of SEND. -/
theorem overridePulseLen_eq (plen : Option (BitVec 24)) (s : State) :
    overridePulseLen plen s = { s with plenv := plen.isSome || s.plenv, plen := plen.getD s.plen } := by
  cases plen <;> rfl

/-- `NC` of a list that fits a packet is its length. -/
theorem toNat_nc {codes : List CmdWord} (h : codes.length ≤ 255) :
    (BitVec.ofNat 8 codes.length).toNat = codes.length := by
  rw [BitVec.toNat_ofNat]; omega

/-- `NC` of a list that fits a packet is 0 exactly for the empty list. -/
theorem nc_eq_zero_iff {codes : List CmdWord} (h : codes.length ≤ 255) :
    BitVec.ofNat 8 codes.length = 0 ↔ codes = [] := by
  rw [eq_zero_iff_toNat, toNat_nc h, List.length_eq_zero_iff]

/-- What a well-formed SEND says of its operands. -/
theorem wellFormed_send {codes : List CmdWord} {pidx : Option (BitVec 8)} {plen : Option (BitVec 24)}
    {width : Option (BitVec 8)} (h : (Instr.send codes pidx plen width).wellFormed = true) :
    codes.length ≤ 255 ∧ plen ≠ some 0 ∧ width ≠ some 0 ∧ 1 ≤ (width.getD 40).toNat := by
  simp only [Instr.wellFormed, codesFit, Config.maxCodes, presentNonzero, Bool.and_eq_true] at h
  obtain ⟨⟨hc, hp⟩, hw⟩ := h
  have hw := of_decide_eq_true hw
  refine ⟨of_decide_eq_true hc, of_decide_eq_true hp, hw, ?_⟩
  cases width with
  | none => decide
  | some w =>
    have := mt (eq_zero_iff_toNat w).mpr fun h => hw (by rw [h])
    show 1 ≤ w.toNat
    omega

/-- A well-formed SENDB has at most 255 codes. -/
theorem wellFormed_sendb {codes : List CmdWord} (h : (Instr.sendb codes).wellFormed = true) : codes.length ≤ 255 :=
  of_decide_eq_true h

/-! ### The session and the end of a command -/

/-- The body of ENABLE as one update. -/
theorem enableBody_eq (s : State) :
    enableBody s = { s with
      en := true
      pinOe := if s.en then s.pinOe else true
      trace := if s.en then s.trace else s.trace ++ [.cfgOut] } := by
  unfold enableBody
  obtain ⟨_, en, _⟩ := s
  cases en <;> rfl

/-- The body of DISABLE as one update. -/
theorem disableBody_eq (s : State) :
    disableBody s = { s with
      en := false
      pinOe := if s.en then false else s.pinOe
      pinOut := if s.en then false else s.pinOut
      trace := if s.en then s.trace ++ [.cfgIn] else s.trace } := by
  unfold disableBody
  obtain ⟨_, en, _⟩ := s
  cases en <;> rfl

/-- The dead code buffer has as many words as it had. -/
theorem length_deadCodes (n count : Nat) : (deadCodes n count).length = count := by simp [deadCodes]

/-- The end of a SEND. -/
theorem finish_send {r : Option ErrorKind} {s : State} (h : s.activity = .executing .send) :
    finish r s = respond r (dropCodes s) := by
  unfold finish; rw [h]

/-- The end of a SENDB: it disables. -/
theorem finish_sendb {r : Option ErrorKind} {s : State} (h : s.activity = .executing .sendb) :
    finish r s = respond r (dropCodes (disableBody s)) := by
  unfold finish; rw [h]

/-- The end of any other command. -/
theorem finish_other {r : Option ErrorKind} {s : State} (h : ∀ c, s.activity ≠ .executing c) :
    finish r s = respond r s := by
  unfold finish
  cases ha : s.activity with
  | waiting => rfl
  | receiving => rfl
  | executing c => exact absurd ha (h c)

/-- SEND with operands that have an encoding. -/
theorem execSend_eq {codes : List CmdWord} {pidx : Option (BitVec 8)} {plen : Option (BitVec 24)}
    {width : Option (BitVec 8)} {s : State} (h : (Instr.send codes pidx plen width).wellFormed = true) :
    execSend codes pidx plen width s
      = .next (sendBody pidx plen (width.getD 40) (loadCodes .send codes s)) := by
  unfold execSend; rw [if_pos h]; rfl

/-- SENDB with codes that fit a packet. -/
theorem execSendb_eq {codes : List CmdWord} {s : State} (hl : codes.length ≤ 255) (hc : codes ≠ []) :
    execSendb codes s = .next (sendBody none none 40 (enableBody (loadCodes .sendb codes s))) := by
  unfold execSendb
  rw [if_pos (show (Instr.sendb codes).wellFormed = true from decide_eq_true hl), if_neg hc]; rfl

/-- The body of SEND in Idle. -/
theorem sendBody_idle {pidx : Option (BitVec 8)} {plen : Option (BitVec 24)} {w : BitVec 8} {s : State}
    (h : s.en = false) : sendBody pidx plen w s = raise .transmitterDisabled s := by
  simp [sendBody, h]

/-- The body of SEND with a protocol operand outside the table. -/
theorem sendBody_unknown {i : BitVec 8} {plen : Option (BitVec 24)} {w : BitVec 8} {s : State} (h : s.en = true)
    (hi : validIndex i = false) : sendBody (some i) plen w s = raise .unknownProtocol s := by
  simp [sendBody, h, overrideProtocol_invalid hi]

/-- The body of SEND once the Armed check and the protocol operand have passed: the overrides are stored, and the codes
decide between CodeTooWide and the launch. -/
theorem sendBody_stored {pidx : Option (BitVec 8)} {plen : Option (BitVec 24)} {w : BitVec 8} {s : State}
    (h : s.en = true) (hi : ∀ i, pidx = some i → validIndex i = true) :
    sendBody pidx plen w s =
      let t : State := { s with
        proto := pidx.getD s.proto, plenv := plen.isSome || s.plenv, plen := plen.getD s.plen, codelen := w }
      match encodeAll w.toNat s.codebuf with
      | .error e => raise e t
      | .ok _ => launch t := by
  simp only [sendBody, h, overrideProtocol_valid hi, overridePulseLen_eq]; rfl

/-- A pulse instruction in an Armed session, as one update. -/
theorem drive_armed {l : Level} {d : Dur} {s : State} (h : s.en = true) :
    drive l d s = { s with
      pinOut := l.bit, pinWr := true, trace := s.trace ++ [.wr l d], cnt := d, stage := .playing } := by
  unfold drive; rw [if_pos h]; rfl

/-! ### What ending a command leaves in every field -/

@[simp] theorem finish_params (r : Option ErrorKind) (s : State) : (finish r s).params = s.params := by
  unfold finish
  split <;> simp [disableBody_eq]
@[simp] theorem finish_proto (r : Option ErrorKind) (s : State) : (finish r s).proto = s.proto := by
  unfold finish
  split <;> simp [disableBody_eq]
@[simp] theorem finish_plenv (r : Option ErrorKind) (s : State) : (finish r s).plenv = s.plenv := by
  unfold finish
  split <;> simp [disableBody_eq]
@[simp] theorem finish_plen (r : Option ErrorKind) (s : State) : (finish r s).plen = s.plen := by
  unfold finish
  split <;> simp [disableBody_eq]
@[simp] theorem finish_repeatReg (r : Option ErrorKind) (s : State) : (finish r s).repeatReg = s.repeatReg := by
  unfold finish
  split <;> simp [disableBody_eq]
@[simp] theorem finish_codelen (r : Option ErrorKind) (s : State) : (finish r s).codelen = s.codelen := by
  unfold finish
  split <;> simp [disableBody_eq]
@[simp] theorem finish_nc (r : Option ErrorKind) (s : State) : (finish r s).nc = s.nc := by
  unfold finish
  split <;> simp [disableBody_eq]
@[simp] theorem finish_cnt (r : Option ErrorKind) (s : State) : (finish r s).cnt = s.cnt := by
  unfold finish
  split <;> simp [disableBody_eq]
@[simp] theorem finish_pinWr (r : Option ErrorKind) (s : State) : (finish r s).pinWr = s.pinWr := by
  unfold finish
  split <;> simp [disableBody_eq]
@[simp] theorem finish_cmdIn (r : Option ErrorKind) (s : State) : (finish r s).cmdIn = s.cmdIn := by
  unfold finish
  split <;> simp [disableBody_eq]
@[simp] theorem finish_rstIn (r : Option ErrorKind) (s : State) : (finish r s).rstIn = s.rstIn := by
  unfold finish
  split <;> simp [disableBody_eq]
@[simp] theorem finish_ticks (r : Option ErrorKind) (s : State) : (finish r s).ticks = s.ticks := by
  unfold finish
  split <;> simp [disableBody_eq]
@[simp] theorem finish_busy (r : Option ErrorKind) (s : State) : (finish r s).busy = false := by
  unfold finish
  split <;> simp [disableBody_eq]
@[simp] theorem finish_activity (r : Option ErrorKind) (s : State) : (finish r s).activity = .waiting := by
  unfold finish
  split <;> simp [disableBody_eq]
@[simp] theorem finish_seq (r : Option ErrorKind) (s : State) : (finish r s).seq = none := by
  unfold finish
  split <;> simp [disableBody_eq]
@[simp] theorem finish_stage (r : Option ErrorKind) (s : State) : (finish r s).stage = .ready := by
  unfold finish
  split <;> simp [disableBody_eq]
@[simp] theorem finish_rsp (r : Option ErrorKind) (s : State) : (finish r s).rsp = some (rspWord r) := by
  unfold finish
  split <;> simp [disableBody_eq]
@[simp] theorem finish_responses (r : Option ErrorKind) (s : State) : (finish r s).responses = s.responses ++ [rspWord r] := by
  unfold finish
  split <;> simp [disableBody_eq]

/-- Only a SENDB changes the session state when it ends. -/
theorem finish_en (r : Option ErrorKind) (s : State) :
    (finish r s).en = (s.en && !decide (s.activity = .executing .sendb)) := by
  unfold finish
  split <;> rename_i h <;> simp [disableBody_eq, h]

/-- A SENDB that ends in an Armed session appends `CfgIn`; nothing else appends an event. -/
theorem finish_trace (r : Option ErrorKind) (s : State) :
    (finish r s).trace
      = s.trace ++ (if s.activity = .executing .sendb ∧ s.en = true then [.cfgIn] else []) := by
  unfold finish
  split <;> rename_i h <;> simp [disableBody_eq, h]
  split <;> simp_all

/-- Only a SENDB that ends in an Armed session changes the pin. -/
theorem finish_pin (r : Option ErrorKind) (s : State) :
    (finish r s).pinOe = (s.pinOe && !decide (s.activity = .executing .sendb ∧ s.en = true)) ∧
      (finish r s).pinOut = (s.pinOut && !decide (s.activity = .executing .sendb ∧ s.en = true)) := by
  unfold finish
  split <;> rename_i h <;> simp [disableBody_eq, h]
  cases s.en <;> simp

/-- The code buffer keeps as many words as `NC` says. -/
theorem finish_codebuf_length (r : Option ErrorKind) (s : State) (h : s.codebuf.length = s.nc.toNat) :
    (finish r s).codebuf.length = s.nc.toNat := by
  unfold finish
  split <;> simp [length_deadCodes, disableBody_eq, h]

@[simp] theorem raise_params (e : ErrorKind) (s : State) : (raise e s).params = s.params := by simp [raise]
@[simp] theorem raise_proto (e : ErrorKind) (s : State) : (raise e s).proto = s.proto := by simp [raise]
@[simp] theorem raise_plenv (e : ErrorKind) (s : State) : (raise e s).plenv = s.plenv := by simp [raise]
@[simp] theorem raise_plen (e : ErrorKind) (s : State) : (raise e s).plen = s.plen := by simp [raise]
@[simp] theorem raise_repeatReg (e : ErrorKind) (s : State) : (raise e s).repeatReg = s.repeatReg := by simp [raise]
@[simp] theorem raise_codelen (e : ErrorKind) (s : State) : (raise e s).codelen = s.codelen := by simp [raise]
@[simp] theorem raise_nc (e : ErrorKind) (s : State) : (raise e s).nc = s.nc := by simp [raise]
@[simp] theorem raise_pinWr (e : ErrorKind) (s : State) : (raise e s).pinWr = s.pinWr := by simp [raise]
@[simp] theorem raise_cmdIn (e : ErrorKind) (s : State) : (raise e s).cmdIn = s.cmdIn := by simp [raise]
@[simp] theorem raise_rstIn (e : ErrorKind) (s : State) : (raise e s).rstIn = s.rstIn := by simp [raise]
@[simp] theorem raise_ticks (e : ErrorKind) (s : State) : (raise e s).ticks = s.ticks := by simp [raise]
@[simp] theorem raise_busy (e : ErrorKind) (s : State) : (raise e s).busy = false := by simp [raise]
@[simp] theorem raise_activity (e : ErrorKind) (s : State) : (raise e s).activity = .waiting := by simp [raise]
@[simp] theorem raise_seq (e : ErrorKind) (s : State) : (raise e s).seq = none := by simp [raise]
@[simp] theorem raise_stage (e : ErrorKind) (s : State) : (raise e s).stage = .ready := by simp [raise]
@[simp] theorem raise_cnt (e : ErrorKind) (s : State) : (raise e s).cnt = 0 := by simp [raise]
@[simp] theorem raise_rsp (e : ErrorKind) (s : State) : (raise e s).rsp = some (rspWord (some e)) := by simp [raise]
@[simp] theorem raise_responses (e : ErrorKind) (s : State) : (raise e s).responses = s.responses ++ [rspWord (some e)] := by simp [raise]

/-- Raising disarms a SENDB and leaves the session state of everything else. -/
theorem raise_en (e : ErrorKind) (s : State) :
    (raise e s).en = (s.en && !decide (s.activity = .executing .sendb)) := finish_en _ _
/-- Raising appends at most `CfgIn`, in an Armed SENDB. -/
theorem raise_trace (e : ErrorKind) (s : State) :
    (raise e s).trace = s.trace ++ (if s.activity = .executing .sendb ∧ s.en = true then [.cfgIn] else []) :=
  finish_trace _ _
/-- Raising changes the pin only in an Armed SENDB. -/
theorem raise_pin (e : ErrorKind) (s : State) :
    (raise e s).pinOe = (s.pinOe && !decide (s.activity = .executing .sendb ∧ s.en = true)) ∧
      (raise e s).pinOut = (s.pinOut && !decide (s.activity = .executing .sendb ∧ s.en = true)) := finish_pin _ _
/-- Raising keeps the length of the code buffer. -/
theorem raise_codebuf_length (e : ErrorKind) (s : State) (h : s.codebuf.length = s.nc.toNat) :
    (raise e s).codebuf.length = s.nc.toNat := finish_codebuf_length _ _ h

/-! ### The launch of a transmission and its pulses -/

/-- What `launch` can do: an empty list is over at once, no selected protocol raises, and otherwise `SEQ` is
`first(0)`. -/
theorem launch_cases (s : State) :
    (s.nc = 0 ∧ launch s = { s with seq := some .done, stage := .ready }) ∨
      (s.nc ≠ 0 ∧ validIndex s.proto = false ∧ launch s = raise .protocolUnselected s) ∨
      ∃ P, s.nc ≠ 0 ∧ getProtocol s.params.table s.proto = .ok P ∧
        launch s = { s with seq := some (firstPos P s.repeatReg.toNat s.nc.toNat), stage := .ready } := by
  unfold launch
  split
  · exact .inl ⟨‹_›, rfl⟩
  · cases hg : getProtocol s.params.table s.proto with
    | error e =>
      refine .inr (.inl ⟨‹_›, ?_, rfl⟩)
      cases hv : validIndex s.proto with
      | false => rfl
      | true => simp [getProtocol, hv] at hg
    | ok P => exact .inr (.inr ⟨P, ‹_›, rfl, rfl⟩)

/-- What the body of SEND can do: raise before it stores anything, store and raise, or store and stand at the start of
the transmission. -/
theorem sendBody_cases (pidx : Option (BitVec 8)) (plen : Option (BitVec 24)) (w : BitVec 8) (s : State) :
    (∃ e, sendBody pidx plen w s = raise e s) ∨
      (s.en = true ∧ (∀ i, pidx = some i → validIndex i = true) ∧
        let t : State := { s with
          proto := pidx.getD s.proto, plenv := plen.isSome || s.plenv, plen := plen.getD s.plen, codelen := w }
        ((∃ e, sendBody pidx plen w s = raise e t) ∨
          ∃ bs q, encodeAll w.toNat s.codebuf = .ok bs ∧
            ((s.nc = 0 ∧ q = .done) ∨
              ∃ P, s.nc ≠ 0 ∧ getProtocol s.params.table t.proto = .ok P ∧
                q = firstPos P s.repeatReg.toNat s.nc.toNat) ∧
            sendBody pidx plen w s = { t with seq := some q, stage := .ready })) := by
  by_cases hen : s.en = true
  case neg => exact .inl ⟨_, sendBody_idle (by simpa using hen)⟩
  case pos =>
    by_cases hi : ∀ i, pidx = some i → validIndex i = true
    · refine .inr ⟨hen, hi, ?_⟩
      rw [sendBody_stored hen hi]
      dsimp only
      cases hb : encodeAll w.toNat s.codebuf with
      | error e => exact .inl ⟨e, rfl⟩
      | ok bs =>
        dsimp only
        rcases launch_cases { s with
          proto := pidx.getD s.proto, plenv := plen.isSome || s.plenv, plen := plen.getD s.plen, codelen := w }
          with ⟨h0, he⟩ | ⟨_, _, he⟩ | ⟨P, h0, hP, he⟩
        · exact .inr ⟨bs, .done, rfl, .inl ⟨h0, rfl⟩, he.trans rfl⟩
        · exact .inl ⟨_, he⟩
        · exact .inr ⟨bs, _, rfl, .inr ⟨P, h0, hP, rfl⟩, he.trans rfl⟩
    · simp only [not_forall] at hi
      obtain ⟨i, rfl, hv⟩ := hi
      exact .inl ⟨_, sendBody_unknown hen (by simpa using hv)⟩

/-- What handing over a pulse instruction can do: put its word on the link, raise, or find no pulse instruction. -/
theorem issuePulse_cases (p : Pos) (s : State) :
    (∃ x, designated s p = .ok x ∧
        issuePulse p s = .next { s with stage := .issued (pulseWord x.level x.dur) }) ∨
      (∃ e, designated s p = .error (.raises e) ∧ issuePulse p s = .next (raise e s)) ∨
      (designated s p = .error .stray ∧ issuePulse p s = .fault .strayPosition) := by
  unfold issuePulse
  cases hd : designated s p with
  | ok x => exact .inl ⟨x, rfl, rfl⟩
  | error e =>
    cases e with
    | raises e => exact .inr (.inl ⟨e, rfl, rfl⟩)
    | stray => exact .inr (.inr ⟨rfl, rfl⟩)

/-- What the end of a hold can do. -/
theorem advance_cases (s : State) :
    (s.seq = none ∧ advance s = .fault .strayPosition) ∨
      (s.seq = some .done ∧ advance s = .next { s with stage := .ready }) ∨
      ∃ p, s.seq = some (.pos p) ∧
        ((validIndex s.proto = false ∧ advance s = .next (raise .protocolUnselected s)) ∨
          ∃ P, getProtocol s.params.table s.proto = .ok P ∧
            advance s = .next { s with
              seq := some (nextPos P s.codelen.toNat s.repeatReg.toNat s.nc.toNat p), stage := .ready }) := by
  unfold advance
  cases hq : s.seq with
  | none => exact .inl ⟨rfl, rfl⟩
  | some q =>
    cases q with
    | done => exact .inr (.inl ⟨rfl, rfl⟩)
    | pos p =>
      refine .inr (.inr ⟨p, rfl, ?_⟩)
      cases hg : getProtocol s.params.table s.proto with
      | ok P => exact .inr ⟨P, rfl, rfl⟩
      | error e =>
        refine .inl ⟨?_, rfl⟩
        cases hv : validIndex s.proto with
        | false => rfl
        | true => simp [getProtocol, hv] at hg

/-- What a pulse instruction can do: drive the pin, or be refused in Idle. -/
theorem drive_cases (l : Level) (d : Dur) (s : State) :
    (s.en = true ∧ drive l d s = { s with
        pinOut := l.bit, pinWr := true, trace := s.trace ++ [.wr l d], cnt := d, stage := .playing }) ∨
      (s.en = false ∧ drive l d s = raise .transmitterDisabled s) := by
  by_cases h : s.en = true
  · exact .inl ⟨h, drive_armed h⟩
  · exact .inr ⟨by simpa using h, if_neg h⟩

end Sys2Proof.Machine
end

