-- ==== Sys2Proof/Laws/PerInstr.lean ====
section
/-! SUPPORT. A fact about every instruction as syntax, one lemma per constructor: what `encode` writes has the length
that its own header announces (spec/30_encoding.md R57). -/

namespace Sys2Proof.Laws.PacketLength

open Sys2Proof

/-- A packet has the number of words that its header determines; a pulse word is one word (30_encoding.md R57, R63). -/
def hasItsLength : Code → Prop
  | .packet [] => False
  | .packet (h :: codes) => codes.length + 1 = packetLength h
  | .pulse w => w.toNat < 2 ^ 33

/-- What is encoded of a well-formed instruction has its length. -/
def Statement (i : Instr) : Prop := i.wellFormed = true → hasItsLength (encode i)

theorem enable : Statement .enable := fun _ => (rfl : 0 + 1 = packetLength (headerN opcEnable))

theorem disable : Statement .disable := fun _ => (rfl : 0 + 1 = packetLength (headerN opcDisable))

/-- `NCODES` of a list of at most 255 codes is its length. -/
theorem ncodes_toNat {codes : List CmdWord} (h : codes.length ≤ 255) :
    (BitVec.ofNat 8 codes.length).toNat = codes.length := by
  rw [BitVec.toNat_ofNat]; omega

theorem send (codes : List CmdWord) (pidx : Option (BitVec 8)) (plen : Option (BitVec 24))
    (width : Option (BitVec 8)) : Statement (.send codes pidx plen width) := by
  intro hwf
  simp only [Instr.wellFormed, codesFit, Config.maxCodes, Bool.and_eq_true] at hwf
  have hl := ncodes_toNat (of_decide_eq_true hwf.1.1)
  have hn := headerS_toNat pidx plen width (BitVec.ofNat 8 codes.length)
  have h1 := (pidx.getD 0).isLt
  have h2 := (plen.getD 0).isLt
  have h3 := (width.getD 0).isLt
  have h4 := (BitVec.ofNat 8 codes.length).isLt
  have b1 : pidx.isSome.toNat ≤ 1 := Bool.toNat_le _
  have b2 : plen.isSome.toNat ≤ 1 := Bool.toNat_le _
  have b3 : width.isSome.toNat ≤ 1 := Bool.toNat_le _
  show codes.length + 1 = packetLength (headerS pidx plen width (BitVec.ofNat 8 codes.length))
  have hopc : opcOf (headerS pidx plen width (BitVec.ofNat 8 codes.length)) = opcSend := by
    apply BitVec.eq_of_toNat_eq
    rw [opcOf_toNat, show opcSend.toNat = 0x10 from rfl]
    omega
  rw [packetLength, if_pos (.inl hopc), ncodesOf_toNat]
  omega

theorem sendb (codes : List CmdWord) : Statement (.sendb codes) := by
  intro hwf
  have hl := ncodes_toNat (of_decide_eq_true hwf)
  have hn := headerB_toNat (BitVec.ofNat 8 codes.length)
  have h4 := (BitVec.ofNat 8 codes.length).isLt
  show codes.length + 1 = packetLength (headerB (BitVec.ofNat 8 codes.length))
  have hopc : opcOf (headerB (BitVec.ofNat 8 codes.length)) = opcSendb := by
    apply BitVec.eq_of_toNat_eq
    rw [opcOf_toNat, show opcSendb.toNat = 0x11 from rfl]
    omega
  rw [packetLength, if_pos (.inr hopc), ncodesOf_toNat]
  omega

theorem ph (d : Dur) : Statement (.ph d) := fun _ => (pulseWord .high d).isLt

theorem pl (d : Dur) : Statement (.pl d) := fun _ => (pulseWord .low d).isLt

end Sys2Proof.Laws.PacketLength
end

