-- ==== Sys2Proof/Laws/Step.lean ====
section
/-! SUPPORT. What one step can do, said once: `step_cases`. Every fact about all steps is a case analysis on it. -/

namespace Sys2Proof.Machine

/-- A step with `rst` low. -/
theorem step_of_rst_low {s : State} (h : s.rstIn.headD false = false) :
    step s = match action (beginStep s) with
      | .run i t => exec i t
      | .outcome o => o := by
  unfold step; rw [h]; rfl

/-- A step with `rst` high. -/
theorem step_of_rst_high {s : State} (h : s.rstIn.headD false = true) : step s = .next (resetStep s) := by
  unfold step; rw [h]; rfl

/-- What decodes has the word count of its header (30_encoding.md R57). -/
theorem length_of_decodePacket {h : CmdWord} {codes : List CmdWord} {i : Instr}
    (hd : decodePacket (h :: codes) = .ok i) : codes.length + 1 = packetLength h := by
  simp only [decodePacket] at hd
  split at hd
  · assumption
  · cases hd

/-- No packet decodes to a pulse instruction (30_encoding.md R50). -/
theorem decodePacket_ne_pulse {h : CmdWord} {codes : List CmdWord} {d : Dur} :
    decodePacket (h :: codes) ≠ .ok (.ph d) ∧ decodePacket (h :: codes) ≠ .ok (.pl d) := by
  simp only [decodePacket, decodeHeader, decodeSend]
  constructor <;> (repeat' split) <;> simp

/-- What decodes to a SEND is well formed and carries the packet's own code words. -/
theorem wellFormed_of_decode_send {h : CmdWord} {words codes : List CmdWord} {pidx : Option (BitVec 8)}
    {plen : Option (BitVec 24)} {width : Option (BitVec 8)}
    (hd : decodePacket (h :: words) = .ok (.send codes pidx plen width)) :
    codes = words ∧ (Instr.send codes pidx plen width).wellFormed = true := by
  have hlen := length_of_decodePacket hd
  simp only [decodePacket, if_pos hlen, decodeHeader] at hd
  split at hd
  · split at hd <;> cases hd
  split at hd
  · split at hd <;> cases hd
  split at hd
  · rename_i hs
    simp only [decodeSend] at hd
    split at hd
    · cases hd
    split at hd
    · split at hd
      · cases hd
      split at hd
      · cases hd
      rename_i h1 h2
      cases hd
      simp only [packetLength, hs, true_or, if_true] at hlen
      have := (ncodesOf h).isLt
      refine ⟨rfl, ?_⟩
      simp only [Instr.wellFormed, codesFit, presentNonzero, Config.maxCodes, Bool.and_eq_true]
      exact ⟨⟨decide_eq_true (by omega), decide_eq_true h1⟩, decide_eq_true h2⟩
    · cases hd
  split at hd
  · split at hd <;> cases hd
  · cases hd

/-- What decodes to a SENDB is well formed and carries the packet's own code words. -/
theorem wellFormed_of_decode_sendb {h : CmdWord} {words codes : List CmdWord}
    (hd : decodePacket (h :: words) = .ok (.sendb codes)) : codes = words ∧ codes.length ≤ 255 := by
  have hlen := length_of_decodePacket hd
  simp only [decodePacket, if_pos hlen, decodeHeader] at hd
  split at hd
  · split at hd <;> cases hd
  split at hd
  · split at hd <;> cases hd
  split at hd
  · simp only [decodeSend] at hd
    repeat' split at hd
    all_goals cases hd
  split at hd
  · rename_i hs
    split at hd
    · cases hd
      simp only [packetLength, hs, or_true, if_true] at hlen
      have := (ncodesOf h).isLt
      exact ⟨rfl, by omega⟩
    · cases hd
  · cases hd

/-- A pulse word runs as one pulse instruction: the one of its level and its duration (30_encoding.md R63). -/
theorem exec_decodePulse (w : PulseWord) (s : State) :
    ∃ l d, w = pulseWord l d ∧ exec (decodePulse w) s = .next (drive l d s) := by
  have hlt := w.isLt
  unfold decodePulse
  cases hl : lvlOf w with
  | true =>
    refine ⟨.high, durOf w, BitVec.eq_of_toNat_eq ?_, rfl⟩
    have hb := of_decide_eq_true ((lvlOf_eq w).symm.trans hl)
    rw [pulseWord_toNat, durOf_toNat]
    simp only [Level.bit, Bool.toNat_true]
    omega
  | false =>
    refine ⟨.low, durOf w, BitVec.eq_of_toNat_eq ?_, rfl⟩
    have hb := of_decide_eq_false ((lvlOf_eq w).symm.trans hl)
    rw [pulseWord_toNat, durOf_toNat]
    simp only [Level.bit, Bool.toNat_false]
    omega

/-- The word of a pulse runs as that pulse. -/
theorem exec_pulseWord (l : Level) (d : Dur) (s : State) :
    exec (decodePulse (pulseWord l d)) s = .next (drive l d s) := by
  obtain ⟨l', d', hw, he⟩ := exec_decodePulse (pulseWord l d) s
  have h := congrArg BitVec.toNat hw
  have h1 := d.isLt
  have h2 := d'.isLt
  rw [pulseWord_toNat, pulseWord_toNat] at h
  cases l <;> cases l' <;> simp only [Level.bit, Bool.toNat_true, Bool.toNat_false] at h <;>
    first
    | omega
    | (rw [he, show d' = d from BitVec.eq_of_toNat_eq (by omega)])

/-- A block that takes words and executes nothing. -/
theorem action_accept {s : State} (hx : ∀ c, s.activity ≠ .executing c) (hc : cmdReady s = true) :
    action s = .outcome (.next (acceptWord s)) := by
  unfold action
  cases ha : s.activity with
  | waiting => rfl
  | receiving h got => exact if_pos hc
  | executing c => exact absurd ha (hx c)

/-- A block whose packet is complete. -/
theorem action_packet {s : State} {h : CmdWord} {got : List CmdWord} (ha : s.activity = .receiving h got)
    (hc : cmdReady s = false) : action s = runPacket h got s := by
  unfold action
  rw [ha]
  exact if_neg (by simp [hc])

/-- The ways a step can answer a next state, each with what the state before must be. -/
inductive StepTo (s t : State) : Prop
  /-- `rst` is asserted -/
  | reset (hr : s.rstIn.headD false = true) (ht : t = resetStep s)
  /-- the block takes a word, or waits for one -/
  | accept (hr : s.rstIn.headD false = false) (hx : ∀ c, s.activity ≠ .executing c) (hc : cmdReady s = true)
      (ht : t = acceptWord (beginStep s))
  /-- a complete packet is Illegal -/
  | illegal (hr : s.rstIn.headD false = false) (h : CmdWord) (codes : List CmdWord)
      (ha : s.activity = .receiving h codes) (hc : cmdReady s = false) (e : DecodeError)
      (hd : decodePacket (h :: codes) = .error e) (ht : t = raise .illegalCommand (beginStep s))
  /-- a complete packet runs as its command -/
  | command (hr : s.rstIn.headD false = false) (h : CmdWord) (codes : List CmdWord)
      (ha : s.activity = .receiving h codes) (i : Instr) (hd : decodePacket (h :: codes) = .ok i)
      (ht : exec i (beginStep s) = .next t)
  /-- the pulse instruction on the link runs -/
  | pulse (hr : s.rstIn.headD false = false) (c : Enclosing) (ha : s.activity = .executing c) (l : Level) (d : Dur)
      (hs : s.stage = .issued (pulseWord l d)) (ht : t = drive l d (beginStep s))
  /-- one tick of a hold passes -/
  | tick (hr : s.rstIn.headD false = false) (c : Enclosing) (ha : s.activity = .executing c)
      (hs : s.stage = .playing) (hc : s.cnt ≠ 0) (ht : t = tick (beginStep s))
  /-- the hold is over -/
  | advance (hr : s.rstIn.headD false = false) (c : Enclosing) (ha : s.activity = .executing c)
      (hs : s.stage = .playing) (hc : s.cnt = 0) (ht : advance (beginStep s) = .next t)
  /-- the pulse instruction of the position goes on the link -/
  | issue (hr : s.rstIn.headD false = false) (c : Enclosing) (ha : s.activity = .executing c)
      (hs : s.stage = .ready) (p : Pos) (hq : s.seq = some (.pos p)) (ht : issuePulse p (beginStep s) = .next t)
  /-- the transmission is over -/
  | done (hr : s.rstIn.headD false = false) (c : Enclosing) (ha : s.activity = .executing c)
      (hs : s.stage = .ready) (hq : s.seq = some .done) (ht : t = finish none (beginStep s))

/-- What a step that answers a next state has done. -/
theorem step_cases {s t : State} (h : step s = .next t) : StepTo s t := by
  cases hr : s.rstIn.headD false with
  | true =>
    rw [step_of_rst_high hr] at h
    cases h
    exact .reset hr rfl
  | false =>
    rw [step_of_rst_low hr] at h
    unfold action at h
    rw [beginStep_activity] at h
    cases ha : s.activity with
    | waiting =>
      simp only [ha] at h
      cases h
      exact .accept hr (by simp [ha]) (by simp [cmdReady, ha]) rfl
    | receiving hd got =>
      simp only [ha] at h
      have hready : cmdReady (beginStep s) = cmdReady s := rfl
      rw [hready] at h
      cases hc : cmdReady s with
      | true =>
        simp only [hc, if_true] at h
        cases h
        exact .accept hr (by simp [ha]) hc rfl
      | false =>
        simp only [hc, Bool.false_eq_true, if_false, runPacket] at h
        cases hdec : decodePacket (hd :: got) with
        | ok i => simp only [hdec] at h; exact .command hr hd got ha i hdec h
        | error e => simp only [hdec] at h; cases h; exact .illegal hr hd got ha hc e hdec rfl
    | executing c =>
      simp only [ha, playAction, beginStep_stage] at h
      cases hs : s.stage with
      | issued w =>
        simp only [hs] at h
        obtain ⟨l, d, rfl, he⟩ := exec_decodePulse w (beginStep s)
        rw [he] at h
        cases h
        exact .pulse hr c ha l d hs rfl
      | playing =>
        simp only [hs] at h
        by_cases hc : (beginStep s).cnt = 0
        · rw [if_pos hc] at h; exact .advance hr c ha hs hc h
        · rw [if_neg hc] at h; cases h; exact .tick hr c ha hs hc rfl
      | ready =>
        simp only [hs, beginStep_seq] at h
        cases hq : s.seq with
        | none => simp only [hq] at h; cases h
        | some q =>
          cases q with
          | done => simp only [hq] at h; cases h; exact .done hr c ha hs hq rfl
          | pos p => simp only [hq] at h; exact .issue hr c ha hs p hq h

/-! ### Runs -/

/-- A run of no steps. -/
theorem run_zero (s : State) : core.run 0 s = .next s := rfl

/-- A run whose first step answers a next state. -/
theorem run_succ {s t : State} (h : step s = .next t) (n : Nat) : core.run (n + 1) s = core.run n t := by
  have h' : core.step s = .next t := h
  simp only [Host.Core.run, h']

/-- A run in two parts. -/
theorem run_add {m : Nat} : ∀ {s t : State}, core.run m s = .next t → ∀ n, core.run (m + n) s = core.run n t := by
  induction m with
  | zero =>
    intro s t h n
    cases h
    rw [Nat.zero_add]
  | succ m ih =>
    intro s t h n
    cases hs : step s with
    | next u =>
      rw [run_succ hs] at h
      rw [show m + 1 + n = m + n + 1 by omega, run_succ hs]
      exact ih h n
    | fault r =>
      have h' : core.step s = .fault r := hs
      simp only [Host.Core.run, h'] at h
      cases h
    | refused r =>
      have h' : core.step s = .refused r := hs
      simp only [Host.Core.run, h'] at h
      cases h

/-- What holds at the start and is kept by every step holds at the end of a run. -/
theorem run_induction {Q : State → Prop} (hstep : ∀ s t, Q s → step s = .next t → Q t) :
    ∀ (n : Nat) (s t : State), Q s → core.run n s = .next t → Q t := by
  intro n
  induction n with
  | zero =>
    intro s t hs h
    cases h
    exact hs
  | succ n ih =>
    intro s t hq h
    cases hs : step s with
    | next u =>
      rw [run_succ hs] at h
      exact ih u t (hstep s u hq hs) h
    | fault r =>
      have h' : core.step s = .fault r := hs
      simp only [Host.Core.run, h'] at h
      cases h
    | refused r =>
      have h' : core.step s = .refused r := hs
      simp only [Host.Core.run, h'] at h
      cases h

end Sys2Proof.Machine
end

