-- ==== Sys2Proof/Laws/Waveform.lean ====
section
/-! SUPPORT. Counts and durations of the WaveformGenerator's lists, step by step. -/

namespace Sys2Proof.Machine

@[simp] theorem rep_zero {α : Type} (l : List α) : rep 0 l = [] := rfl
theorem rep_succ {α : Type} (n : Nat) (l : List α) : rep (n + 1) l = l ++ rep n l := rfl

/-- The length of a repeated list. -/
theorem length_rep {α : Type} (n : Nat) (l : List α) : (rep n l).length = n * l.length := by
  induction n with
  | zero => simp
  | succ n ih => rw [rep_succ, List.length_append, ih, Nat.succ_mul]; omega

@[simp] theorem totalDuration_nil : totalDuration [] = 0 := rfl
@[simp] theorem totalDuration_cons (p : Pulse) (ps : List Pulse) :
    totalDuration (p :: ps) = p.dur.toNat + totalDuration ps := by simp [totalDuration]
@[simp] theorem totalDuration_append (ps qs : List Pulse) :
    totalDuration (ps ++ qs) = totalDuration ps + totalDuration qs := by simp [totalDuration]

/-- The duration of a repeated list. -/
theorem totalDuration_rep (n : Nat) (l : List Pulse) : totalDuration (rep n l) = n * totalDuration l := by
  induction n with
  | zero => simp
  | succ n ih => rw [rep_succ, totalDuration_append, ih, Nat.succ_mul]; omega

@[simp] theorem pulseEvents_nil : pulseEvents [] = [] := rfl
@[simp] theorem pulseEvents_cons (p : Pulse) (ps : List Pulse) :
    pulseEvents (p :: ps) = .wr p.level p.dur :: pulseEvents ps := rfl
@[simp] theorem pulseEvents_append (ps qs : List Pulse) :
    pulseEvents (ps ++ qs) = pulseEvents ps ++ pulseEvents qs := by simp [pulseEvents]

@[simp] theorem dataPulses_nil (P : Protocol) (pl : BitVec 24) : dataPulses P pl [] = [] := rfl
@[simp] theorem dataPulses_cons (P : Protocol) (pl : BitVec 24) (b : Bool) (bits : List Bool) :
    dataPulses P pl (b :: bits) = ⟨.high, bitHigh P pl b⟩ :: ⟨.low, bitLow P pl b⟩ :: dataPulses P pl bits := rfl

/-- Two pulse instructions for each data bit. -/
theorem length_dataPulses (P : Protocol) (pl : BitVec 24) (bits : List Bool) :
    (dataPulses P pl bits).length = 2 * bits.length := by
  induction bits with
  | nil => rfl
  | cons b bits ih => simp [ih]; omega

end Sys2Proof.Machine
end

