-- ==== Sys2Proof/Tests/Slice0.lean ====
section
/-! SUPPORT. Tests: words written out from the spec's encodings, single steps on the fixtures of
spec/95_test_vectors.md, the ill-formed terms that WellFormed refuses, and for each statement with hypotheses a concrete
case that meets them. -/

namespace Sys2Proof.Tests

open Sys2Proof Sys2Proof.Machine

/-! ### Fixtures (95_test_vectors.md section 0) -/

/-- FIXA. -/
def fixA : Protocol := ⟨100, 5000, 1, 0, 3000, 1000, 1, 3, 3, 1⟩
/-- FIXB. -/
def fixB : Protocol := ⟨40, 10000, 2, 1500, 4800, 1500, 5, 10, 10, 5⟩
/-- FIXC. -/
def fixC : Protocol := ⟨1, 0, 0, 0, 0, 0, 0, 0, 0, 0⟩
/-- FIXD. -/
def fixD : Protocol := ⟨7, 20, 0, 9, 0, 0, 2, 1, 1, 2⟩
/-- The session fixture S(1), and S0(1) with `proto = 0`. -/
def fixParams (proto : BitVec 8) : Params := ⟨⟨fixA, fixB⟩, 1, proto, none, 0⟩
/-- S(1) after reset. -/
def idle : State := State.init (fixParams 1)
/-- S(1) after ENABLE. -/
def armedS : State := { idle with en := true, pinOe := true, trace := [.cfgOut] }
/-- A state in which a packet stands received. -/
def received (h : CmdWord) (codes : List CmdWord) (s : State) : State :=
  { s with busy := true, activity := .receiving h codes }
/-- Inside a SEND or SENDB of the code 5 at width 3, before its first pulse (V30). -/
def launched (c : Enclosing) : State :=
  { armedS with
    busy := true, activity := .executing c, nc := 1, codebuf := [5], codelen := 3
    seq := some (.pos ⟨0, 0, .syncH, 0⟩) }
/-- The state of an outcome. -/
def stateOf : Host.Outcome State Fault Refusal → Option State
  | .next s => some s
  | .fault _ => none
  | .refused _ => none

/-! ### WellFormed refuses -/

/-- 256 codes do not fit a packet, 255 do. -/
theorem test_codesFit : codesFit (List.replicate 256 0) = false ∧ codesFit (List.replicate 255 0) = true := by
  unfold codesFit
  rw [List.length_replicate, List.length_replicate]
  decide
theorem test_illformed_send_codes : (Instr.send (List.replicate 256 0) none none none).wellFormed = false := by
  rw [Instr.wellFormed, test_codesFit.1]
  rfl
theorem test_wellformed_send_codes : (Instr.send (List.replicate 255 0) none none none).wellFormed = true := by
  rw [Instr.wellFormed, test_codesFit.2]
  rfl
theorem test_illformed_send_plen : (Instr.send [5] none (some 0) none).wellFormed = false := by decide
theorem test_illformed_send_width : (Instr.send [5] none none (some 0)).wellFormed = false := by decide
theorem test_illformed_sendb_codes : (Instr.sendb (List.replicate 256 0)).wellFormed = false := test_codesFit.1
/-- Any protocol index is well formed, also 0 and 255 (30_encoding.md R59). -/
theorem test_wellformed_send_proto :
    (Instr.send [] (some 0) none none).wellFormed = true ∧ (Instr.send [] (some 255) none none).wellFormed = true := by
  decide

/-! ### Decoding of words written from the spec (30_encoding.md R67, 95_test_vectors.md V29, V32, V34, V36, V37, V46 to V50) -/

theorem test_decode_enable : decodeTableWord 64 0x0100000000000000 = some .enable := by decide
theorem test_decode_disable : decodeTableWord 64 0x0200000000000000 = some .disable := by decide
/-- V50; the second and third word count on from bit 64. -/
theorem test_decode_send :
    decodeTableWord 192 (0x10E0020000320402 + 0x9 * 2 ^ 64 + 0x1F * 2 ^ 128)
      = some (.send [9, 31] (some 2) (some 50) (some 4)) := by decide
/-- The header alone, its operand words 0. -/
theorem test_decode_send_header :
    decodeTableWord 64 0x1020000000000301 = some (.send [0] none none (some 3)) := by decide
/-- V34, V36, V37. -/
theorem test_decode_send_operands :
    decode (.packet [0x10C0010000320000]) = .ok (.send [] (some 1) (some 50) none) ∧
    decode (.packet [0x1060000000FA0301, 5]) = .ok (.send [5] none (some 250) (some 3)) ∧
    decode (.packet [0x10A001000000FF02, 0, 1]) = .ok (.send [0, 1] (some 1) none (some 255)) := by decide
theorem test_decode_sendb :
    decodeTableWord 128 (0x1100000000000001 + 0x0000001633BD7155 * 2 ^ 64) = some (.sendb [95357333845]) := by decide
/-- V29: `PH 300`, `PH 4294967295`. -/
theorem test_decode_ph :
    decodeTableWord 40 0x10000012C = some (.ph 300) ∧ decodeTableWord 40 0x1FFFFFFFF = some (.ph 4294967295) := by decide
/-- V29: `PL 100`, `PL 0`; a value of more than 33 bits is no pulse word. -/
theorem test_decode_pl :
    decodeTableWord 40 0x64 = some (.pl 100) ∧ decodeTableWord 40 0 = some (.pl 0) ∧
    decodeTableWord 40 (2 ^ 33) = none := by decide
/-- V46 to V49. -/
theorem test_decode_illegal :
    decodePacket [] = .error .noHeader ∧
    decodePacket [0x0000000000000000] = .error .unassignedOpcode ∧
    decodePacket [0x0100000000000001] = .error .mustBeZero ∧
    decodePacket [0x02FF000000000000] = .error .mustBeZero ∧
    decodePacket [0x1020000000000001, 5] = .error .zeroWidth ∧
    decodePacket [0x1000000000000501, 5] = .error .fieldWithoutPresence ∧
    decodePacket [0x1040000000000000] = .error .zeroPulseLength ∧
    decodePacket [0x1001000000000000] = .error .mustBeZero ∧
    decodePacket [0x1100000000000100] = .error .mustBeZero ∧
    decodePacket [0x1200000000000002] = .error .unassignedOpcode ∧
    packetLength 0x1200000000000002 = 1 ∧
    decodePacket [0x0100000000000000, 0] = .error .wrongLength := by decide
/-- V29. -/
theorem test_encode_pulses :
    encode (.ph 300) = .pulse 0x10000012C ∧ encode (.pl 100) = .pulse 0x64 ∧
    encode (.ph 4294967295) = .pulse 0x1FFFFFFFF := by decide
/-- Text of events and responses (30_encoding.md R65). -/
theorem test_texts :
    eventText (.wr .high 300) = "Wr(HIGH, 300)" ∧
    responseText (some .codeTooWide) = "FAIL(CodeTooWide)" := by decide
/-- Numbers in the three bases, and a pulse line (30_encoding.md R65). -/
theorem test_assemble :
    assemble (fun _ => []) "SENDB codes=0x10,0b101,7".toList = some (.packet [0x1100000000000003, 16, 5, 7]) ∧
    assemble (fun _ => []) "PH 300".toList = some (.pulse 0x10000012C) ∧
    assemble (fun _ => []) "SEND proto=256 codes=".toList = none := by decide

/-! ### Fetch: the next step runs the word that was placed -/

theorem test_fetch_enable :
    (stateOf (step (idle.withFetchWord 64 0x0100000000000000))).map (fun t => (t.en, t.pinOe, t.trace, t.rsp))
      = some (true, true, [.cfgOut], some 0x0) := by decide
theorem test_fetch_send :
    (stateOf (step (armedS.withFetchWord 64 0x1020000000000301))).map (fun t => (t.codelen, t.nc, t.codebuf, t.seq))
      = some (3, 1, [0], some (.pos ⟨0, 0, .syncH, 0⟩)) := by decide
theorem test_fetch_ph :
    (stateOf (step (armedS.withFetchWord 40 0x10000012C))).map (fun t => (t.pinOut, t.cnt, t.trace))
      = some (true, 300, [.cfgOut, .wr .high 300]) := by decide

/-! ### Single steps (95_test_vectors.md part 2) -/

/-- V38: a second ENABLE emits nothing. -/
theorem test_enable_armed :
    (stateOf (exec .enable armedS)).map (fun t => (t.en, t.pinOe, t.trace, t.rsp))
      = some (true, true, [.cfgOut], some 0x0) := by decide
/-- V8, V39. -/
theorem test_disable :
    (stateOf (exec .disable { armedS with pinOut := true })).map (fun t => (t.en, t.pinOe, t.pinOut, t.trace))
      = some (false, false, false, [.cfgOut, .cfgIn]) ∧
    (stateOf (exec .disable idle)).map (fun t => (t.en, t.trace, t.rsp)) = some (false, [], some 0x0) := by decide
/-- V33: the overrides of a SEND that fails stay. -/
theorem test_send_too_wide :
    (stateOf (exec (.send [1, 4] (some 2) (some 50) (some 2)) armedS)).map
        (fun t => (t.rsp, t.codelen, t.proto, t.plen, t.trace))
      = some (some 0xA, 2, 2, 50, [.cfgOut]) := by decide
/-- V32, V51: the order of the checks. -/
theorem test_send_order :
    (stateOf (exec (.send [7] (some 9) none (some 1)) idle)).map (fun t => (t.rsp, t.codelen)) = some (some 0xB, 40) ∧
    (stateOf (exec (.send [7] (some 9) none (some 1)) armedS)).map (fun t => (t.rsp, t.codelen)) = some (some 0x9, 40) ∧
    (stateOf (exec (.send [] (some 0) none none) armedS)).map (fun t => t.rsp) = some (some 0x9) := by decide
/-- V42, both failures of SENDB. -/
theorem test_sendb_fails :
    (stateOf (exec (.sendb [0x10000000000]) idle)).map (fun t => (t.rsp, t.trace, t.en))
      = some (some 0xA, [.cfgOut, .cfgIn], false) ∧
    (stateOf (exec (.sendb [1]) (State.init (fixParams 0)))).map (fun t => (t.rsp, t.trace, t.en))
      = some (some 0xC, [.cfgOut, .cfgIn], false) := by decide
/-- V40: SENDB of no codes keeps the session state. -/
theorem test_sendb_empty :
    (stateOf (exec (.sendb []) armedS)).map (fun t => (t.rsp, t.trace, t.en)) = some (some 0x0, [.cfgOut], true) := by
  decide
/-- V28, V29: `PH 0` drives the pin. -/
theorem test_ph_zero :
    (stateOf (exec (.ph 0) armedS)).map (fun t => (t.pinOut, t.pinWr, t.cnt, t.trace))
      = some (true, true, 0, [.cfgOut, .wr .high 0]) := by decide
/-- V28: a `PL` on a low pin is a write. -/
theorem test_pl_low :
    (stateOf (exec (.pl 5000) armedS)).map (fun t => (t.pinOut, t.pinWr, t.cnt, t.trace))
      = some (false, true, 5000, [.cfgOut, .wr .low 5000]) := by decide
/-- V53: reset in the middle of a `HIGH` pulse. -/
theorem test_reset_in_hold :
    (stateOf (step { launched .send with
        rstIn := [true], stage := .playing, pinOut := true, cnt := 2000, trace := [.cfgOut, .wr .high 3000] })).map
        (fun t => (t.pinOe, t.pinOut, t.seq, t.cnt, t.trace))
      = some (false, false, none, 0, [.cfgOut, .wr .high 3000, .cfgIn]) := by decide

/-! ### Pure functions (V14 to V24) -/

/-- V16, V15. -/
theorem test_encode :
    encodeCode 8 3 = .error .codeTooWide ∧ encodeCode 7 3 = .ok [true, true, true] ∧
    encodeCode 2 1 = .error .codeTooWide ∧ encodeCode 9 4 = .ok [true, false, false, true] := by decide
/-- V22. -/
theorem test_block :
    (block fixB 50 [true, false, false, true]).map (fun p => (p.level.bit, p.dur.toNat))
      = [(true, 4800), (false, 1500), (true, 4800), (false, 1500), (false, 1500), (true, 500), (false, 250),
        (true, 250), (false, 500), (true, 250), (false, 500), (true, 500), (false, 250), (false, 10000)] := by decide
/-- V23, V24. -/
theorem test_block_no_sync :
    (block fixC 1 [false, true]).map (fun p => (p.level.bit, p.dur.toNat))
      = [(true, 0), (false, 0), (true, 0), (false, 0), (false, 0)] ∧
    (block fixD 7 [true, false]).map (fun p => (p.level.bit, p.dur.toNat))
      = [(false, 9), (true, 7), (false, 14), (true, 14), (false, 7), (false, 20)] := by decide

/-! ### Witnesses: each statement's hypotheses are met -/

theorem witness_DecodeOfEncode :
    (Instr.send [9, 31] (some 2) (some 50) (some 4)).wellFormed = true ∧ (Instr.sendb [0]).wellFormed = true ∧
    Instr.enable.wellFormed = true ∧ (Instr.ph 4294967295).wellFormed = true := by decide

theorem witness_EncodeOfDecode :
    decode (.packet [0x10E0020000320402, 9, 31]) = .ok (.send [9, 31] (some 2) (some 50) (some 4)) ∧
    decode (.pulse 0x1FFFFFFFF) = .ok (.ph 4294967295) := by decide

theorem witness_PulseWordReading :
    (0x100000000 : PulseWord).toNat / 2 ^ 32 = 1 ∧ (0x1FFFFFFFF : PulseWord).toNat / 2 ^ 32 = 1 ∧
    (0 : PulseWord).toNat / 2 ^ 32 = 0 ∧ (0xFFFFFFFF : PulseWord).toNat / 2 ^ 32 = 0 := by decide

theorem witness_ShutterIsOneSendb :
    resolve ((fun _ => [(['l'], [("up".toList, 0x111)]), (['m'], [("up".toList, 0x222)])] : List Char → Groups)
      "lroom".toList) "up".toList = some [0x111, 0x222] ∧
    resolve [(['l'], [])] "up".toList = none ∧ resolve [] "up".toList = some [] ∧
    "lroom".toList ≠ [] ∧ ' ' ∉ "lroom".toList ∧ "up".toList ≠ [] ∧ ' ' ∉ "up".toList ∧
    "9,31".toList ≠ [] ∧ ' ' ∉ "9,31".toList ∧ ' ' ∉ ([] : List Char) ∧
    "9".toList ≠ [] ∧ (∀ t ∈ ["9".toList, "31".toList], ',' ∉ t) ∧
    "9,31".toList = List.intercalate [','] ["9".toList, "31".toList] := by decide

theorem witness_GetReadsTheTable : (0 : BitVec 8).toNat = 0 ∧ Config.nproto < (3 : BitVec 8).toNat := by decide

theorem witness_BitlenIsNaturalLength : (1 : Nat) ≠ 0 ∧ (2 ^ 40 : Nat) ≠ 0 := by decide

theorem witness_DurationProductExact :
    (⟨.high, 3000⟩ : Pulse) ∈ syncPulses fixA ∧ (⟨.low, 1500⟩ : Pulse) ∈ syncDelay fixB ∧
    (⟨.low, 5000⟩ : Pulse) ∈ repeatDelay fixA := by decide

theorem witness_EncodeGivesTheBits :
    1 ≤ 3 ∧ 2 ^ 3 ≤ 8 ∧ 7 < 2 ^ 3 ∧ 64 ≤ 255 := by decide

theorem witness_EncodeLosesNothing :
    encodeCode 5 3 = .ok [true, false, true] ∧ 3 < 8 := by decide

theorem witness_NominalDurations : encodeCode 5 3 = .ok [true, false, true] ∧ 2 < 3 := by decide

theorem witness_SequencerPlaysTheSequence :
    1 ≤ 2 ∧ ∀ b ∈ [[true, false], [false, true]], b.length = 2 := by decide

/-- The boundary of two writes, a pulse of no width, and a time after the last write. -/
theorem witness_WriteTimesAreSums :
    let ps : List Pulse := [⟨.high, 300⟩, ⟨.low, 100⟩]
    ps[0]? = some ⟨.high, 300⟩ ∧ ps[1]? = some ⟨.low, 100⟩ ∧
    7 + totalDuration (ps.take 0) ≤ 7 ∧ 306 < 7 + totalDuration (ps.take 1) ∧
    7 + totalDuration (ps.take 1) ≤ 307 ∧ 1 + 1 = ps.length := by decide

theorem witness_SendLaunches :
    armedS.en = true ∧ (Instr.send [5] (some 2) (some 1) (some 3)).wellFormed = true ∧
    validIndex 2 = true ∧ encodeAll 3 [5] = .ok [[true, false, true]] ∧
    validIndex ((none : Option (BitVec 8)).getD armedS.proto) = true ∧
    getProtocol armedS.params.table 2 = .ok fixB ∧
    (Instr.send [] none none none).wellFormed = true ∧ encodeAll 40 [] = .ok [] := by decide

theorem witness_SendRefusedBeforeStoring :
    (Instr.send [1] none none none).wellFormed = true ∧ idle.en = false ∧
    (Instr.send [1] (some 3) none (some 5)).wellFormed = true ∧ armedS.en = true ∧ validIndex 3 = false ∧
    validIndex 0 = false ∧ validIndex 255 = false := by decide

theorem witness_SendFailsAfterStoring :
    (Instr.send [1, 4] none none (some 2)).wellFormed = true ∧ armedS.en = true ∧
    2 ^ ((some 2 : Option (BitVec 8)).getD 40).toNat ≤ (4 : CmdWord).toNat ∧
    (1 : CmdWord).toNat < 2 ^ ((none : Option (BitVec 8)).getD 40).toNat ∧
    validIndex ((none : Option (BitVec 8)).getD ({ armedS with proto := 0 } : State).proto) = false ∧
    [(1 : CmdWord)] ≠ [] := by decide

theorem witness_UnencodableOperandsAreIllegal :
    (∀ c, armedS.activity ≠ .executing c) ∧ 255 < (List.replicate 256 (0 : CmdWord)).length := by
  exact ⟨fun c h => (by cases h), by rw [List.length_replicate]; decide⟩

theorem witness_SendbLaunches :
    [95357333845] ≠ ([] : List CmdWord) ∧ [95357333845].length ≤ 255 ∧
    (∃ bs, encodeAll 40 [95357333845] = .ok bs) ∧ getProtocol idle.params.table idle.proto = .ok fixA :=
  ⟨by decide, by decide, ⟨_, rfl⟩, by decide⟩

theorem witness_SendbFailsDisarmed :
    2 ^ 40 ≤ (0x10000000000 : CmdWord).toNat ∧ (0xFFFFFFFFFF : CmdWord).toNat < 2 ^ 40 ∧
    validIndex (State.init (fixParams 0)).proto = false := by decide

/-- For PulseHighDrives, PulseLowDrives and PulseRefusedWhenIdle with its second clause. -/
theorem witness_Pulses :
    (launched .send).en = true ∧ idle.en = false ∧
    ({ launched .send with en := false } : State).activity = .executing .send := by decide

theorem witness_RaiseEndsTheCommand :
    (launched .sendb).activity = .executing .sendb ∧ (launched .sendb).en = true ∧
    (launched .send).activity = .executing .send ∧ (∀ c, idle.activity ≠ .executing c) :=
  ⟨rfl, rfl, rfl, fun c h => by cases h⟩

theorem witness_StepRunsThePacket :
    let s := received 0x1020000000000301 [5] armedS
    s.rstIn.headD false = false ∧ s.activity = .receiving 0x1020000000000301 [5] ∧
    decodePacket [0x1020000000000301, 5] = .ok (.send [5] none none (some 3)) := by decide

theorem witness_StepRunsThePulse :
    let s : State := { launched .send with stage := .issued 0x100000BB8 }
    s.rstIn.headD false = false ∧ s.activity = .executing .send ∧ s.stage = .issued 0x100000BB8 := by decide

theorem witness_IllegalPacketChangesNothing :
    let s := received 0x1020000000000001 [5] idle
    s.rstIn.headD false = false ∧ s.activity = .receiving 0x1020000000000001 [5] ∧
    [(5 : CmdWord)].length + 1 = packetLength 0x1020000000000001 ∧
    (∀ i, decodePacket [0x1020000000000001, 5] ≠ .ok i) ∧ s.seq = none ∧ s.stage = .ready ∧ s.cnt = 0 := by
  refine ⟨rfl, rfl, by decide, fun i h => ?_, rfl, rfl, rfl⟩
  have : decodePacket [0x1020000000000001, 5] = .error .zeroWidth := by decide
  rw [this] at h
  cases h

/-- The first word of a packet, a code word, and no word in either place. -/
theorem witness_ReceptionHasNoEffect :
    idle.rstIn.headD false = false ∧ idle.activity = .waiting ∧ idle.cmdIn = [] ∧
    ({ idle with cmdIn := [0x1020000000000301] } : State).cmdIn = 0x1020000000000301 :: [] ∧
    (received 0x1020000000000301 [] idle).activity = .receiving 0x1020000000000301 [] ∧
    ([] : List CmdWord).length + 1 < packetLength 0x1020000000000301 := by decide

/-- The shortest and the longest hold. -/
theorem witness_HoldLastsItsTicks :
    let s (n : BitVec 32) : State := { launched .send with stage := .playing, cnt := n }
    NoReset (s 1) ∧ (s 1).activity = .executing .send ∧ (s 1).stage = .playing ∧ (s 1).cnt ≠ 0 ∧
    (s 4294967295).cnt ≠ 0 := by decide

theorem witness_ResetAbandonsEverything :
    ({ launched .send with rstIn := [true] } : State).rstIn.headD false = true := by decide

theorem witness_ResetValues :
    (fixParams 1).defaultPulseLen = none ∧
    ({ fixParams 1 with defaultPulseLen := some 250 } : Params).defaultPulseLen = some 250 := by decide

/-- A state with a complete packet meets the invariant. -/
theorem witness_Inv_received : Inv (received 0x1020000000000301 [5] armedS) :=
  ⟨⟨by decide, by decide, fun h => (by cases h), fun _ => rfl, rfl, by decide, rfl⟩, ⟨rfl, fun _ => rfl⟩,
    ⟨rfl, by decide, rfl, rfl, rfl, rfl⟩⟩

/-- A state at the start of a transmission meets the invariant. -/
theorem witness_Inv_launched (c : Enclosing) : Inv (launched c) := by
  cases c <;>
    exact ⟨⟨by decide, by decide, fun h => (by cases h), fun _ => rfl, rfl, by decide, rfl⟩, ⟨rfl, fun _ => rfl⟩,
      ⟨rfl, rfl, ⟨[[true, false, true]], by decide⟩, fixA, rfl, ⟨by decide, by decide, by decide⟩, rfl, rfl⟩⟩

theorem witness_EffectivePulseLengthPositive :
    RegsOk (launched .send) ∧ getProtocol (launched .send).params.table (launched .send).proto = .ok fixA :=
  ⟨(witness_Inv_launched .send).regs, rfl⟩

theorem witness_StepKeepsInv :
    Inv (received 0x1020000000000301 [5] armedS) ∧
    ∃ t, step (received 0x1020000000000301 [5] armedS) = .next t ∧ t.activity = .executing .send :=
  ⟨witness_Inv_received, _, rfl, rfl⟩

theorem witness_StepAlwaysProceeds : Inv (launched .sendb) := witness_Inv_launched .sendb

/-- A run from reset that leaves a command in flight, one that ends in Armed, and one that ends in Idle. -/
theorem witness_ReachableInvariants_and_NeverKeyed :
    (∃ t, core.run 1 { State.reset with cmdIn := [0x0100000000000000], rstIn := [] } = .next t ∧ t.busy = true) ∧
    (∃ t, core.run 2 { State.reset with cmdIn := [0x0100000000000000], rstIn := [] } = .next t ∧
      t.busy = false ∧ t.en = true) ∧
    (∃ t, core.run 3 { State.reset with cmdIn := [0x0100000000000000], rstIn := [false, false, true] } = .next t ∧
      t.busy = false ∧ t.en = false) :=
  ⟨⟨_, rfl, rfl⟩, ⟨_, rfl, rfl, rfl⟩, ⟨_, rfl, rfl, rfl⟩⟩

theorem witness_StepKeepsTraceTold :
    TraceTold { launched .send with stage := .issued 0x100000BB8 } ∧
    ∃ t, step { launched .send with stage := .issued 0x100000BB8 } = .next t ∧ t.pinWr = true :=
  ⟨⟨rfl, rfl⟩, _, rfl, rfl⟩

theorem witness_ObservationsOnlyGrow :
    ∃ t, step (received 0x1100000000000001 [0x10000000000] idle) = .next t ∧ t.trace = [.cfgOut, .cfgIn] :=
  ⟨_, rfl, rfl⟩

theorem witness_OnlyPulsesWriteThePin :
    (∃ t, step { launched .send with stage := .issued 0x100000BB8 } = .next t ∧ t.pinWr = true) ∧
    (∃ t, step (launched .send) = .next t ∧ t.pinWr = false) := ⟨⟨_, rfl, rfl⟩, ⟨_, rfl, rfl⟩⟩

/-- A step that ends a command with a response. -/
theorem witness_OneResponsePerCommand :
    ∃ t, step (received 0x1020000000000201 [5] armedS) = .next t ∧ t.responses ≠ armedS.responses ∧ t.busy = false :=
  ⟨_, rfl, by decide, rfl⟩

/-- A SEND that fails, and a SENDB that fails. -/
theorem witness_ErrorsArePrecise :
    (∃ t, step (received 0x1020000000000201 [5] armedS) = .next t ∧ t.responses = armedS.responses ++ [0xA] ∧
      failOf 0xA = true) ∧
    (∃ t, step (received 0x1100000000000001 [0x10000000000] idle) = .next t ∧ t.responses = idle.responses ++ [0xA] ∧
      t.trace = idle.trace ++ [.cfgOut, .cfgIn]) :=
  ⟨⟨_, rfl, rfl, rfl⟩, ⟨_, rfl, rfl, rfl⟩⟩

theorem witness_OnlyTheseChangeTheSession :
    ∃ t, step (received 0x0100000000000000 [] idle) = .next t ∧ t.en ≠ idle.en := ⟨_, rfl, by decide⟩

theorem witness_TableAndRepeatNeverWritten :
    ∃ t, step (received 0x1080020000000000 [] armedS) = .next t ∧
      armedS.rstIn.headD false = false ∧ t.proto ≠ armedS.proto := ⟨_, rfl, rfl, by decide⟩

/-- One step that carries the code buffer along, and one that overwrites it. -/
theorem witness_CodeBufferUnread :
    (∀ c, idle.activity ≠ .executing c) ∧ (∀ c, (received 0x1000000000000000 [] armedS).activity ≠ .executing c) :=
  ⟨fun c h => (by cases h), fun c h => by cases h⟩

/-- At the first pulse, for a SEND and a SENDB, and with no code at `DONE`. -/
theorem witness_TransmissionCompletes :
    (∀ c, Inv (launched c) ∧ NoReset (launched c) ∧ (launched c).activity = .executing c ∧ AtFirst (launched c)) ∧
    AtFirst { launched .send with nc := 0, codebuf := [], seq := some .done } :=
  ⟨fun c => ⟨witness_Inv_launched c, rfl, rfl, rfl, .inr ⟨fixA, rfl, rfl⟩⟩, rfl, .inl ⟨rfl, rfl⟩⟩

theorem witness_SendPlaysItsSequence :
    let s := received 0x1020000000000301 [5] armedS
    Inv s ∧ NoReset s ∧ s.en = true ∧ s.activity = .receiving 0x1020000000000301 [5] ∧
    decodePacket [0x1020000000000301, 5] = .ok (.send [5] none none (some 3)) ∧
    getProtocol s.params.table ((none : Option (BitVec 8)).getD s.proto) = .ok fixA ∧
    encodeAll ((some 3 : Option (BitVec 8)).getD 40).toNat [5] = .ok [[true, false, true]] :=
  ⟨witness_Inv_received, rfl, rfl, rfl, by decide, rfl, by decide⟩

theorem witness_SendbPlaysInOneBracket :
    let s := received 0x1100000000000001 [95357333845] idle
    Inv s ∧ NoReset s ∧ s.activity = .receiving 0x1100000000000001 [95357333845] ∧
    decodePacket [0x1100000000000001, 95357333845] = .ok (.sendb [95357333845]) ∧
    getProtocol s.params.table s.proto = .ok fixA ∧ ∃ bs, encodeAll 40 [95357333845] = .ok bs :=
  ⟨⟨⟨by decide, by decide, fun h => (by cases h), fun _ => rfl, rfl, by decide, rfl⟩, ⟨rfl, fun _ => rfl⟩,
    ⟨rfl, by decide, rfl, rfl, rfl, rfl⟩⟩, rfl, rfl, by decide, rfl, _, rfl⟩

/-- A complete packet, and a transmission under way. -/
theorem witness_EveryCommandResponds :
    (Inv (received 0x1020000000000301 [5] armedS) ∧ NoReset (received 0x1020000000000301 [5] armedS) ∧
      (received 0x1020000000000301 [5] armedS).busy = true ∧
      cmdReady (received 0x1020000000000301 [5] armedS) = false) ∧
    (Inv (launched .sendb) ∧ NoReset (launched .sendb) ∧ (launched .sendb).busy = true ∧
      cmdReady (launched .sendb) = false) :=
  ⟨⟨witness_Inv_received, rfl, rfl, by decide⟩, witness_Inv_launched .sendb, rfl, rfl, rfl⟩

end Sys2Proof.Tests
end

section
/-! PROOFS. The statements of the state (10_state.md R30, R31): the values after reset, and the invariant of every
reachable state, which each step keeps (`step_keeps_inv`). -/

namespace Sys2Proof.Machine

/-! ### The state after reset (10_state.md R31) -/

/-- A block that takes words while the host has none: only the strobes and the used-up level of `rst` change
(70_reset_and_hazards.md R158). -/
theorem step_of_no_word {s : State} (hr : s.rstIn.headD false = false) (hx : ∀ c, s.activity ≠ .executing c)
    (hc : cmdReady s = true) (hw : s.cmdIn = []) : step s = .next (beginStep s) := by
  have hwait : acceptWord (beginStep s) = beginStep s := by simp [acceptWord, hw]
  have hact : action (beginStep s) = .outcome (.next (acceptWord (beginStep s))) :=
    action_accept (s := beginStep s) hx hc
  rw [step_of_rst_low hr, hact, hwait]

/-- After reset the block waits for a command: there is no reset vector. -/
theorem step_reset : step State.reset = .next State.reset :=
  step_of_no_word rfl (fun _ h => by cases h) rfl rfl

/-- `PLENV` and `PLEN` after reset of a block that configures no pulse length. -/
theorem init_pulseLen_none {p : Params} (h : p.defaultPulseLen = none) :
    (State.init p).plenv = false ∧ (State.init p).plen = 0 := by simp [State.init, h]

/-- `PLENV` and `PLEN` after reset of a block that configures a pulse length. -/
theorem init_pulseLen_some {p : Params} {l : BitVec 24} (h : p.defaultPulseLen = some l) :
    (State.init p).plenv = true ∧ (State.init p).plen = l := by simp [State.init, h]

/-- Settles O37: the registers by the definition of the reset state, the pulse length by whether the block configures
one, and the waiting by `step_reset`. -/
theorem resetValues : Obligations.ResetValues :=
  ⟨fun _ =>
      ⟨rfl, rfl, rfl, rfl, init_pulseLen_none, fun _ => init_pulseLen_some, rfl, rfl, rfl, rfl, rfl, rfl, rfl, rfl⟩,
    rfl, rfl, rfl, rfl, step_reset⟩

/-! ### The sequencer's positions (42_waveform.md R92)

A position in range designates a pulse instruction of its phase's level, and its successor is in range and finds the pin
at that level. -/

/-- `after_sync(ci, ri)` is in range, and what comes before it leaves the pin low. -/
theorem afterSync_inRange {P : Protocol} {W R N ci ri : Nat} (hW : 1 ≤ W) (hci : ci < N) (hri : ri < R) :
    PosInRange P W R N (afterSync P ci ri) ∧ levelBefore (afterSync P ci ri).ph = .low := by
  unfold afterSync
  split
  case isTrue hdelay => exact ⟨⟨hci, hri, hdelay, rfl⟩, rfl⟩
  case isFalse => exact ⟨⟨hci, hri, hW⟩, rfl⟩

/-- `start(ci, ri)` is in range, and what comes before it leaves the pin low. -/
theorem startBlock_inRange {P : Protocol} {W R N ci ri : Nat} (hW : 1 ≤ W) (hci : ci < N) (hri : ri < R) :
    PosInRange P W R N (startBlock P ci ri) ∧ levelBefore (startBlock P ci ri).ph = .low := by
  unfold startBlock
  split
  case isTrue hsync => exact ⟨⟨hci, hri, hsync⟩, rfl⟩
  case isFalse => exact afterSync_inRange hW hci hri

/-- `first(0)` is `DONE`, or in range with the pin low before it. -/
theorem firstPos_inRange (P : Protocol) {W : Nat} (R N : Nat) (hW : 1 ≤ W) :
    firstPos P R N = .done ∨
      ∃ p, firstPos P R N = .pos p ∧ PosInRange P W R N p ∧ levelBefore p.ph = .low := by
  unfold firstPos
  split
  · exact .inl rfl
  · exact .inr ⟨_, rfl, startBlock_inRange hW (by omega) (by omega)⟩

/-- The successor of a position in range is `DONE`, after a repeat delay, or again in range, and the level before it is
the one that the position's own pulse instruction writes. -/
theorem nextPos_inRange {P : Protocol} {W R N : Nat} {p : Pos} (hW : 1 ≤ W) (h : PosInRange P W R N p) :
    (nextPos P W R N p = .done ∧ p.ph = .repDly) ∨
      ∃ q, nextPos P W R N p = .pos q ∧ PosInRange P W R N q ∧ levelBefore q.ph = phaseLevel p.ph := by
  obtain ⟨ci, ri, ph, k⟩ := p
  obtain ⟨hci, hri, hk⟩ := h
  cases ph with
  | syncH => exact .inr ⟨_, rfl, ⟨hci, hri, hk⟩, rfl⟩
  | syncL =>
    refine .inr ?_
    simp only [nextPos]
    split
    case isTrue hlt => exact ⟨_, rfl, ⟨hci, hri, hlt⟩, rfl⟩
    case isFalse => exact ⟨_, rfl, afterSync_inRange hW hci hri⟩
  | syncDly => exact .inr ⟨_, rfl, ⟨hci, hri, hW⟩, rfl⟩
  | bitH => exact .inr ⟨_, rfl, ⟨hci, hri, hk⟩, rfl⟩
  | bitL =>
    refine .inr ?_
    simp only [nextPos]
    split
    case isTrue hlt => exact ⟨_, rfl, ⟨hci, hri, hlt⟩, rfl⟩
    case isFalse => exact ⟨_, rfl, ⟨hci, hri, rfl⟩, rfl⟩
  | repDly =>
    simp only [nextPos]
    split
    case isTrue hrep => exact .inr ⟨_, rfl, startBlock_inRange hW hci hrep⟩
    case isFalse =>
      split
      case isTrue hcode => exact .inr ⟨_, rfl, startBlock_inRange hW hcode (by omega)⟩
      case isFalse => exact .inl ⟨rfl, trivial⟩

/-- A position in range has a pulse instruction in the bits of a code of the right width. -/
theorem pulseAt_isSome {P : Protocol} {W R N : Nat} {p : Pos} (h : PosInRange P W R N p) (pl : BitVec 24)
    {b : List Bool} (hb : b.length = W) : ∃ x, pulseAt P pl b p = some x := by
  obtain ⟨ci, ri, ph, k⟩ := p
  obtain ⟨_, _, hk⟩ := h
  cases ph with
  | syncH => exact ⟨_, rfl⟩
  | syncL => exact ⟨_, rfl⟩
  | syncDly => exact ⟨_, rfl⟩
  | bitH => simp [pulseAt, List.getElem?_eq_getElem (show k < b.length from hb ▸ hk)]
  | bitL => simp [pulseAt, List.getElem?_eq_getElem (show k < b.length from hb ▸ hk)]
  | repDly => exact ⟨_, rfl⟩

/-- The level of a pulse instruction is that of its phase. -/
theorem pulseAt_level {P : Protocol} {pl : BitVec 24} {b : List Bool} {p : Pos} {x : Pulse}
    (h : pulseAt P pl b p = some x) : x.level = phaseLevel p.ph := by
  obtain ⟨ci, ri, ph, k⟩ := p
  cases ph with
  | bitH => obtain ⟨v, _, rfl⟩ := Option.map_eq_some_iff.mp h; rfl
  | bitL => obtain ⟨v, _, rfl⟩ := Option.map_eq_some_iff.mp h; rfl
  | syncH => cases h; rfl
  | syncL => cases h; rfl
  | syncDly => cases h; rfl
  | repDly => cases h; rfl

/-- With a valid protocol and codes that fit, a position in range designates a pulse instruction, and its level is that
of the position's phase: the generator neither raises nor strays. -/
theorem designated_ok {s : State} {p : Pos} {P : Protocol} {bs : List (List Bool)}
    (hP : getProtocol s.params.table s.proto = .ok P)
    (hp : PosInRange P s.codelen.toNat s.repeatReg.toNat s.nc.toNat p)
    (hlen : s.codebuf.length = s.nc.toNat) (hbs : encodeAll s.codelen.toNat s.codebuf = .ok bs) :
    ∃ x, designated s p = .ok x ∧ x.level = phaseLevel p.ph := by
  have ⟨hci, _⟩ := hp
  rw [← hlen] at hci
  have hcode := List.getElem?_eq_getElem hci
  obtain ⟨b, _, hb⟩ := encodeAll_getElem s.codebuf bs p.ci hbs hcode
  obtain ⟨x, hx⟩ := pulseAt_isSome hp (effectivePulseLen s P) (encodeCode_length hb)
  exact ⟨x, by simp only [designated, hP, hcode, hb, hx], pulseAt_level hx⟩

/-! ### The parts of the invariant

What keeps the parts of `Inv`, operation by operation. A command starts and ends `Quiet`: from such a state every
response gives `Inv`. -/

/-- The registers' invariant speaks of eight fields only, of `CODEBUF` only its length. -/
theorem RegsOk.congr {s t : State} (h : RegsOk s) (hlen : t.codebuf.length = t.nc.toNat)
    (hparams : t.params = s.params := by rfl) (hproto : t.proto = s.proto := by rfl)
    (hplenv : t.plenv = s.plenv := by rfl) (hplen : t.plen = s.plen := by rfl)
    (hrepeat : t.repeatReg = s.repeatReg := by rfl) (hcodelen : t.codelen = s.codelen := by rfl) : RegsOk t where
  params := hparams ▸ h.params
  proto_le := hproto ▸ h.proto_le
  plen_pos := by rw [hplenv, hplen]; exact h.plen_pos
  plen_zero := by rw [hplenv, hplen]; exact h.plen_zero
  repeat_fixed := by rw [hrepeat, hparams]; exact h.repeat_fixed
  codelen_pos := hcodelen ▸ h.codelen_pos
  codebuf_len := hlen

/-- The pin's invariant speaks of three fields only. -/
theorem PinOk.congr {s t : State} (h : PinOk s) (hen : t.en = s.en := by rfl) (hoe : t.pinOe = s.pinOe := by rfl)
    (hout : t.pinOut = s.pinOut := by rfl) : PinOk t where
  oe_eq_en := by rw [hoe, hen]; exact h.oe_eq_en
  out_low := by rw [hoe, hout]; exact h.out_low

/-- An operand that is present and not 0 is at least 1. -/
theorem one_le_toNat_of_ne_zero {n : Nat} {o : Option (BitVec n)} {v : BitVec n} (hv : o = some v) (h : o ≠ some 0) :
    1 ≤ v.toNat :=
  Nat.one_le_iff_ne_zero.mpr fun h0 => h (by rw [hv, (eq_zero_iff_toNat v).mpr h0])

/-- Storing the overrides of a SEND keeps the registers legal: a valid protocol index, a pulse length that is not 0, a
width of at least 1 (44_session.md R108 lines 2 to 6). -/
theorem RegsOk.store {s : State} (h : RegsOk s) {pidx : Option (BitVec 8)} {plen : Option (BitVec 24)} {w : BitVec 8}
    (hi : ∀ i, pidx = some i → validIndex i = true) (hl : plen ≠ some 0) (hw : 1 ≤ w.toNat) :
    RegsOk { s with
      proto := pidx.getD s.proto, plenv := plen.isSome || s.plenv, plen := plen.getD s.plen, codelen := w } where
  params := h.params
  proto_le := by
    cases pidx with
    | none => exact h.proto_le
    | some i => exact validIndex_le (hi i rfl)
  plen_pos := by
    cases plen with
    | none => exact h.plen_pos
    | some l => exact fun _ => one_le_toNat_of_ne_zero rfl hl
  plen_zero := by
    cases plen with
    | none => exact h.plen_zero
    | some l => exact fun h0 => by cases h0
  repeat_fixed := h.repeat_fixed
  codelen_pos := hw
  codebuf_len := h.codebuf_len

/-- The part of the invariant that does not depend on what the block is doing, with no hold running and the pin not
`HIGH`: what holds when a command starts to run and when it ends. -/
structure Quiet (s : State) : Prop where
  regs : RegsOk s
  pin : PinOk s
  cnt_zero : s.cnt = 0
  out_low : s.pinOut = false

/-- Loading the codes of a packet. -/
theorem loadCodes_keeps_quiet {s : State} (h : Quiet s) (c : Enclosing) {codes : List CmdWord}
    (hl : codes.length ≤ 255) : Quiet (loadCodes c codes s) where
  regs := h.regs.congr (toNat_nc hl).symm
  pin := h.pin.congr
  cnt_zero := h.cnt_zero
  out_low := h.out_low

/-- Dropping the codes of a command that ends. -/
theorem dropCodes_keeps_quiet {s : State} (h : Quiet s) : Quiet (dropCodes s) where
  regs := h.regs.congr (length_deadCodes _ _)
  pin := h.pin.congr
  cnt_zero := h.cnt_zero
  out_low := h.out_low

/-- The body of ENABLE. -/
theorem enableBody_keeps_quiet {s : State} (h : Quiet s) : Quiet (enableBody s) := by
  rw [enableBody_eq]
  have hoe : (if s.en then s.pinOe else true) = true := by
    rw [h.pin.oe_eq_en]; cases s.en <;> rfl
  exact ⟨h.regs.congr h.regs.codebuf_len, ⟨hoe, fun _ => h.out_low⟩, h.cnt_zero, h.out_low⟩

/-- The body of DISABLE. -/
theorem disableBody_keeps_quiet {s : State} (h : Quiet s) : Quiet (disableBody s) := by
  rw [disableBody_eq]
  have hoe : (if s.en then false else s.pinOe) = false := by
    rw [h.pin.oe_eq_en]; cases s.en <;> rfl
  have hout : (if s.en then false else s.pinOut) = false := by
    rw [h.out_low]; cases s.en <;> rfl
  exact ⟨h.regs.congr h.regs.codebuf_len, ⟨hoe, fun _ => hout⟩, h.cnt_zero, hout⟩

/-- A response leaves the block waiting. -/
theorem Quiet.inv_respond {s : State} (h : Quiet s) (r : Option ErrorKind) : Inv (respond r s) where
  regs := h.regs.congr h.regs.codebuf_len
  pin := h.pin.congr
  act := ⟨rfl, rfl, h.cnt_zero, rfl, h.out_low⟩

/-- Every end of a command leaves the block waiting. -/
theorem Quiet.inv_finish {s : State} (h : Quiet s) (r : Option ErrorKind) : Inv (finish r s) := by
  cases ha : s.activity with
  | waiting => rw [finish_other (by simp [ha])]; exact h.inv_respond r
  | receiving hd got => rw [finish_other (by simp [ha])]; exact h.inv_respond r
  | executing c =>
    cases c with
    | send => rw [finish_send ha]; exact (dropCodes_keeps_quiet h).inv_respond r
    | sendb => rw [finish_sendb ha]; exact (dropCodes_keeps_quiet (disableBody_keeps_quiet h)).inv_respond r

/-- Raising an error kind leaves the block waiting. -/
theorem Quiet.inv_raise {s : State} (h : Quiet s) (e : ErrorKind) : Inv (raise e s) :=
  Quiet.inv_finish (s := { s with seq := none, stage := .ready, cnt := 0 })
    ⟨h.regs.congr h.regs.codebuf_len, h.pin.congr, rfl, h.out_low⟩ _

/-- What the invariant says inside a SEND or SENDB. -/
theorem activityOk_executing_iff {s : State} {c : Enclosing} (ha : s.activity = .executing c) :
    ActivityOk s ↔
      s.busy = true ∧ s.en = true ∧ (∃ bs, encodeAll s.codelen.toNat s.codebuf = .ok bs) ∧
        ((s.seq = some .done ∧ s.stage = .ready ∧ s.cnt = 0 ∧ s.pinOut = false) ∨
          ∃ p, s.seq = some (.pos p) ∧ PlayingOk s p) := by
  unfold ActivityOk
  rw [ha]
  rcases hq : s.seq with _ | _ | _ <;> simp

/-- The invariant of a block inside a SEND or SENDB, from what each of its parts asks. -/
theorem Inv.of_executing {s : State} {c : Enclosing} (hregs : RegsOk s) (hpin : PinOk s)
    (ha : s.activity = .executing c) (hbusy : s.busy = true) (hen : s.en = true)
    (hbs : ∃ bs, encodeAll s.codelen.toNat s.codebuf = .ok bs)
    (hseq : (s.seq = some .done ∧ s.stage = .ready ∧ s.cnt = 0 ∧ s.pinOut = false) ∨
      ∃ p, s.seq = some (.pos p) ∧ PlayingOk s p) : Inv s :=
  ⟨hregs, hpin, (activityOk_executing_iff ha).mpr ⟨hbusy, hen, hbs, hseq⟩⟩

/-- The invariant of a block that stands at `DONE` or at a position with its pulse instruction not handed over yet and
the pin as the position expects it. -/
theorem Inv.of_ready {s : State} {c : Enclosing} {q : SeqPos} (hregs : RegsOk s) (hpin : PinOk s)
    (ha : s.activity = .executing c) (hbusy : s.busy = true) (hen : s.en = true)
    (hbs : ∃ bs, encodeAll s.codelen.toNat s.codebuf = .ok bs) (hstage : s.stage = .ready) (hcnt : s.cnt = 0)
    (hseq : s.seq = some q)
    (hq : (q = .done ∧ s.pinOut = false) ∨
      ∃ P p, q = .pos p ∧ getProtocol s.params.table s.proto = .ok P ∧
        PosInRange P s.codelen.toNat s.repeatReg.toNat s.nc.toNat p ∧ s.pinOut = (levelBefore p.ph).bit) :
    Inv s := by
  refine Inv.of_executing hregs hpin ha hbusy hen hbs ?_
  rcases hq with ⟨rfl, hout⟩ | ⟨P, p, rfl, hP, hp, hout⟩
  · exact .inl ⟨hseq, hstage, hcnt, hout⟩
  · refine .inr ⟨p, hseq, P, hP, hp, ?_⟩
    rw [hstage]
    exact ⟨hcnt, hout⟩

/-- What the invariant says outside a SEND or SENDB. -/
theorem Inv.outside {s : State} (h : Inv s) (hx : ∀ c, s.activity ≠ .executing c) :
    s.seq = none ∧ s.cnt = 0 ∧ s.stage = .ready ∧ s.pinOut = false := by
  have hact := h.act
  unfold ActivityOk at hact
  cases ha : s.activity with
  | waiting => rw [ha] at hact; exact hact.2
  | receiving hd got => rw [ha] at hact; exact hact.2.2
  | executing c => exact absurd ha (hx c)

/-- Outside a SEND or SENDB the block is quiet. -/
theorem Inv.quiet {s : State} (h : Inv s) (hx : ∀ c, s.activity ≠ .executing c) : Quiet s := by
  obtain ⟨_, hcnt, _, hout⟩ := h.outside hx
  exact ⟨h.regs, h.pin, hcnt, hout⟩

/-- The invariant tells apart by `BUSY` alone whether a command is in flight (10_state.md R17). -/
theorem Inv.waiting_of_not_busy {s : State} (h : Inv s) (hb : s.busy = false) : s.activity = .waiting := by
  have hact := h.act
  unfold ActivityOk at hact
  cases ha : s.activity with
  | waiting => rfl
  | receiving hd got => rw [ha] at hact; simp [hb] at hact
  | executing c => rw [ha] at hact; simp [hb] at hact

/-- Inside a SEND or SENDB, a pulse instruction that is on the link or is being held belongs to a position. -/
theorem Inv.playingOk {s : State} (h : Inv s) {c : Enclosing} (ha : s.activity = .executing c)
    (hs : s.stage ≠ .ready) : ∃ p, s.seq = some (.pos p) ∧ PlayingOk s p := by
  obtain ⟨_, _, _, ⟨_, hready, _⟩ | hp⟩ := (activityOk_executing_iff ha).mp h.act
  · exact absurd hready hs
  · exact hp

/-- Inside a SEND or SENDB the session is Armed and every code fits the width. -/
theorem Inv.executing {s : State} (h : Inv s) {c : Enclosing} (ha : s.activity = .executing c) :
    s.busy = true ∧ s.en = true ∧ ∃ bs, encodeAll s.codelen.toNat s.codebuf = .ok bs := by
  obtain ⟨hbusy, hen, hbs, _⟩ := (activityOk_executing_iff ha).mp h.act
  exact ⟨hbusy, hen, hbs⟩

/-! ### Every step keeps the invariant: one lemma for each way a step can go -/

/-- With sound parameters the registers are legal after reset. -/
theorem regsOk_init {p : Params} (hp : p.Sound) : RegsOk (State.init p) := by
  have ⟨_, hproto, hpulse⟩ := hp
  refine ⟨hp, hproto, ?_, ?_, rfl, show 1 ≤ Config.defaultCodeLen.toNat by decide, rfl⟩
  · intro hsome
    obtain ⟨l, hl⟩ := Option.isSome_iff_exists.mp hsome
    rw [(init_pulseLen_some hl).2]
    exact one_le_toNat_of_ne_zero hl hpulse
  · intro hnone
    have hl : p.defaultPulseLen = none := Option.isNone_iff_eq_none.mp (Option.isSome_eq_false_iff.mp hnone)
    exact (init_pulseLen_none hl).2

/-- With sound parameters the reset state meets the invariant, whatever the inputs bring. -/
theorem inv_init {p : Params} (hp : p.Sound) (words : List CmdWord) (rst : List Bool) :
    Inv { State.init p with cmdIn := words, rstIn := rst } :=
  ⟨(regsOk_init hp).congr rfl, ⟨rfl, fun _ => rfl⟩, rfl, rfl, rfl, rfl, rfl⟩

/-- The parameters of this hardware are sound. -/
theorem config_sound : Config.params.Sound := ⟨Config.protoTable.sound, by decide, by decide⟩

/-- Every packet has a header. -/
theorem packetLength_pos (h : CmdWord) : 0 < packetLength h := by
  unfold packetLength; split <;> omega

/-- Reset. -/
theorem resetStep_keeps_inv {s : State} (h : Inv s) : Inv (resetStep s) :=
  ⟨(regsOk_init h.regs.params).congr rfl, ⟨rfl, fun _ => rfl⟩, rfl, rfl, rfl, rfl, rfl⟩

/-- The end of the strobes. -/
theorem beginStep_keeps_inv {s : State} (h : Inv s) : Inv (beginStep s) :=
  ⟨h.regs.congr h.regs.codebuf_len, h.pin.congr, h.act⟩

/-- Taking a word, or waiting for one. -/
theorem acceptWord_keeps_inv {s : State} (h : Inv s) (hx : ∀ c, s.activity ≠ .executing c) (hc : cmdReady s = true) :
    Inv (acceptWord s) := by
  obtain ⟨hseq, hcnt, hstage, hout⟩ := h.outside hx
  unfold acceptWord
  cases hw : s.cmdIn with
  | nil => exact h
  | cons w rest =>
    cases ha : s.activity with
    | waiting =>
      exact ⟨h.regs.congr h.regs.codebuf_len, h.pin.congr, rfl,
        packetLength_pos w, hseq, hcnt, hstage, hout⟩
    | receiving hd got =>
      obtain ⟨hbusy, _⟩ : s.busy = true ∧ _ := by simpa only [ActivityOk, ha] using h.act
      have hlen : (got ++ [w]).length < packetLength hd := by simpa [cmdReady, ha] using hc
      exact ⟨h.regs.congr h.regs.codebuf_len, h.pin.congr, hbusy, hlen, hseq, hcnt, hstage, hout⟩
    | executing c => exact absurd ha (hx c)

/-- The body of SEND, from its checks to the start of the transmission, with operands that a packet can carry. -/
theorem Quiet.inv_sendBody {s : State} {c : Enclosing} (h : Quiet s) (ha : s.activity = .executing c)
    (hbusy : s.busy = true) (pidx : Option (BitVec 8)) {plen : Option (BitVec 24)} {w : BitVec 8}
    (hl : plen ≠ some 0) (hw : 1 ≤ w.toNat) : Inv (sendBody pidx plen w s) := by
  rcases sendBody_cases pidx plen w s with ⟨e, he⟩ | ⟨hen, hi, ⟨e, he⟩ | ⟨bs, q, hbs, hq, he⟩⟩
  · rw [he]
    exact h.inv_raise e
  · rw [he]
    exact Quiet.inv_raise ⟨h.regs.store hi hl hw, h.pin.congr, h.cnt_zero, h.out_low⟩ e
  · have hstored := h.regs.store hi hl hw
    rw [he]
    refine Inv.of_ready (hstored.congr h.regs.codebuf_len) h.pin.congr ha hbusy hen ⟨bs, hbs⟩ rfl h.cnt_zero rfl ?_
    rcases hq with ⟨_, rfl⟩ | ⟨P, _, hP, rfl⟩
    · exact .inl ⟨rfl, h.out_low⟩
    · rcases firstPos_inRange P s.repeatReg.toNat s.nc.toNat hw with hdone | ⟨p, hp, hrange, hlow⟩
      · exact .inl ⟨hdone, h.out_low⟩
      · exact .inr ⟨P, p, hp, hP, hrange, by rw [hlow]; exact h.out_low⟩

/-- A command that a packet decodes to. -/
theorem command_keeps_inv {s t : State} {hd : CmdWord} {words : List CmdWord} {i : Instr} (h : Inv s)
    (ha : s.activity = .receiving hd words) (hdec : decodePacket (hd :: words) = .ok i) (ht : exec i s = .next t) :
    Inv t := by
  have hq : Quiet s := h.quiet (by simp [ha])
  cases i with
  | enable => cases ht; exact (enableBody_keeps_quiet hq).inv_respond none
  | disable => cases ht; exact (disableBody_keeps_quiet hq).inv_respond none
  | send codes pidx plen width =>
    obtain ⟨_, hwf⟩ := wellFormed_of_decode_send hdec
    obtain ⟨hlen, hplen, _, hwidth⟩ := wellFormed_send hwf
    cases (execSend_eq hwf).symm.trans ht
    exact (loadCodes_keeps_quiet hq .send hlen).inv_sendBody rfl rfl pidx hplen hwidth
  | sendb codes =>
    obtain ⟨_, hlen⟩ := wellFormed_of_decode_sendb hdec
    have hload := loadCodes_keeps_quiet hq .sendb hlen
    by_cases hc : codes = []
    · subst hc
      cases ht
      exact (dropCodes_keeps_quiet hload).inv_respond none
    · cases (execSendb_eq hlen hc).symm.trans ht
      have hact : (enableBody (loadCodes .sendb codes s)).activity = .executing .sendb := by simp [enableBody_eq]
      have hbusy : (enableBody (loadCodes .sendb codes s)).busy = true := by simp [enableBody_eq]
      exact (enableBody_keeps_quiet hload).inv_sendBody hact hbusy none (by simp) (by decide)
  | ph d => exact absurd hdec decodePacket_ne_pulse.1
  | pl d => exact absurd hdec decodePacket_ne_pulse.2

/-- The pulse instruction on the link: it drives the pin to the level of its position's phase. -/
theorem drive_keeps_inv {s : State} {c : Enclosing} {l : Level} {d : Dur} (h : Inv s) (ha : s.activity = .executing c)
    (hs : s.stage = .issued (pulseWord l d)) : Inv (drive l d s) := by
  obtain ⟨hbusy, hen, bs, hbs⟩ := h.executing ha
  obtain ⟨p, hseq, P, hP, hp, hissued⟩ := h.playingOk ha (by simp [hs])
  rw [hs] at hissued
  obtain ⟨_, _, x, hx, hword⟩ := hissued
  obtain ⟨y, hy, hlevel⟩ := designated_ok hP hp h.regs.codebuf_len hbs
  obtain rfl : x = y := by rw [hx] at hy; exact Except.ok.inj hy
  obtain ⟨rfl, _⟩ := pulseWord_inj hword
  have hoe : s.pinOe = true := h.pin.oe_eq_en.trans hen
  rw [drive_armed hen]
  exact Inv.of_executing (h.regs.congr h.regs.codebuf_len)
    ⟨h.pin.oe_eq_en, fun hlow => absurd (hoe.symm.trans hlow) (by simp)⟩ ha hbusy hen ⟨bs, hbs⟩
    (.inr ⟨p, hseq, P, hP, hp, congrArg Level.bit hlevel⟩)

/-- One tick of a hold. -/
theorem tick_keeps_inv {s : State} {c : Enclosing} (h : Inv s) (ha : s.activity = .executing c)
    (hs : s.stage = .playing) : Inv (tick s) := by
  obtain ⟨hbusy, hen, hbs⟩ := h.executing ha
  obtain ⟨p, hseq, P, hP, hp, hout⟩ := h.playingOk ha (by simp [hs])
  have hplaying : PlayingOk (tick s) p := by
    refine ⟨P, hP, hp, ?_⟩
    rw [hs] at hout
    rw [show (tick s).stage = .playing from hs]
    exact hout
  exact Inv.of_executing (h.regs.congr h.regs.codebuf_len) h.pin.congr ha hbusy hen hbs (.inr ⟨p, hseq, hplaying⟩)

/-- The end of a hold: the sequencer advances, and the pin has the level that the next position expects. -/
theorem advance_keeps_inv {s t : State} {c : Enclosing} (h : Inv s) (ha : s.activity = .executing c)
    (hs : s.stage = .playing) (hcnt : s.cnt = 0) (ht : advance s = .next t) : Inv t := by
  obtain ⟨hbusy, hen, hbs⟩ := h.executing ha
  obtain ⟨p, hseq, P, hP, hp, hout⟩ := h.playingOk ha (by simp [hs])
  rw [hs] at hout
  have hadv : advance s = .next { s with
      seq := some (nextPos P s.codelen.toNat s.repeatReg.toNat s.nc.toNat p), stage := .ready } := by
    simp only [advance, hseq, hP]
  cases hadv.symm.trans ht
  refine Inv.of_ready (h.regs.congr h.regs.codebuf_len) h.pin.congr ha hbusy hen hbs rfl hcnt rfl ?_
  rcases nextPos_inRange h.regs.codelen_pos hp with ⟨hdone, hph⟩ | ⟨q, hq, hrange, hlevel⟩
  · exact .inl ⟨hdone, by rw [hph] at hout; exact hout⟩
  · exact .inr ⟨P, q, hq, hP, hrange, by rw [hlevel]; exact hout⟩

/-- Handing over the pulse instruction of a position puts its word on the link: the generator does not raise. -/
theorem issuePulse_keeps_inv {s t : State} {c : Enclosing} {p : Pos} (h : Inv s) (ha : s.activity = .executing c)
    (hs : s.stage = .ready) (hseq : s.seq = some (.pos p)) (ht : issuePulse p s = .next t) : Inv t := by
  obtain ⟨hbusy, hen, ⟨bs, hbs⟩, hplay⟩ := (activityOk_executing_iff ha).mp h.act
  obtain ⟨P, hP, hp, hready⟩ : PlayingOk s p := by simpa [hseq] using hplay
  rw [hs] at hready
  obtain ⟨hcnt, hout⟩ := hready
  obtain ⟨x, hx, _⟩ := designated_ok hP hp h.regs.codebuf_len hbs
  have hissue : issuePulse p s = .next { s with stage := .issued (pulseWord x.level x.dur) } := by
    simp only [issuePulse, hx]
  cases hissue.symm.trans ht
  exact Inv.of_executing (h.regs.congr h.regs.codebuf_len) h.pin.congr ha hbusy hen ⟨bs, hbs⟩
    (.inr ⟨p, hseq, P, hP, hp, hcnt, hout, x, hx, rfl⟩)

/-- The end of a transmission. -/
theorem finish_keeps_inv {s : State} {c : Enclosing} (h : Inv s) (ha : s.activity = .executing c)
    (hseq : s.seq = some .done) : Inv (finish none s) := by
  obtain ⟨_, _, _, hplay⟩ := (activityOk_executing_iff ha).mp h.act
  obtain ⟨_, hcnt, hout⟩ : s.stage = .ready ∧ s.cnt = 0 ∧ s.pinOut = false := by simpa [hseq] using hplay
  exact Quiet.inv_finish ⟨h.regs, h.pin, hcnt, hout⟩ none

/-- Every step keeps the invariant of 10_state.md R30. -/
theorem step_keeps_inv {s t : State} (h : Inv s) (ht : step s = .next t) : Inv t := by
  have hb := beginStep_keeps_inv h
  cases step_cases ht with
  | reset _ ht => exact ht ▸ resetStep_keeps_inv h
  | accept _ hx hc ht => exact ht ▸ acceptWord_keeps_inv hb hx hc
  | illegal _ hd codes ha _ e _ ht => exact ht ▸ (hb.quiet (by simp [ha])).inv_raise .illegalCommand
  | command _ hd codes ha i hdec ht => exact command_keeps_inv hb ha hdec ht
  | pulse _ c ha l d hs ht => exact ht ▸ drive_keeps_inv hb ha hs
  | tick _ c ha hs _ ht => exact ht ▸ tick_keeps_inv hb ha hs
  | advance _ c ha hs hcnt ht => exact advance_keeps_inv hb ha hs hcnt ht
  | issue _ c ha hs p hseq ht => exact issuePulse_keeps_inv hb ha hs hseq ht
  | done _ c ha _ hseq ht => exact ht ▸ finish_keeps_inv hb ha hseq

/-! ### The parameters, which no step writes (00_scope.md R5) -/

/-- The body of SEND does not write the parameters. -/
theorem sendBody_params (pidx : Option (BitVec 8)) (plen : Option (BitVec 24)) (w : BitVec 8) (s : State) :
    (sendBody pidx plen w s).params = s.params := by
  rcases sendBody_cases pidx plen w s with ⟨e, he⟩ | ⟨_, _, ⟨e, he⟩ | ⟨_, _, _, _, he⟩⟩ <;> simp [he]

/-- A pulse instruction does not write the parameters. -/
theorem drive_params (l : Level) (d : Dur) (s : State) : (drive l d s).params = s.params := by
  rcases drive_cases l d s with ⟨_, he⟩ | ⟨_, he⟩ <;> simp [he]

/-- No instruction writes the parameters. -/
theorem exec_params {i : Instr} {s t : State} (ht : exec i s = .next t) : t.params = s.params := by
  cases i with
  | enable => cases ht; simp [enableBody_eq]
  | disable => cases ht; simp [disableBody_eq]
  | send codes pidx plen width =>
    cases ht
    split <;> simp [sendBody_params]
  | sendb codes =>
    cases ht
    split
    · split <;> simp [sendBody_params, enableBody_eq]
    · simp
  | ph d => cases ht; exact drive_params .high d s
  | pl d => cases ht; exact drive_params .low d s

/-- Taking a word does not write the parameters. -/
theorem acceptWord_params (s : State) : (acceptWord s).params = s.params := by
  unfold acceptWord
  split
  · rfl
  · split <;> rfl

/-- The end of a hold does not write the parameters. -/
theorem advance_params {s t : State} (h : advance s = .next t) : t.params = s.params := by
  rcases advance_cases s with ⟨_, he⟩ | ⟨_, he⟩ | ⟨_, _, ⟨_, he⟩ | ⟨_, _, he⟩⟩ <;>
    cases he.symm.trans h
  · rfl
  · exact raise_params _ s
  · rfl

/-- Handing over a pulse instruction does not write the parameters. -/
theorem issuePulse_params {p : Pos} {s t : State} (h : issuePulse p s = .next t) : t.params = s.params := by
  rcases issuePulse_cases p s with ⟨_, _, he⟩ | ⟨_, _, he⟩ | ⟨_, he⟩ <;> cases he.symm.trans h
  · rfl
  · exact raise_params _ s

/-- No step writes the parameters, reset included. -/
theorem step_params {s t : State} (h : step s = .next t) : t.params = s.params := by
  cases step_cases h with
  | reset _ ht => rw [ht]; rfl
  | accept _ _ _ ht => rw [ht, acceptWord_params]; rfl
  | illegal _ _ _ _ _ _ _ ht => rw [ht, raise_params]; rfl
  | command _ _ _ _ i _ ht => exact (exec_params ht).trans (beginStep_params s)
  | pulse _ _ _ l d _ ht => rw [ht, drive_params]; rfl
  | tick _ _ _ _ _ ht => rw [ht]; rfl
  | advance _ _ _ _ _ ht => exact (advance_params ht).trans (beginStep_params s)
  | issue _ _ _ _ p _ ht => exact (issuePulse_params ht).trans (beginStep_params s)
  | done _ _ _ _ _ ht => rw [ht, finish_params]; rfl

/-! ### Every reachable state (10_state.md R30) -/

/-- Every run from reset keeps the invariant and the parameters of this hardware, whatever words the host sends and
whenever it asserts reset. -/
theorem inv_of_run_reset {words : List CmdWord} {rst : List Bool} {n : Nat} {t : State}
    (h : core.run n { State.reset with cmdIn := words, rstIn := rst } = .next t) :
    Inv t ∧ t.params = Config.params :=
  run_induction (Q := fun s => Inv s ∧ s.params = Config.params)
    (fun _ _ ⟨hinv, hparams⟩ ht => ⟨step_keeps_inv hinv ht, (step_params ht).trans hparams⟩) n _ t
    ⟨inv_init config_sound words rst, rfl⟩ h

/-- Settles O41: each clause is read off the invariant, which `step_keeps_inv` keeps, and `REPEAT` off the parameters. -/
theorem reachableInvariants : Obligations.ReachableInvariants := by
  intro words rst n t h
  obtain ⟨hinv, hparams⟩ := inv_of_run_reset h
  have hcodelen : t.codelen.toNat ≤ 255 := Nat.le_of_lt_succ t.codelen.isLt
  have hrepeat : t.repeatReg = Config.repeatCount := hinv.regs.repeat_fixed.trans (congrArg Params.repeatCount hparams)
  have hidle (hb : t.busy = false) : t.seq = none ∧ t.cnt = 0 := by
    obtain ⟨hseq, hcnt, _⟩ := hinv.outside (by simp [hinv.waiting_of_not_busy hb])
    exact ⟨hseq, hcnt⟩
  exact ⟨hinv.pin.oe_eq_en, hinv.pin.out_low, hinv.regs.proto_le, hinv.regs.plen_pos, hinv.regs.plen_zero,
    hinv.regs.codelen_pos, hcodelen, hrepeat, hidle⟩

end Sys2Proof.Machine
end

section
/-! PROOFS. The statements of the encoding (30_encoding.md R57 to R63, R67): which packets decode, said first of the
header's fields and then of the header as a number, the worked encodings, and the reading of a pulse word. -/

namespace Sys2Proof

/-! ### The packets that decode (30_encoding.md R57, R59, R60) -/

/-- An optional operand as its presence bit gives it (30_encoding.md R56). -/
def operandOf {n : Nat} (present : Bool) (v : BitVec n) : Option (BitVec n) := if present then some v else none

/-- Reading an optional operand succeeds exactly when an absent operand's field is 0. -/
theorem optField_eq_ok_iff {n : Nat} {present : Bool} {v : BitVec n} {o : Option (BitVec n)} :
    optField present v = .ok o ↔ (present = false → v = 0) ∧ o = operandOf present v := by
  cases present with
  | true => exact ⟨fun h => ⟨nofun, (Except.ok.inj h).symm⟩, fun ⟨_, h⟩ => h ▸ rfl⟩
  | false =>
    by_cases hv : v = 0
    · subst hv
      exact ⟨fun h => ⟨fun _ => rfl, (Except.ok.inj h).symm⟩, fun ⟨_, h⟩ => h ▸ rfl⟩
    · simp only [optField, Bool.false_eq_true, if_false, reduceCtorEq, forall_const, hv, false_and]

/-- An operand that is read is 0 only when it is present with a field of 0. -/
theorem operandOf_ne_zero_iff {n : Nat} {present : Bool} {v : BitVec n} :
    operandOf present v ≠ some 0 ↔ (present = true → v ≠ 0) := by
  cases present <;> simp [operandOf]

/-- A SEND header is well formed (30_encoding.md R59). -/
structure SendHeaderOk (h : CmdWord) : Prop where
  zero : zeroSOf h = 0
  pidx_absent : pvOf h = false → pidxOf h = 0
  plength_absent : lvOf h = false → plengthOf h = 0
  plength_present : lvOf h = true → plengthOf h ≠ 0
  width_absent : wvOf h = false → widthOf h = 0
  width_present : wvOf h = true → widthOf h ≠ 0

/-- Decoding of a SEND header whose three optional operands are read. -/
theorem decodeSend_of_optFields {h : CmdWord} {codes : List CmdWord} {pidx : Option (BitVec 8)}
    {plen : Option (BitVec 24)} {width : Option (BitVec 8)} (hz : zeroSOf h = 0)
    (hp : optField (pvOf h) (pidxOf h) = .ok pidx) (hl : optField (lvOf h) (plengthOf h) = .ok plen)
    (hw : optField (wvOf h) (widthOf h) = .ok width) (hplen : plen ≠ some 0) (hwidth : width ≠ some 0) :
    decodeSend h codes = .ok (.send codes pidx plen width) := by
  simp only [decodeSend, hz, hp, hl, hw, hplen, hwidth, ne_eq, not_true_eq_false, if_false]

/-- A SEND header that decodes has its must-be-zero field 0 and its three optional operands read, none of the last two
being 0. -/
theorem optFields_of_decodeSend {h : CmdWord} {codes : List CmdWord} {i : Instr} (hd : decodeSend h codes = .ok i) :
    zeroSOf h = 0 ∧ ∃ pidx plen width, optField (pvOf h) (pidxOf h) = .ok pidx ∧
      optField (lvOf h) (plengthOf h) = .ok plen ∧ optField (wvOf h) (widthOf h) = .ok width ∧
      plen ≠ some 0 ∧ width ≠ some 0 := by
  unfold decodeSend at hd
  split at hd
  case isTrue => cases hd
  case isFalse hz =>
    split at hd
    case h_2 => cases hd
    case h_1 pidx plen width hp hl hw =>
      split at hd
      case isTrue => cases hd
      case isFalse hplen =>
        split at hd
        case isTrue => cases hd
        case isFalse hwidth => exact ⟨not_not.mp hz, pidx, plen, width, hp, hl, hw, hplen, hwidth⟩

/-- A SEND header decodes exactly when it is well formed (30_encoding.md R59, R61). -/
theorem decodeSend_isOk_iff (h : CmdWord) (codes : List CmdWord) :
    (∃ i, decodeSend h codes = .ok i) ↔ SendHeaderOk h := by
  constructor
  · rintro ⟨i, hd⟩
    obtain ⟨hz, pidx, plen, width, hp, hl, hw, hplen, hwidth⟩ := optFields_of_decodeSend hd
    obtain ⟨hpidx0, rfl⟩ := optField_eq_ok_iff.mp hp
    obtain ⟨hplen0, rfl⟩ := optField_eq_ok_iff.mp hl
    obtain ⟨hwidth0, rfl⟩ := optField_eq_ok_iff.mp hw
    exact ⟨hz, hpidx0, hplen0, operandOf_ne_zero_iff.mp hplen, hwidth0, operandOf_ne_zero_iff.mp hwidth⟩
  · rintro ⟨hz, hp, hl, hl', hw, hw'⟩
    exact ⟨_, decodeSend_of_optFields hz (optField_eq_ok_iff.mpr ⟨hp, rfl⟩) (optField_eq_ok_iff.mpr ⟨hl, rfl⟩)
      (optField_eq_ok_iff.mpr ⟨hw, rfl⟩) (operandOf_ne_zero_iff.mpr hl') (operandOf_ne_zero_iff.mpr hw')⟩

/-- An answer that is an instruction if a check holds and an error otherwise is an instruction exactly when it holds. -/
theorem isOk_ite_iff {p : Prop} [Decidable p] {i : Instr} {e : DecodeError} :
    (∃ j, (if p then Except.ok i else Except.error e) = Except.ok j) ↔ p := by
  by_cases hp : p <;> simp [hp]

/-- The four assigned opcodes are different (30_encoding.md R60). -/
theorem opcodes_distinct :
    opcEnable ≠ opcSend ∧ opcEnable ≠ opcSendb ∧ opcDisable ≠ opcSend ∧ opcDisable ≠ opcSendb ∧
      opcSend ≠ opcEnable ∧ opcSend ≠ opcDisable ∧ opcSend ≠ opcSendb ∧
      opcSendb ≠ opcEnable ∧ opcSendb ≠ opcDisable ∧ opcSendb ≠ opcSend := by
  decide

/-- A header with its codes decodes exactly when its opcode is assigned and it is well formed for that opcode
(30_encoding.md R59 to R61). -/
theorem decodeHeader_isOk_iff (h : CmdWord) (codes : List CmdWord) :
    (∃ i, decodeHeader h codes = .ok i) ↔
      ((opcOf h = opcEnable ∨ opcOf h = opcDisable) ∧ zeroNOf h = 0) ∨ (opcOf h = opcSend ∧ SendHeaderOk h) ∨
        (opcOf h = opcSendb ∧ zeroBOf h = 0) := by
  unfold decodeHeader
  split
  case isTrue he => simp [he, isOk_ite_iff, opcodes_distinct]
  case isFalse he =>
    split
    case isTrue hd => simp [hd, isOk_ite_iff, opcodes_distinct]
    case isFalse hd =>
      split
      case isTrue hs => simp [hs, decodeSend_isOk_iff, opcodes_distinct]
      case isFalse hs =>
        split
        case isTrue hb => simp [hb, isOk_ite_iff, opcodes_distinct]
        case isFalse hb => simp [he, hd, hs, hb]

/-- A packet decodes exactly when it has the number of words that its header announces and the header decodes. -/
theorem decodePacket_isOk_iff (h : CmdWord) (codes : List CmdWord) :
    (∃ i, decodePacket (h :: codes) = .ok i) ↔
      codes.length + 1 = packetLength h ∧ ∃ i, decodeHeader h codes = .ok i := by
  by_cases hl : codes.length + 1 = packetLength h <;> simp [decodePacket, hl]

/-! ### The same of the header as a number (00_scope.md R6) -/

/-- An opcode as a number is the number of the header's bits 63:56. -/
theorem opcOf_eq_iff (h : CmdWord) (opc : BitVec 8) : opcOf h = opc ↔ h.toNat / 2 ^ 56 = opc.toNat := by
  rw [BitVec.toNat_eq, opcOf_toNat]

/-- The assigned opcodes as numbers (30_encoding.md R60). -/
theorem opcodes_toNat :
    opcEnable.toNat = 0x01 ∧ opcDisable.toNat = 0x02 ∧ opcSend.toNat = 0x10 ∧ opcSendb.toNat = 0x11 := by decide

/-- The length of a packet, of the header as a number (30_encoding.md R57). -/
theorem packetLength_eq (h : CmdWord) :
    packetLength h = if h.toNat / 2 ^ 56 = 0x10 ∨ h.toNat / 2 ^ 56 = 0x11 then 1 + h.toNat % 2 ^ 8 else 1 := by
  simp only [packetLength, opcOf_eq_iff, ncodesOf_toNat, opcodes_toNat]

/-- A presence bit is clear exactly when its number is 0. -/
theorem bit_eq_false_iff {n : Nat} (w : BitVec n) (i : Nat) : w.getLsbD i = false ↔ w.toNat / 2 ^ i % 2 = 0 := by
  simp [bit_eq]

/-- A presence bit is set exactly when its number is 1. -/
theorem bit_eq_true_iff {n : Nat} (w : BitVec n) (i : Nat) : w.getLsbD i = true ↔ w.toNat / 2 ^ i % 2 = 1 := by
  simp [bit_eq]

/-- A field is not 0 exactly when its number is at least 1. -/
theorem ne_zero_iff_toNat {n : Nat} (x : BitVec n) : x ≠ 0 ↔ 1 ≤ x.toNat := by
  rw [ne_eq, eq_zero_iff_toNat, Nat.one_le_iff_ne_zero]

/-- The well-formedness of a SEND header, of the header as a number (30_encoding.md R59). -/
theorem sendHeaderOk_iff (h : CmdWord) :
    SendHeaderOk h ↔
      h.toNat / 2 ^ 48 % 2 ^ 5 = 0 ∧ (h.toNat / 2 ^ 55 % 2 = 0 → h.toNat / 2 ^ 40 % 2 ^ 8 = 0) ∧
        (h.toNat / 2 ^ 54 % 2 = 0 → h.toNat / 2 ^ 16 % 2 ^ 24 = 0) ∧
        (h.toNat / 2 ^ 54 % 2 = 1 → 1 ≤ h.toNat / 2 ^ 16 % 2 ^ 24) ∧
        (h.toNat / 2 ^ 53 % 2 = 0 → h.toNat / 2 ^ 8 % 2 ^ 8 = 0) ∧
        (h.toNat / 2 ^ 53 % 2 = 1 → 1 ≤ h.toNat / 2 ^ 8 % 2 ^ 8) := by
  rw [← zeroSOf_toNat, ← pidxOf_toNat, ← plengthOf_toNat, ← widthOf_toNat]
  simp only [← eq_zero_iff_toNat, ← ne_zero_iff_toNat, ← bit_eq_false_iff, ← bit_eq_true_iff]
  exact ⟨fun ⟨hz, hp, hl, hl', hw, hw'⟩ => ⟨hz, hp, hl, hl', hw, hw'⟩,
    fun ⟨hz, hp, hl, hl', hw, hw'⟩ => ⟨hz, hp, hl, hl', hw, hw'⟩⟩

/-- Settles O3: a packet decodes when its length is the announced one and its header decodes, and both are said of the
header as a number; the opcode decides which length and which well-formedness. -/
theorem packetAcceptedExactly : Obligations.PacketAcceptedExactly := by
  intro h codes
  simp only [decodePacket_isOk_iff, decodeHeader_isOk_iff, packetLength_eq, sendHeaderOk_iff, opcOf_eq_iff,
    eq_zero_iff_toNat, zeroNOf_toNat, zeroBOf_toNat, opcodes_toNat]
  constructor
  · rintro ⟨hl, ⟨hopc, hz⟩ | ⟨hopc, hok⟩ | ⟨hopc, hz⟩⟩
    · rw [if_neg (by omega)] at hl
      exact .inl ⟨hopc, hz, by omega⟩
    · rw [if_pos (.inl hopc)] at hl
      exact .inr (.inl ⟨hopc, by omega, hok⟩)
    · rw [if_pos (.inr hopc)] at hl
      exact .inr (.inr ⟨hopc, by omega, hz⟩)
  · rintro (⟨hopc, hz, hl⟩ | ⟨hopc, hl, hok⟩ | ⟨hopc, hl, hz⟩)
    · exact ⟨by rw [if_neg (by omega)]; omega, .inl ⟨hopc, hz⟩⟩
    · exact ⟨by rw [if_pos (.inl hopc)]; omega, .inr (.inl ⟨hopc, hok⟩)⟩
    · exact ⟨by rw [if_pos (.inr hopc)]; omega, .inr (.inr ⟨hopc, hz⟩)⟩

/-! ### The worked encodings (30_encoding.md R67) -/

/-- A line that reads as an instruction with an encoding has that encoding. -/
theorem Machine.assemble_of_parseLine {lookup : List Char → Machine.Groups} {line : List Char} {i : Instr} {c : Code}
    (hparse : Machine.parseLine lookup line = some i) (hwf : i.wellFormed = true) (henc : encode i = c) :
    Machine.assemble lookup line = some c := by
  simp only [Machine.assemble, hparse, hwf, henc, if_true]

/-- Settles O4: the words decode by evaluation; each line of text reads as its instruction, whose encoding is the line's
words. -/
theorem workedEncodings : Obligations.WorkedEncodings := by
  refine ⟨by decide, by decide, by decide, by decide, by decide, by decide, by decide, by decide, fun lookup => ?_,
    by decide, by decide, by decide, fun _ => rfl, fun _ => rfl⟩
  have hline {line i c} := @Machine.assemble_of_parseLine lookup line i c
  exact ⟨hline (i := .enable) rfl (by decide) (by decide), hline (i := .disable) rfl (by decide) (by decide),
    hline (i := .send [5] none none none) rfl (by decide) (by decide),
    hline (i := .send [5] none none (some 3)) rfl (by decide) (by decide),
    hline (i := .send [9, 31] (some 2) (some 50) (some 4)) rfl (by decide) (by decide),
    hline (i := .send [] (some 0) none none) rfl (by decide) (by decide),
    hline (i := .sendb [95357333845]) rfl (by decide) (by decide), hline (i := .sendb []) rfl (by decide) (by decide)⟩

/-! ### Pulse words (30_encoding.md R63) -/

/-- The duration of a pulse word is the number of its bits 31:0. -/
theorem durOf_eq_ofNat (w : PulseWord) : durOf w = BitVec.ofNat 32 (w.toNat % 2 ^ 32) := by
  rw [← durOf_toNat, BitVec.ofNat_toNat, BitVec.setWidth_eq]

/-- A pulse word whose bit 32 is set is PH. -/
theorem decodePulse_of_lvl {w : PulseWord} (h : lvlOf w = true) : decodePulse w = .ph (durOf w) := if_pos h

/-- A pulse word whose bit 32 is clear is PL. -/
theorem decodePulse_of_not_lvl {w : PulseWord} (h : lvlOf w = false) : decodePulse w = .pl (durOf w) :=
  if_neg (Bool.eq_false_iff.mp h)

/-- The pulse word of a level and a duration, from its number. -/
theorem pulseWord_eq_ofNat (l : Level) (d : Dur) :
    pulseWord l d = BitVec.ofNat 33 (l.bit.toNat * 2 ^ 32 + d.toNat) := by
  rw [← pulseWord_toNat, BitVec.ofNat_toNat, BitVec.setWidth_eq]

/-- Settles O5: bit 32 is the whole of what stands above the duration, so it alone tells PH from PL. -/
theorem pulseWordReading : Obligations.PulseWordReading := by
  intro w d
  have hw := w.isLt
  rw [← durOf_eq_ofNat]
  refine ⟨fun h => decodePulse_of_lvl ?_, fun h => decodePulse_of_not_lvl ?_, by omega, ?_, ?_⟩
  · rw [lvlOf_eq, h]; rfl
  · rw [lvlOf_eq, h]; rfl
  · exact congrArg Code.pulse (pulseWord_eq_ofNat .high d)
  · exact congrArg Code.pulse ((pulseWord_eq_ofNat .low d).trans (by simp [Level.bit]))

end Sys2Proof
end

section
/-! PROOFS. The statement of the protocol table (40_protocol_table.md R70 to R72): what GET answers for every index. -/

namespace Sys2Proof.Machine

/-- What is not valid: the reserved index 0 and every index above the last entry. -/
theorem validIndex_eq_false_iff {i : BitVec 8} :
    validIndex i = false ↔ i.toNat = 0 ∨ Config.nproto < i.toNat := by
  rw [validIndex, decide_eq_false_iff_not]
  omega

/-- GET fails with UnknownProtocol at the reserved index and outside the table. -/
theorem getProtocol_out_of_range (t : ProtoTable) {i : BitVec 8} (h : i.toNat = 0 ∨ Config.nproto < i.toNat) :
    getProtocol t i = .error .unknownProtocol :=
  getProtocol_invalid (validIndex_eq_false_iff.mpr h)

/-- Entry 1 is the shutter-control record. -/
@[simp] theorem getProtocol_one (t : ProtoTable) : getProtocol t 1 = .ok t.shutter := rfl

/-- Entry `NPROTO = 2`, the last one, is the garage-door record. -/
@[simp] theorem getProtocol_two (t : ProtoTable) : getProtocol t 2 = .ok t.garage := rfl

/-- Settles O8: the two entries by evaluation, every other index by `getProtocol_out_of_range`, with 0 below the table
and 3 and 255 above it. -/
theorem getReadsTheTable : Obligations.GetReadsTheTable := by
  intro t i
  have habove {j : BitVec 8} (hj : Config.nproto < j.toNat) := getProtocol_out_of_range t (.inr hj)
  exact ⟨getProtocol_out_of_range t, getProtocol_one t, getProtocol_two t,
    getProtocol_out_of_range t (.inl rfl), habove (by decide), habove (by decide)⟩

end Sys2Proof.Machine
end

section
/-! PROOFS. The statements of the encoder (41_encoder.md R75, R76, R78): the natural length, the bits of an encoding and
what they say about the code. -/

namespace Sys2Proof.Machine

/-! ### The natural length (41_encoder.md R75) -/

/-- Only 0 has the natural length 0. -/
theorem bitlen_eq_zero_iff (n : Nat) : bitlen n = 0 ↔ n = 0 := by
  rw [← Nat.le_zero, bitlen_le_iff_lt, pow_zero, Nat.lt_one_iff]

/-- A positive natural length lies between two powers: it is at most `L` and not at most `L - 1`. -/
theorem bitlen_eq_iff {n L : Nat} (hL : 1 ≤ L) : bitlen n = L ↔ 2 ^ (L - 1) ≤ n ∧ n < 2 ^ L := by
  have hupper := bitlen_le_iff_lt n L
  have hlower := bitlen_le_iff_lt n (L - 1)
  omega

/-- A power of two is the first number of its length. -/
theorem bitlen_two_pow (k : Nat) : bitlen (2 ^ k) = k + 1 :=
  (bitlen_eq_iff (Nat.le_add_left 1 k)).mpr ⟨le_rfl, Nat.pow_lt_pow_right one_lt_two k.lt_succ_self⟩

/-- The number before a power of two is the last number of its length. -/
theorem bitlen_two_pow_sub_one (k : Nat) : bitlen (2 ^ k - 1) = k := by
  have hfits (L : Nat) : bitlen (2 ^ k - 1) ≤ L ↔ k ≤ L := by
    rw [bitlen_le_iff_lt, ← Nat.pow_le_pow_iff_right one_lt_two]
    have := Nat.two_pow_pos k
    omega
  exact Nat.le_antisymm ((hfits k).mpr le_rfl) ((hfits _).mp le_rfl)

/-- Settles O9: the least `L` with `n < 2 ^ L` is `bitlen_le_iff_lt`; the bounds on both sides and the examples follow
from it. -/
theorem bitlenIsNaturalLength : Obligations.BitlenIsNaturalLength := by
  refine ⟨(bitlen_eq_zero_iff 0).mpr rfl, fun n L hn => ?_, bitlen_le_iff_lt, bitlen_two_pow 0,
    (bitlen_eq_iff (by decide)).mpr (by decide), bitlen_two_pow_sub_one 40, bitlen_two_pow 40, bitlen_two_pow 41,
    (bitlen_eq_iff (by decide)).mpr (by decide)⟩
  cases L with
  | zero => simp [bitlen_eq_zero_iff, hn]
  | succ k => simp [bitlen_eq_iff]

/-! ### The bits of an encoding (41_encoder.md R76) -/

/-- An encoding is known by its length and its bits. -/
theorem encodeCode_ok_iff_bits (code width : Nat) (b : List Bool) :
    encodeCode code width = .ok b ↔
      1 ≤ width ∧ code < 2 ^ width ∧ b.length = width ∧
        ∀ i, i < width → b[i]? = some (code.testBit (width - 1 - i)) := by
  constructor
  · intro h
    obtain ⟨hwidth, hfits, _⟩ := (encodeCode_ok_iff code width b).mp h
    exact ⟨hwidth, hfits, encodeCode_length h, fun _ => encodeCode_getElem h⟩
  · rintro ⟨hwidth, hfits, hlen, hbits⟩
    refine (encodeCode_ok_iff code width b).mpr ⟨hwidth, hfits, List.ext_getElem? fun i => ?_⟩
    by_cases hi : i < width
    · simp [hbits i hi, hi]
    · simp [hlen, hi]

/-- ENCODE gives a value for every code that fits the width. -/
theorem encodeCode_isOk {code width : Nat} (hwidth : 1 ≤ width) (hfits : code < 2 ^ width) :
    ∃ b, encodeCode code width = .ok b :=
  ⟨_, (encodeCode_ok_iff code width _).mpr ⟨hwidth, hfits, rfl⟩⟩

/-- The code 0 is all zeros. -/
theorem encodeCode_zero {width : Nat} (hwidth : 1 ≤ width) :
    encodeCode 0 width = .ok (List.replicate width false) :=
  (encodeCode_ok_iff_bits ..).mpr ⟨hwidth, Nat.two_pow_pos width, List.length_replicate, fun i hi => by simp [hi]⟩

/-- The largest code that fits is all ones. -/
theorem encodeCode_two_pow_sub_one {width : Nat} (hwidth : 1 ≤ width) :
    encodeCode (2 ^ width - 1) width = .ok (List.replicate width true) := by
  refine (encodeCode_ok_iff_bits ..).mpr
    ⟨hwidth, Nat.sub_one_lt (Nat.two_pow_pos width).ne', List.length_replicate, fun i hi => ?_⟩
  have hbit : width - 1 - i < width := by omega
  simp [hi, hbit, Nat.testBit_two_pow_sub_one]

/-- ENCODE fails on every code from `2 ^ width` on. -/
theorem encodeCode_tooWide {code width : Nat} (hwidth : 1 ≤ width) (hcode : 2 ^ width ≤ code) :
    encodeCode code width = .error .codeTooWide :=
  (encodeCode_tooWide_iff code width).mpr ⟨hwidth, hcode⟩

/-- Settles O10: the width decides between `encodeCode_tooWide` and `encodeCode_isOk`; a code word is below `2 ^ 64`, so
it fits every width from 64 on. -/
theorem encodeGivesTheBits : Obligations.EncodeGivesTheBits := by
  refine ⟨fun code width hwidth => ⟨encodeCode_tooWide hwidth, fun hfits => ?_⟩,
    fun width hwidth => ⟨encodeCode_zero hwidth, encodeCode_two_pow_sub_one hwidth, encodeCode_tooWide hwidth le_rfl⟩,
    fun c width hwidth => ?_, by decide, by decide, encodeCode_tooWide (by decide) (by decide)⟩
  · obtain ⟨b, hb⟩ := encodeCode_isOk hwidth hfits
    exact ⟨b, hb, encodeCode_length hb, fun _ => encodeCode_getElem hb⟩
  · exact encodeCode_isOk (by omega) (c.isLt.trans_le (Nat.pow_le_pow_right two_pos hwidth))

/-! ### ENCODE loses nothing (41_encoder.md R78) -/

/-- The low bits of a number, most significant first and weighted, add up to its remainder: the first of `width + 1`
bits has the weight `2 ^ width`, and the others are the low `width` bits. -/
theorem sum_weighted_testBit (code width : Nat) :
    ((List.range width).map fun i => (code.testBit (width - 1 - i)).toNat * 2 ^ (width - 1 - i)).sum
      = code % 2 ^ width := by
  induction width with
  | zero => simp [Nat.mod_one]
  | succ width ih =>
    rw [Nat.mod_pow_succ, ← Nat.toNat_testBit, ← ih, List.range_succ_eq_map]
    simp [Function.comp_def, Nat.sub_sub, Nat.add_comm, Nat.mul_comm]

/-- The code is the sum of its encoding's bits, each with its weight. -/
theorem encodeCode_weighted_sum {code width : Nat} {b : List Bool} (h : encodeCode code width = .ok b) :
    code = ((List.range width).map fun i => (b[i]?.getD false).toNat * 2 ^ (width - 1 - i)).sum := by
  obtain ⟨_, hfits, _⟩ := (encodeCode_ok_iff code width b).mp h
  calc code = code % 2 ^ width := (Nat.mod_eq_of_lt hfits).symm
    _ = _ := (sum_weighted_testBit code width).symm
    _ = _ := congrArg List.sum <| List.map_congr_left fun i hi => by
      rw [encodeCode_getElem h (List.mem_range.mp hi), Option.getD_some]

/-- ENCODE at one width is injective: both codes are the same weighted sum. -/
theorem encodeCode_injective {c c' width : Nat} {b : List Bool} (h : encodeCode c width = .ok b)
    (h' : encodeCode c' width = .ok b) : c = c' :=
  (encodeCode_weighted_sum h).trans (encodeCode_weighted_sum h').symm

/-- A larger width only puts zeros in front: the added positions are above the code, and behind them every bit keeps
its distance from the right end. -/
theorem encodeCode_pad {code w w' : Nat} {b : List Bool} (h : encodeCode code w = .ok b) (hlt : w < w') :
    encodeCode code w' = .ok (List.replicate (w' - w) false ++ b) := by
  obtain ⟨hw, hfits, hlen, hbits⟩ := (encodeCode_ok_iff_bits code w b).mp h
  have hfits' : code < 2 ^ w' := hfits.trans (Nat.pow_lt_pow_right one_lt_two hlt)
  refine (encodeCode_ok_iff_bits ..).mpr ⟨by omega, hfits', by simp [hlen]; omega, fun i hi => ?_⟩
  by_cases hpad : i < w' - w
  · have habove : code < 2 ^ (w' - 1 - i) := hfits.trans_le (Nat.pow_le_pow_right two_pos (by omega))
    rw [List.getElem?_append_left (by simpa using hpad), Nat.testBit_lt_two_pow habove]
    simp [hpad]
  · have hdist : w - 1 - (i - (w' - w)) = w' - 1 - i := by omega
    rw [List.getElem?_append_right (by simpa using hpad), List.length_replicate, hbits _ (by omega), hdist]

/-- Settles O11: the source's tests are R76's corner cases at width 40; the rest is the weighted sum and the padding. -/
theorem encodeLosesNothing : Obligations.EncodeLosesNothing :=
  ⟨encodeCode_zero (by decide), encodeCode_two_pow_sub_one (by decide), encodeCode_tooWide (by decide) (by decide),
    fun _ _ _ h => ⟨encodeCode_length h, encodeCode_weighted_sum h⟩, fun _ _ _ _ => encodeCode_injective,
    fun _ _ _ _ => encodeCode_pad⟩

end Sys2Proof.Machine
end

section
/-! PROOFS. The statements of the waveform (42_waveform.md R82 to R94): the arithmetic of durations, the counts and
durations of a block step by step, and those of waveforms and whole SENDs. -/

namespace Sys2Proof.Machine

/-! ### The arithmetic of durations (42_waveform.md R94) -/

/-- An 8-bit multiplier times a 24-bit pulse length is at most `255 * (2^24 - 1)`. -/
theorem multiplier_mul_pulseLen_le (m : BitVec 8) (pl : BitVec 24) : m.toNat * pl.toNat ≤ 4278189825 :=
  calc m.toNat * pl.toNat ≤ 255 * (2 ^ 24 - 1) :=
        Nat.mul_le_mul (Nat.le_pred_of_lt m.isLt) (Nat.le_pred_of_lt pl.isLt)
    _ = 4278189825 := by norm_num

/-- Narrowing the product to a duration loses nothing. -/
@[simp] theorem scaled_toNat (m : BitVec 8) (pl : BitVec 24) : (scaled m pl).toNat = m.toNat * pl.toNat := by
  have hfits : m.toNat * pl.toNat < 2 ^ 32 := (multiplier_mul_pulseLen_le m pl).trans_lt (by norm_num)
  rw [scaled, BitVec.toNat_ofNat, Nat.mod_eq_of_lt hfits]

/-- A repeated list has no other members than the list. -/
theorem mem_of_mem_rep {α : Type} {x : α} {l : List α} {n : Nat} (h : x ∈ rep n l) : x ∈ l := by
  induction n with
  | zero => cases h
  | succ n ih => exact (List.mem_append.mp (rep_succ n l ▸ h)).elim id ih

/-- A sync pulse is the HIGH or the LOW half of a pair. -/
theorem dur_of_mem_syncPulses {P : Protocol} {p : Pulse} (h : p ∈ syncPulses P) :
    p.dur = P.syncHigh ∨ p.dur = P.syncLow := by
  have hpair : p = ⟨.high, P.syncHigh⟩ ∨ p = ⟨.low, P.syncLow⟩ := by simpa using mem_of_mem_rep h
  exact hpair.imp (congrArg Pulse.dur) (congrArg Pulse.dur)

/-- The sync delay, where there is one, lasts what the protocol says. -/
theorem dur_of_mem_syncDelay {P : Protocol} {p : Pulse} (h : p ∈ syncDelay P) : p.dur = P.syncDelay := by
  unfold syncDelay at h
  split at h
  · exact congrArg Pulse.dur (List.mem_singleton.mp h)
  · cases h

/-- Settles O13: the bound makes the narrowing exact; the members of the other steps are listed by their definitions. -/
theorem durationProductExact : Obligations.DurationProductExact :=
  ⟨fun m pl => ⟨scaled_toNat m pl, multiplier_mul_pulseLen_le m pl, by norm_num⟩,
    fun _ _ => ⟨dur_of_mem_syncPulses, dur_of_mem_syncDelay, fun h => congrArg Pulse.dur (List.mem_singleton.mp h)⟩⟩

/-! ### Counts and durations of one block, step by step (42_waveform.md R86, R91) -/

/-- A sync pulse is two pulse instructions. -/
theorem length_syncPulses (P : Protocol) : (syncPulses P).length = 2 * P.syncCount.toNat := by
  rw [syncPulses, length_rep, Nat.mul_comm]
  rfl

/-- The sync delay is one pulse instruction, or none where the protocol has no delay. -/
theorem length_syncDelay (P : Protocol) : (syncDelay P).length = if 0 < P.syncDelay.toNat then 1 else 0 :=
  apply_ite List.length ..

/-- Settles O12: the order is the definition of a block, and the length is that of its four steps. -/
theorem blockShape : Obligations.BlockShape := fun P pl bits => by
  refine ⟨rfl, ?_⟩
  rw [block, List.length_append, List.length_append, List.length_append, length_syncPulses, length_syncDelay,
    length_dataPulses, repeatDelay, List.length_singleton]

/-- The sync pulses last `syncCount` pairs. -/
theorem totalDuration_syncPulses (P : Protocol) :
    totalDuration (syncPulses P) = P.syncCount.toNat * (P.syncHigh.toNat + P.syncLow.toNat) := by
  simp [syncPulses, totalDuration_rep]

/-- An omitted sync delay is one of no microseconds. -/
theorem totalDuration_syncDelay (P : Protocol) : totalDuration (syncDelay P) = P.syncDelay.toNat := by
  unfold syncDelay
  split
  · simp
  · simp; omega

/-- The data portion lasts the pairs of its zeros and the pairs of its ones, in multiples of the pulse length. -/
theorem totalDuration_dataPulses (P : Protocol) (pl : BitVec 24) (bits : List Bool) :
    totalDuration (dataPulses P pl bits)
      = pl.toNat * (bits.count false * (P.zeroHigh.toNat + P.zeroLow.toNat)
          + bits.count true * (P.oneHigh.toNat + P.oneLow.toNat)) := by
  induction bits with
  | nil => simp
  | cons b bits ih =>
    cases b
    · simp [ih, bitHigh, bitLow]; ring
    · simp [ih, bitHigh, bitLow]; ring

/-- The duration of a block is that of its four steps. -/
theorem totalDuration_block (P : Protocol) (pl : BitVec 24) (bits : List Bool) :
    totalDuration (block P pl bits)
      = P.syncCount.toNat * (P.syncHigh.toNat + P.syncLow.toNat) + P.syncDelay.toNat
        + pl.toNat * (bits.count false * (P.zeroHigh.toNat + P.zeroLow.toNat)
            + bits.count true * (P.oneHigh.toNat + P.oneLow.toNat))
        + P.repeatDelay.toNat := by
  simp [block, repeatDelay, totalDuration_syncPulses, totalDuration_syncDelay, totalDuration_dataPulses,
    Nat.add_assoc]

/-! ### The pairs of the data portion (42_waveform.md R84, R91) -/

/-- Bit `i` of the data portion gives the pulse instructions `2 i` and `2 i + 1`. -/
theorem dataPulses_getElem (P : Protocol) (pl : BitVec 24) {bits : List Bool} {i : Nat} {b : Bool}
    (h : bits[i]? = some b) :
    (dataPulses P pl bits)[2 * i]? = some ⟨.high, bitHigh P pl b⟩ ∧
    (dataPulses P pl bits)[2 * i + 1]? = some ⟨.low, bitLow P pl b⟩ := by
  induction bits generalizing i with
  | nil => simp at h
  | cons c bits ih =>
    cases i with
    | zero =>
      obtain rfl : c = b := by simpa using h
      exact ⟨rfl, rfl⟩
    | succ i => simpa [Nat.mul_succ] using ih (by simpa using h)

/-! ### Waveforms and whole SENDs (42_waveform.md R87, R88, R91) -/

/-- A waveform lasts `R` blocks. -/
theorem totalDuration_waveform (P : Protocol) (pl : BitVec 24) (R : Nat) (bits : List Bool) :
    totalDuration (waveform P pl R bits) = R * totalDuration (block P pl bits) :=
  totalDuration_rep R _

/-- A SEND lasts the sum of its waveforms: nothing stands between them. -/
theorem totalDuration_pulseSequence (P : Protocol) (pl : BitVec 24) (R : Nat) (codes : List (List Bool)) :
    totalDuration (pulseSequence P pl R codes) = (codes.map fun b => totalDuration (waveform P pl R b)).sum := by
  induction codes with
  | nil => rfl
  | cons b codes ih =>
    rw [pulseSequence, List.flatMap_cons, totalDuration_append, ← pulseSequence, ih, List.map_cons, List.sum_cons]

/-- A SEND has as many pulse instructions as its codes' blocks, `R` times each. -/
theorem length_pulseSequence (P : Protocol) (pl : BitVec 24) (R : Nat) (codes : List (List Bool)) :
    (pulseSequence P pl R codes).length = R * (codes.map fun b => (block P pl b).length).sum :=
  calc (pulseSequence P pl R codes).length
      = (codes.map fun b => R * (block P pl b).length).sum := by
        simp [pulseSequence, waveform, length_rep, List.length_flatMap]
    _ = _ := List.sum_map_mul_left ..

/-- Settles O14: one `Wr` event for each pulse instruction, and the bits of an encoding are those of the code. -/
theorem nominalDurations : Obligations.NominalDurations := by
  refine ⟨totalDuration_block, totalDuration_waveform, fun P pl R codes => ⟨?_, totalDuration_pulseSequence P pl R codes⟩,
    fun P pl code width b hb => ⟨?_, fun i hi => dataPulses_getElem P pl (encodeCode_getElem hb hi)⟩⟩
  · rw [pulseEvents, List.length_map, length_pulseSequence]
  · rw [length_dataPulses, encodeCode_length hb]

end Sys2Proof.Machine
end

section
/-! PROOFS. The statement of the pin driver (43_pin_driver.md R103): the times and levels of the writes of a
transmission, and the time of its response. -/

namespace Sys2Proof.Machine

/-! ### The time-domain view, one event at a time -/

@[simp] theorem writeTimes_nil (t : Nat) : writeTimes t [] = [] := rfl

/-- A `Wr` is written now, and what follows it comes when its hold ends. -/
@[simp] theorem writeTimes_wr (t : Nat) (l : Level) (d : Dur) (es : List Event) :
    writeTimes t (.wr l d :: es) = (t, l) :: writeTimes (t + d.toNat) es := rfl

@[simp] theorem endTime_nil (t : Nat) : endTime t [] = t := rfl

@[simp] theorem endTime_wr (t : Nat) (l : Level) (d : Dur) (es : List Event) :
    endTime t (.wr l d :: es) = endTime (t + d.toNat) es := rfl

@[simp] theorem levelAt_nil (u : Nat) (l : Option Level) : levelAt u l [] = l := rfl

/-- A write that has happened sets the level. -/
theorem levelAt_cons_of_le {t u : Nat} (h : t ≤ u) (l : Option Level) (l' : Level) (ws : List (Nat × Level)) :
    levelAt u l ((t, l') :: ws) = levelAt u (some l') ws := if_pos h

/-- A write that is still to come leaves the level as it was. -/
theorem levelAt_cons_of_lt {t u : Nat} (h : u < t) (l : Option Level) (l' : Level) (ws : List (Nat × Level)) :
    levelAt u l ((t, l') :: ws) = l := if_neg (Nat.not_le.mpr h)

/-! ### The writes and the response of a transmission -/

/-- Every pulse is written exactly once, whatever its duration. -/
theorem length_writeTimes_pulseEvents (t : Nat) (ps : List Pulse) :
    (writeTimes t (pulseEvents ps)).length = ps.length := by
  induction ps generalizing t with
  | nil => simp
  | cons p ps ih => simp [ih]

/-- Write `j` happens at the sum of the durations before it, with its own level. -/
theorem writeTimes_pulseEvents_getElem (t : Nat) {ps : List Pulse} {j : Nat} {p : Pulse} (h : ps[j]? = some p) :
    (writeTimes t (pulseEvents ps))[j]? = some (t + totalDuration (ps.take j), p.level) := by
  induction ps generalizing t j with
  | nil => simp at h
  | cons q ps ih =>
    cases j with
    | zero =>
      obtain rfl : q = p := by simpa using h
      simp
    | succ j => simpa [Nat.add_assoc] using ih (t + q.dur.toNat) (by simpa using h)

/-- The response comes at the sum of all durations. -/
theorem endTime_pulseEvents (t : Nat) (ps : List Pulse) :
    endTime t (pulseEvents ps) = t + totalDuration ps := by
  induction ps generalizing t with
  | nil => simp
  | cons p ps ih => simp [ih, Nat.add_assoc]

/-! ### The level between two writes -/

/-- The level stays while no write has happened yet, and for good where there is none to come. -/
theorem levelAt_writeTimes_of_before {t u : Nat} {ps : List Pulse} (l : Option Level) (h : u < t ∨ ps = []) :
    levelAt u l (writeTimes t (pulseEvents ps)) = l := by
  cases ps with
  | nil => simp
  | cons p ps => exact levelAt_cons_of_lt (by simpa using h) ..

/-- From write `j` on the level is its own: until write `j + 1`, or for good after the last write. -/
theorem levelAt_writeTimes_of_between {t u j : Nat} {ps : List Pulse} {p : Pulse} (l : Option Level)
    (hp : ps[j]? = some p) (hfrom : t + totalDuration (ps.take j) ≤ u)
    (huntil : u < t + totalDuration (ps.take (j + 1)) ∨ j + 1 = ps.length) :
    levelAt u l (writeTimes t (pulseEvents ps)) = some p.level := by
  induction ps generalizing t j l with
  | nil => simp at hp
  | cons q ps ih =>
    have hfirst : t ≤ u := by omega
    rw [pulseEvents_cons, writeTimes_wr, levelAt_cons_of_le hfirst]
    cases j with
    | zero =>
      obtain rfl : q = p := by simpa using hp
      exact levelAt_writeTimes_of_before _ (by simpa [eq_comm] using huntil)
    | succ j =>
      exact ih _ (by simpa using hp) (by simpa [Nat.add_assoc] using hfrom)
        (by simpa [Nat.add_assoc] using huntil)

/-- Settles O17: each part is an induction over the pulses, at every starting time. -/
theorem writeTimesAreSums : Obligations.WriteTimesAreSums := fun t ps =>
  ⟨length_writeTimes_pulseEvents t ps,
    fun _ _ hp => ⟨writeTimes_pulseEvents_getElem t hp, fun _ l => levelAt_writeTimes_of_between l hp⟩,
    endTime_pulseEvents t ps⟩

end Sys2Proof.Machine
end

section
/-! PROOFS. The statements of ENABLE and DISABLE (44_session.md R106, R107). -/

namespace Sys2Proof.Machine

/-- ENABLE is its body and then the response of success. -/
theorem exec_enable (s : State) : exec .enable s = .next (respond none (enableBody s)) := rfl

/-- DISABLE is its body and then the response of success. -/
theorem exec_disable (s : State) : exec .disable s = .next (respond none (disableBody s)) := rfl

/-- The response of success as one update: the word of all zeros (30_encoding.md R64). -/
theorem respond_success (s : State) :
    respond none s = { s with
      busy := false, activity := .waiting, seq := none, stage := .ready
      rsp := some 0x0, responses := s.responses ++ [0x0] } := rfl

/-- Settles O18: both session states are in the one update that the body of ENABLE makes (`enableBody_eq`), and the
response of success leaves the session, the pin and the trace as they are. -/
theorem enableArms : Obligations.EnableArms := fun s => by
  rw [exec_enable, respond_success, enableBody_eq]

/-- Settles O19: both session states are in the one update that the body of DISABLE makes (`disableBody_eq`), and the
response of success leaves the session, the pin and the trace as they are. -/
theorem disableDisarms : Obligations.DisableDisarms := fun s => by
  rw [exec_disable, respond_success, disableBody_eq]

end Sys2Proof.Machine
end

section
/-! PROOFS. The statement that errors are precise (60_exceptions.md R135): among the steps of a state that meets the
invariant, only those that run a complete packet can issue a failing response. -/

namespace Sys2Proof.Machine

/-! ### A failing response -/

/-- A failing response is issued on the way to `t`: `before` are the responses up to then (30_encoding.md R64). -/
def FailsAfter (before : List RspWord) (t : State) : Prop :=
  ∃ r, t.responses = before ++ [r] ∧ failOf r = true

/-- Where no response is issued, none fails. -/
theorem not_failsAfter_of_silent {rs : List RspWord} {t : State} (h : t.responses = rs) : ¬ FailsAfter rs t := by
  rintro ⟨r, hr, _⟩
  simp [h] at hr

/-- The response of success does not fail. -/
theorem not_failsAfter_of_success {rs : List RspWord} {t : State} (h : t.responses = rs ++ [rspWord none]) :
    ¬ FailsAfter rs t := by
  rintro ⟨r, hr, hfail⟩
  obtain rfl : rspWord none = r := by simpa [h] using hr
  simp [failOf_rspWord] at hfail

/-! ### The steps that issue no failing response -/

/-- Taking a word issues no response. -/
theorem acceptWord_responses (s : State) : (acceptWord s).responses = s.responses := by
  unfold acceptWord
  split
  · rfl
  · split <;> rfl

/-- A pulse instruction inside a transmission is not refused: the session is Armed (R128). -/
theorem drive_responses {s : State} {c : Enclosing} (h : Inv s) (ha : s.activity = .executing c) (l : Level)
    (d : Dur) : (drive l d s).responses = s.responses := by
  obtain ⟨_, hen, _⟩ := h.executing ha
  rw [drive_armed hen]

/-- The end of a hold raises nothing: the protocol was valid when the transmission was launched (R129). -/
theorem advance_responses {s t : State} {c : Enclosing} (h : Inv s) (ha : s.activity = .executing c)
    (hs : s.stage = .playing) (ht : advance s = .next t) : t.responses = s.responses := by
  obtain ⟨p, _, P, hP, _⟩ := h.playingOk ha (by simp [hs])
  have hvalid : validIndex s.proto = true := (getProtocol_isOk_iff _ _).mp ⟨P, hP⟩
  rcases advance_cases s with ⟨_, he⟩ | ⟨_, he⟩ | ⟨_, _, ⟨hinvalid, _⟩ | ⟨_, _, he⟩⟩
  · cases he.symm.trans ht
  · cases he.symm.trans ht; rfl
  · rw [hvalid] at hinvalid; cases hinvalid
  · cases he.symm.trans ht; rfl

/-- Handing over a pulse instruction raises nothing: every code of the transmission was encoded before its first pulse
(R127, R129). -/
theorem issuePulse_responses {s t : State} {c : Enclosing} {p : Pos} (h : Inv s) (ha : s.activity = .executing c)
    (hseq : s.seq = some (.pos p)) (ht : issuePulse p s = .next t) : t.responses = s.responses := by
  obtain ⟨_, _, ⟨bs, hbs⟩, hplay⟩ := (activityOk_executing_iff ha).mp h.act
  obtain ⟨P, hP, hp, _⟩ : PlayingOk s p := by simpa [hseq] using hplay
  obtain ⟨x, hx, _⟩ := designated_ok hP hp h.regs.codebuf_len hbs
  rcases issuePulse_cases p s with ⟨_, _, he⟩ | ⟨_, hraises, _⟩ | ⟨_, he⟩
  · cases he.symm.trans ht; rfl
  · rw [hx] at hraises; cases hraises
  · cases he.symm.trans ht

/-! ### The steps that run a packet -/

/-- A packet that takes no further word has the word count of its header (30_encoding.md R57). -/
theorem Inv.length_of_complete {s : State} {hd : CmdWord} {codes : List CmdWord} (h : Inv s)
    (ha : s.activity = .receiving hd codes) (hc : cmdReady s = false) : codes.length + 1 = packetLength hd := by
  obtain ⟨_, hlt, _⟩ : s.busy = true ∧ codes.length < packetLength hd ∧ _ := by
    simpa only [ActivityOk, ha] using h.act
  have hle : ¬ codes.length + 1 < packetLength hd := by simpa [cmdReady, ha] using hc
  omega

/-- The body of SEND that fails has emitted no event, but for the `CfgIn` of an Armed SENDB that ends: it raises, for the
launch of a transmission issues no response. -/
theorem sendBody_trace_of_failsAfter {pidx : Option (BitVec 8)} {plen : Option (BitVec 24)} {w : BitVec 8} {s : State}
    (hf : FailsAfter s.responses (sendBody pidx plen w s)) :
    (sendBody pidx plen w s).trace
      = s.trace ++ (if s.activity = .executing .sendb ∧ s.en = true then [.cfgIn] else []) := by
  rcases sendBody_cases pidx plen w s with ⟨e, he⟩ | ⟨_, _, ⟨e, he⟩ | ⟨_, _, _, _, he⟩⟩
  · rw [he, raise_trace]
  · rw [he, raise_trace]
  · exact absurd hf (not_failsAfter_of_silent (by rw [he]))

/-- A command that fails as its packet runs: a SEND has emitted no event, and a SENDB only its bracket. -/
theorem command_trace_of_failsAfter {s t : State} {hd : CmdWord} {words : List CmdWord} {i : Instr}
    (hdec : decodePacket (hd :: words) = .ok i) (ht : exec i s = .next t) (hf : FailsAfter s.responses t) :
    t.trace = s.trace ∨
      ((∃ cs, decodePacket (hd :: words) = .ok (.sendb cs)) ∧
        t.trace = s.trace ++ (if s.en then [.cfgIn] else [.cfgOut, .cfgIn])) := by
  cases i with
  | enable =>
    cases ht
    exact absurd hf (not_failsAfter_of_success (by simp [enableBody_eq]))
  | disable =>
    cases ht
    exact absurd hf (not_failsAfter_of_success (by simp [disableBody_eq]))
  | send codes pidx plen width =>
    obtain ⟨_, hwf⟩ := wellFormed_of_decode_send hdec
    cases (execSend_eq hwf).symm.trans ht
    exact .inl ((sendBody_trace_of_failsAfter hf).trans (by simp))
  | sendb codes =>
    obtain ⟨_, hlen⟩ := wellFormed_of_decode_sendb hdec
    by_cases hc : codes = []
    · subst hc
      cases ht
      exact absurd hf (not_failsAfter_of_success rfl)
    · cases (execSendb_eq hlen hc).symm.trans ht
      have hsame : (enableBody (loadCodes .sendb codes s)).responses = s.responses := by simp [enableBody_eq]
      rw [← hsame] at hf
      refine .inr ⟨⟨codes, hdec⟩, (sendBody_trace_of_failsAfter hf).trans ?_⟩
      cases hen : s.en <;> simp [enableBody_eq, hen]
  | ph d => exact absurd hdec decodePacket_ne_pulse.1
  | pl d => exact absurd hdec decodePacket_ne_pulse.2

/-- Settles O47: by the ways a step can go, an Illegal packet or a command that a packet decodes to can fail, and no
other step does; what each has emitted by then is `raise_trace` and `command_trace_of_failsAfter`. -/
theorem errorsArePrecise : Obligations.ErrorsArePrecise := by
  intro s t r h ht hresp hfail
  have hf : FailsAfter (beginStep s).responses t := ⟨r, hresp, hfail⟩
  have hb := beginStep_keeps_inv h
  cases step_cases ht with
  | reset _ ht => exact absurd hf (not_failsAfter_of_silent (ht ▸ rfl))
  | accept _ _ _ ht => exact absurd hf (not_failsAfter_of_silent (ht ▸ acceptWord_responses _))
  | illegal _ hd codes ha hc _ _ ht =>
    exact ⟨hd, codes, ha, h.length_of_complete ha hc, .inl (by simp [ht, raise_trace, ha])⟩
  | command _ hd codes ha i hdec ht =>
    exact ⟨hd, codes, ha, length_of_decodePacket hdec,
      command_trace_of_failsAfter (s := beginStep s) hdec ht hf⟩
  | pulse _ c ha l d _ ht => exact absurd hf (not_failsAfter_of_silent (ht ▸ drive_responses hb ha l d))
  | tick _ _ _ _ _ ht => exact absurd hf (not_failsAfter_of_silent (ht ▸ rfl))
  | advance _ c ha hs _ ht => exact absurd hf (not_failsAfter_of_silent (advance_responses hb ha hs ht))
  | issue _ c ha _ p hseq ht => exact absurd hf (not_failsAfter_of_silent (issuePulse_responses hb ha hseq ht))
  | done _ _ _ _ _ ht => exact absurd hf (not_failsAfter_of_success (ht ▸ finish_responses none _))

end Sys2Proof.Machine
end

section
/-! PROOFS. The statements of decoding and encoding against each other (30_encoding.md R52 to R63): what `encode` writes
reads back, and nothing else decodes. -/

namespace Sys2Proof

/-! ### An operand and its two fields (30_encoding.md R56) -/

/-- An operand is read back from its presence bit and its field. -/
theorem operandOf_isSome_getD {n : Nat} (o : Option (BitVec n)) : operandOf o.isSome (o.getD 0) = o := by
  cases o <;> rfl

/-- An operand that is read has its presence bit; an absent one had a field of 0. -/
theorem isSome_operandOf {n : Nat} (present : Bool) (v : BitVec n) : (operandOf present v).isSome = present := by
  cases present <;> rfl

/-- An operand that is read has the field's value, as long as an absent one's field is 0. -/
theorem getD_operandOf {n : Nat} {present : Bool} {v : BitVec n} (h : present = false → v = 0) :
    (operandOf present v).getD 0 = v := by
  cases present with
  | true => rfl
  | false => exact (h rfl).symm

/-- The field that `encode` writes for an operand is read as that operand. -/
theorem optField_isSome_getD {n : Nat} (o : Option (BitVec n)) : optField o.isSome (o.getD 0) = .ok o :=
  optField_eq_ok_iff.mpr ⟨fun h => by rw [Option.isSome_eq_false_iff, Option.isNone_iff_eq_none] at h; rw [h]; rfl,
    (operandOf_isSome_getD o).symm⟩

/-- A presence bit as a number tells whether the operand is there. -/
theorem decide_toNat_eq_one (b : Bool) : decide (b.toNat = 1) = b := by cases b <;> rfl

/-! ### The headers that `encode` writes, field by field (30_encoding.md R52 to R54) -/

/-- The fields of a format N header. -/
theorem headerN_fields (opc : BitVec 8) : opcOf (headerN opc) = opc ∧ zeroNOf (headerN opc) = 0 := by
  have hn := headerN_toNat opc
  refine ⟨BitVec.eq_of_toNat_eq ?_, (eq_zero_iff_toNat _).mpr ?_⟩
  · rw [opcOf_toNat]; omega
  · rw [zeroNOf_toNat]; omega

/-- The fields of a format B header. -/
theorem headerB_fields (n : BitVec 8) : opcOf (headerB n) = opcSendb ∧ zeroBOf (headerB n) = 0 := by
  have hn := headerB_toNat n
  have hlt := n.isLt
  refine ⟨(opcOf_eq_iff _ _).mpr ?_, (eq_zero_iff_toNat _).mpr ?_⟩
  · rw [show opcSendb.toNat = 0x11 from rfl]; omega
  · rw [zeroBOf_toNat]; omega

/-- The fields of a format S header: each reads back what was put there, for no field overflows its place. -/
theorem headerS_fields (pidx : Option (BitVec 8)) (plen : Option (BitVec 24)) (width : Option (BitVec 8))
    (n : BitVec 8) :
    let h := headerS pidx plen width n
    opcOf h = opcSend ∧ zeroSOf h = 0 ∧
      pvOf h = pidx.isSome ∧ lvOf h = plen.isSome ∧ wvOf h = width.isSome ∧
      pidxOf h = pidx.getD 0 ∧ plengthOf h = plen.getD 0 ∧ widthOf h = width.getD 0 := by
  intro h
  have hn := headerS_toNat pidx plen width n
  have hpidx := (pidx.getD 0).isLt
  have hplen := (plen.getD 0).isLt
  have hwidth := (width.getD 0).isLt
  have hlt := n.isLt
  have hpv := Bool.toNat_le pidx.isSome
  have hlv := Bool.toNat_le plen.isSome
  have hwv := Bool.toNat_le width.isSome
  have hopc : opcSend.toNat = 0x10 := rfl
  rw [pvOf_eq, lvOf_eq, wvOf_eq, ← decide_toNat_eq_one pidx.isSome, ← decide_toNat_eq_one plen.isSome,
    ← decide_toNat_eq_one width.isSome, opcOf_eq_iff, eq_zero_iff_toNat]
  simp only [BitVec.toNat_eq, zeroSOf_toNat, pidxOf_toNat, plengthOf_toNat, widthOf_toNat, decide_eq_decide, h]
  omega

/-! ### Decoding by the opcode (30_encoding.md R60) -/

/-- A packet of the announced length decodes as its header does. -/
theorem decodePacket_of_length {h : CmdWord} {codes : List CmdWord} (hl : codes.length + 1 = packetLength h) :
    decodePacket (h :: codes) = decodeHeader h codes := if_pos hl

/-- The header of ENABLE. -/
theorem decodeHeader_enable {h : CmdWord} (codes : List CmdWord) (hopc : opcOf h = opcEnable) :
    decodeHeader h codes = if zeroNOf h = 0 then .ok .enable else .error .mustBeZero := if_pos hopc

/-- The header of DISABLE. -/
theorem decodeHeader_disable {h : CmdWord} (codes : List CmdWord) (hopc : opcOf h = opcDisable) :
    decodeHeader h codes = if zeroNOf h = 0 then .ok .disable else .error .mustBeZero := by
  simp [decodeHeader, hopc, show opcDisable ≠ opcEnable by decide]

/-- The header of SEND. -/
theorem decodeHeader_send {h : CmdWord} (codes : List CmdWord) (hopc : opcOf h = opcSend) :
    decodeHeader h codes = decodeSend h codes := by
  simp [decodeHeader, hopc, opcodes_distinct]

/-- The header of SENDB. -/
theorem decodeHeader_sendb {h : CmdWord} (codes : List CmdWord) (hopc : opcOf h = opcSendb) :
    decodeHeader h codes = if zeroBOf h = 0 then .ok (.sendb codes) else .error .mustBeZero := by
  simp [decodeHeader, hopc, opcodes_distinct]

/-! ### What `encode` writes reads back -/

/-- The packet of a well-formed SEND decodes to it: its fields are the ones that were written, and no operand that is
present is 0. -/
theorem decode_encode_send {codes : List CmdWord} {pidx : Option (BitVec 8)} {plen : Option (BitVec 24)}
    {width : Option (BitVec 8)} (hwf : (Instr.send codes pidx plen width).wellFormed = true) :
    decode (encode (.send codes pidx plen width)) = .ok (.send codes pidx plen width) := by
  obtain ⟨_, hplen, hwidth, _⟩ := Machine.wellFormed_send hwf
  obtain ⟨hopc, hzero, hpv, hlv, hwv, hpidx, hplength, hwidthf⟩ :=
    headerS_fields pidx plen width (BitVec.ofNat 8 codes.length)
  have hlen := Laws.PacketLength.send codes pidx plen width hwf
  refine (decodePacket_of_length hlen).trans ((decodeHeader_send codes hopc).trans ?_)
  refine decodeSend_of_optFields hzero ?_ ?_ ?_ hplen hwidth
  · rw [hpv, hpidx, optField_isSome_getD]
  · rw [hlv, hplength, optField_isSome_getD]
  · rw [hwv, hwidthf, optField_isSome_getD]

/-- The packet of a well-formed SENDB decodes to it. -/
theorem decode_encode_sendb {codes : List CmdWord} (hwf : (Instr.sendb codes).wellFormed = true) :
    decode (encode (.sendb codes)) = .ok (.sendb codes) := by
  obtain ⟨hopc, hzero⟩ := headerB_fields (BitVec.ofNat 8 codes.length)
  have hlen := Laws.PacketLength.sendb codes hwf
  exact (decodePacket_of_length hlen).trans ((decodeHeader_sendb codes hopc).trans (if_pos hzero))

/-- A pulse word reads back as the instruction of its level and its duration. -/
theorem decodePulse_pulseWord (l : Level) (d : Dur) :
    decodePulse (pulseWord l d) = (Machine.Pulse.mk l d).instr := by
  have hn := pulseWord_toNat l d
  have hlt := d.isLt
  have hdur : durOf (pulseWord l d) = d := BitVec.eq_of_toNat_eq (by rw [durOf_toNat]; omega)
  have hlvl : lvlOf (pulseWord l d) = l.bit := by
    have hbit := Bool.toNat_le l.bit
    rw [lvlOf_eq, ← decide_toNat_eq_one l.bit, decide_eq_decide]
    omega
  cases l with
  | high => rw [decodePulse_of_lvl hlvl, hdur]; rfl
  | low => rw [decodePulse_of_not_lvl hlvl, hdur]; rfl

/-- Settles O1: constructor by constructor, the fields of the words that `encode` writes are the operands. -/
theorem decodeOfEncode : Obligations.DecodeOfEncode := by
  intro i hwf
  cases i with
  | enable =>
    obtain ⟨hopc, hzero⟩ := headerN_fields opcEnable
    exact (decodePacket_of_length (Laws.PacketLength.enable hwf)).trans
      ((decodeHeader_enable [] hopc).trans (if_pos hzero))
  | disable =>
    obtain ⟨hopc, hzero⟩ := headerN_fields opcDisable
    exact (decodePacket_of_length (Laws.PacketLength.disable hwf)).trans
      ((decodeHeader_disable [] hopc).trans (if_pos hzero))
  | send codes pidx plen width => exact decode_encode_send hwf
  | sendb codes => exact decode_encode_sendb hwf
  | ph d => exact congrArg Except.ok (decodePulse_pulseWord .high d)
  | pl d => exact congrArg Except.ok (decodePulse_pulseWord .low d)

/-! ### Nothing else decodes -/

/-- A header whose must-be-zero field of format N is 0 is the one of its opcode. -/
theorem eq_headerN {h : CmdWord} {opc : BitVec 8} (hopc : opcOf h = opc) (hzero : zeroNOf h = 0) :
    h = headerN opc := by
  rw [opcOf_eq_iff] at hopc
  rw [eq_zero_iff_toNat, zeroNOf_toNat] at hzero
  exact BitVec.eq_of_toNat_eq (by rw [headerN_toNat]; omega)

/-- A SENDB header whose must-be-zero field is 0 is the one of its code count. -/
theorem eq_headerB {h : CmdWord} (hopc : opcOf h = opcSendb) (hzero : zeroBOf h = 0) : h = headerB (ncodesOf h) := by
  rw [opcOf_eq_iff, show opcSendb.toNat = 0x11 from rfl] at hopc
  rw [eq_zero_iff_toNat, zeroBOf_toNat] at hzero
  exact BitVec.eq_of_toNat_eq (by rw [headerB_toNat, ncodesOf_toNat]; omega)

/-- A SEND header whose must-be-zero field is 0 is the one of the operands that it carries. -/
theorem eq_headerS {h : CmdWord} {pidx : Option (BitVec 8)} {plen : Option (BitVec 24)} {width : Option (BitVec 8)}
    (hopc : opcOf h = opcSend) (hzero : zeroSOf h = 0) (hp : optField (pvOf h) (pidxOf h) = .ok pidx)
    (hl : optField (lvOf h) (plengthOf h) = .ok plen) (hw : optField (wvOf h) (widthOf h) = .ok width) :
    h = headerS pidx plen width (ncodesOf h) := by
  obtain ⟨hpidx, rfl⟩ := optField_eq_ok_iff.mp hp
  obtain ⟨hplen, rfl⟩ := optField_eq_ok_iff.mp hl
  obtain ⟨hwidth, rfl⟩ := optField_eq_ok_iff.mp hw
  rw [opcOf_eq_iff, show opcSend.toNat = 0x10 from rfl] at hopc
  rw [eq_zero_iff_toNat, zeroSOf_toNat] at hzero
  have hbit (i : Nat) : (h.getLsbD i).toNat = h.toNat / 2 ^ i % 2 := Nat.toNat_testBit _ _
  have hpv : (pvOf h).toNat = _ := hbit 55
  have hlv : (lvOf h).toNat = _ := hbit 54
  have hwv : (wvOf h).toNat = _ := hbit 53
  apply BitVec.eq_of_toNat_eq
  rw [headerS_toNat, isSome_operandOf, isSome_operandOf, isSome_operandOf, getD_operandOf hpidx, getD_operandOf hplen,
    getD_operandOf hwidth, hpv, hlv, hwv, pidxOf_toNat, plengthOf_toNat, widthOf_toNat, ncodesOf_toNat]
  omega

/-- The code count of a SEND or SENDB packet of the announced length. -/
theorem ncodesOf_eq_length {h : CmdWord} {codes : List CmdWord} (hopc : opcOf h = opcSend ∨ opcOf h = opcSendb)
    (hl : codes.length + 1 = packetLength h) : ncodesOf h = BitVec.ofNat 8 codes.length := by
  rw [packetLength, if_pos hopc] at hl
  rw [show codes.length = (ncodesOf h).toNat by omega, BitVec.ofNat_toNat, BitVec.setWidth_eq]

/-- A packet that announces no code word has none. -/
theorem codes_eq_nil {h : CmdWord} {codes : List CmdWord} (hopc : opcOf h = opcEnable ∨ opcOf h = opcDisable)
    (hl : codes.length + 1 = packetLength h) : codes = [] := by
  have hno : ¬ (opcOf h = opcSend ∨ opcOf h = opcSendb) := by
    rcases hopc with hopc | hopc <;> simp [hopc, opcodes_distinct]
  rw [packetLength, if_neg hno] at hl
  exact List.length_eq_zero_iff.mp (by omega)

/-- What the answer of a check that passes must have been. -/
theorem eq_of_ite_eq_ok {p : Prop} [Decidable p] {i j : Instr} {e : DecodeError}
    (h : (if p then Except.ok i else Except.error e) = Except.ok j) : p ∧ i = j := by
  by_cases hp : p
  · rw [if_pos hp] at h; exact ⟨hp, Except.ok.inj h⟩
  · rw [if_neg hp] at h; cases h

/-- A header with its codes that decodes has one of the assigned opcodes and is read by it. -/
theorem decodeHeader_cases {h : CmdWord} {codes : List CmdWord} {i : Instr} (hd : decodeHeader h codes = .ok i) :
    (opcOf h = opcEnable ∧ zeroNOf h = 0 ∧ i = .enable) ∨ (opcOf h = opcDisable ∧ zeroNOf h = 0 ∧ i = .disable) ∨
      (opcOf h = opcSend ∧ decodeSend h codes = .ok i) ∨ (opcOf h = opcSendb ∧ zeroBOf h = 0 ∧ i = .sendb codes) := by
  rcases (decodeHeader_isOk_iff h codes).mp ⟨i, hd⟩ with ⟨hopc | hopc, _⟩ | ⟨hopc, _⟩ | ⟨hopc, _⟩
  · obtain ⟨hzero, rfl⟩ := eq_of_ite_eq_ok ((decodeHeader_enable codes hopc).symm.trans hd)
    exact .inl ⟨hopc, hzero, rfl⟩
  · obtain ⟨hzero, rfl⟩ := eq_of_ite_eq_ok ((decodeHeader_disable codes hopc).symm.trans hd)
    exact .inr (.inl ⟨hopc, hzero, rfl⟩)
  · exact .inr (.inr (.inl ⟨hopc, (decodeHeader_send codes hopc).symm.trans hd⟩))
  · obtain ⟨hzero, rfl⟩ := eq_of_ite_eq_ok ((decodeHeader_sendb codes hopc).symm.trans hd)
    exact .inr (.inr (.inr ⟨hopc, hzero, rfl⟩))

/-- A packet that decodes is the one that `encode` writes of what it decodes to. -/
theorem encode_of_decodePacket {h : CmdWord} {codes : List CmdWord} {i : Instr}
    (hd : decodePacket (h :: codes) = .ok i) : encode i = .packet (h :: codes) := by
  have hl := Machine.length_of_decodePacket hd
  rw [decodePacket_of_length hl] at hd
  rcases decodeHeader_cases hd with ⟨hopc, hzero, rfl⟩ | ⟨hopc, hzero, rfl⟩ | ⟨hopc, hs⟩ | ⟨hopc, hzero, rfl⟩
  · rw [codes_eq_nil (.inl hopc) hl, eq_headerN hopc hzero]; rfl
  · rw [codes_eq_nil (.inr hopc) hl, eq_headerN hopc hzero]; rfl
  · obtain ⟨hzero, pidx, plen, width, hp, hlen, hw, hplen, hwidth⟩ := optFields_of_decodeSend hs
    obtain rfl := Except.ok.inj ((decodeSend_of_optFields hzero hp hlen hw hplen hwidth).symm.trans hs)
    rw [encode, ← ncodesOf_eq_length (.inl hopc) hl, ← eq_headerS hopc hzero hp hlen hw]
  · rw [encode, ← ncodesOf_eq_length (.inr hopc) hl, ← eq_headerB hopc hzero]

/-- Only well-formed instructions are decoded from packets. -/
theorem wellFormed_of_decodePacket {h : CmdWord} {codes : List CmdWord} {i : Instr}
    (hd : decodePacket (h :: codes) = .ok i) : i.wellFormed = true := by
  cases i with
  | send codes' pidx plen width => exact (Machine.wellFormed_of_decode_send hd).2
  | sendb codes' => exact decide_eq_true (Machine.wellFormed_of_decode_sendb hd).2
  | enable => rfl
  | disable => rfl
  | ph d => rfl
  | pl d => rfl

/-- Every pulse word is the one that `encode` writes of what it decodes to. -/
theorem encode_decodePulse (w : PulseWord) : encode (decodePulse w) = .pulse w := by
  obtain ⟨l, d, rfl, _⟩ := Machine.exec_decodePulse w Machine.State.reset
  rw [decodePulse_pulseWord]
  cases l <;> rfl

/-- Settles O2: a packet is put together again from its header's fields (`encode_of_decodePacket`), and a pulse word from
its level and duration. -/
theorem encodeOfDecode : Obligations.EncodeOfDecode := by
  intro c i hd
  cases c with
  | packet words =>
    cases words with
    | nil => cases hd
    | cons h codes => exact ⟨encode_of_decodePacket hd, wellFormed_of_decodePacket hd⟩
  | pulse w =>
    obtain rfl : decodePulse w = i := Except.ok.inj hd
    refine ⟨encode_decodePulse w, ?_⟩
    unfold decodePulse
    split <;> rfl

end Sys2Proof
end

section
/-! PROOFS. The statement of the sequencer (42_waveform.md R88, R92): a walk from `first(0)` plays the codes' sequence.
What a walk plays from a position on is built up from the back: what a block plays before what follows it, what the
repetitions of a code play before the next code, and what the codes play. -/

namespace Sys2Proof.Machine

/-- A walk from `q` plays exactly `ps`, one position for each pulse instruction. -/
def Plays (P : Protocol) (pl : BitVec 24) (W R : Nat) (codes : List (List Bool)) (q : SeqPos)
    (ps : List Pulse) : Prop :=
  walk P pl W R codes ps.length q = some ps

section
variable {P : Protocol} {pl : BitVec 24} {W R : Nat} {codes : List (List Bool)}

/-- At `DONE` nothing is left to play. -/
theorem plays_done : Plays P pl W R codes .done [] := by
  unfold Plays walk
  rfl

/-- A position plays its own pulse instruction, and then what its successor plays. -/
theorem Plays.step {p : Pos} {b : List Bool} {x : Pulse} {ps : List Pulse} (hb : codes[p.ci]? = some b)
    (hx : pulseAt P pl b p = some x) (h : Plays P pl W R codes (nextPos P W R codes.length p) ps) :
    Plays P pl W R codes (.pos p) (x :: ps) := by
  unfold Plays at h ⊢
  simp only [List.length_cons, walk, hb, hx, h]

/-- What a position in a walk designates, and that the walk goes on from its successor. -/
theorem Plays.inv {p : Pos} {ps : List Pulse} (h : Plays P pl W R codes (.pos p) ps) :
    ∃ b x xs, codes[p.ci]? = some b ∧ pulseAt P pl b p = some x ∧ ps = x :: xs ∧
      Plays P pl W R codes (nextPos P W R codes.length p) xs := by
  cases ps with
  | nil => simp [Plays, walk] at h
  | cons y ys =>
    unfold Plays at h
    rw [List.length_cons, walk] at h
    split at h
    case h_1 => cases h
    case h_2 b hb =>
      split at h
      case h_2 => cases h
      case h_1 x xs hx hxs =>
        cases h
        exact ⟨b, _, _, hb, hx, rfl, hxs⟩

/-! ### Inside a block (42_waveform.md R82 to R86) -/

section
variable {ci ri : Nat} {b : List Bool} {rest : List Pulse}

/-- The repeat delay. -/
theorem plays_repDly (hb : codes[ci]? = some b)
    (h : Plays P pl W R codes (nextPos P W R codes.length ⟨ci, ri, .repDly, 0⟩) rest) :
    Plays P pl W R codes (.pos ⟨ci, ri, .repDly, 0⟩) (repeatDelay P ++ rest) :=
  Plays.step hb rfl h

/-- The data bits from number `k` on, where what follows them plays `rest`. -/
theorem plays_bits (hb : codes[ci]? = some b) (hW : b.length = W) {k : Nat} (hk : k < W)
    (h : Plays P pl W R codes (.pos ⟨ci, ri, .repDly, 0⟩) rest) :
    Plays P pl W R codes (.pos ⟨ci, ri, .bitH, k⟩) (dataPulses P pl (b.drop k) ++ rest) := by
  have hget : b[k]? = some b[k] := List.getElem?_eq_getElem (hW ▸ hk)
  rw [List.drop_eq_getElem_cons (hW ▸ hk), dataPulses_cons]
  refine Plays.step hb (by simp [pulseAt, hget]) (Plays.step hb (by simp [pulseAt, hget]) ?_)
  simp only [nextPos]
  split
  case isTrue hlt => exact plays_bits hb hW hlt h
  case isFalse hend => rw [List.drop_of_length_le (by omega)]; exact h
termination_by W - k

/-- The sync delay, if any, and then the data bits. -/
theorem plays_afterSync (hb : codes[ci]? = some b) (hW : b.length = W) (hpos : 1 ≤ W)
    (h : Plays P pl W R codes (.pos ⟨ci, ri, .repDly, 0⟩) rest) :
    Plays P pl W R codes (.pos (afterSync P ci ri)) (syncDelay P ++ (dataPulses P pl b ++ rest)) := by
  have hbits : Plays P pl W R codes (.pos ⟨ci, ri, .bitH, 0⟩) (dataPulses P pl b ++ rest) := plays_bits hb hW hpos h
  unfold afterSync syncDelay
  split
  case isTrue => exact Plays.step hb rfl hbits
  case isFalse => exact hbits

/-- The sync pulses from number `k` on, where what follows them plays `rest`. -/
theorem plays_sync (hb : codes[ci]? = some b) {k : Nat} (hk : k < P.syncCount.toNat)
    (h : Plays P pl W R codes (.pos (afterSync P ci ri)) rest) :
    Plays P pl W R codes (.pos ⟨ci, ri, .syncH, k⟩)
      (rep (P.syncCount.toNat - k) [⟨.high, P.syncHigh⟩, ⟨.low, P.syncLow⟩] ++ rest) := by
  rw [show P.syncCount.toNat - k = P.syncCount.toNat - (k + 1) + 1 by omega, rep_succ]
  refine Plays.step hb rfl (Plays.step hb rfl ?_)
  simp only [nextPos]
  split
  case isTrue hlt => exact plays_sync hb hlt h
  case isFalse hend => rw [show P.syncCount.toNat - (k + 1) = 0 by omega]; exact h
termination_by P.syncCount.toNat - k

/-- A whole repetition block. -/
theorem plays_block (hb : codes[ci]? = some b) (hW : b.length = W) (hpos : 1 ≤ W)
    (h : Plays P pl W R codes (nextPos P W R codes.length ⟨ci, ri, .repDly, 0⟩) rest) :
    Plays P pl W R codes (.pos (startBlock P ci ri)) (block P pl b ++ rest) := by
  have hafter := plays_afterSync hb hW hpos (plays_repDly hb h)
  rw [block, List.append_assoc, List.append_assoc, List.append_assoc]
  unfold startBlock syncPulses
  split
  case isTrue hsync => exact plays_sync hb hsync hafter
  case isFalse hsync => rw [show P.syncCount.toNat = 0 by omega]; exact hafter

end

/-! ### From block to block (42_waveform.md R87, R88) -/

/-- Where the sequencer goes after the last repetition of a code: to the next code, or to `DONE`. -/
def afterCode (P : Protocol) (N ci : Nat) : SeqPos := if ci + 1 < N then .pos (startBlock P (ci + 1) 0) else .done

/-- The successor of a repeat delay: the next repetition of the code, or what comes after the code. -/
theorem nextPos_repDly (P : Protocol) (W R N ci ri k : Nat) :
    nextPos P W R N ⟨ci, ri, .repDly, k⟩
      = if ri + 1 < R then .pos (startBlock P ci (ri + 1)) else afterCode P N ci := rfl

/-- The repetitions of a code from number `ri` on. -/
theorem plays_repetitions {ci ri : Nat} {b : List Bool} {rest : List Pulse} (hb : codes[ci]? = some b)
    (hW : b.length = W) (hpos : 1 ≤ W) (hri : ri < R) (h : Plays P pl W R codes (afterCode P codes.length ci) rest) :
    Plays P pl W R codes (.pos (startBlock P ci ri)) (rep (R - ri) (block P pl b) ++ rest) := by
  rw [show R - ri = R - (ri + 1) + 1 by omega, rep_succ, List.append_assoc]
  refine plays_block hb hW hpos ?_
  rw [nextPos_repDly]
  split
  case isTrue hlt => exact plays_repetitions hb hW hpos hlt h
  case isFalse hend => rw [show R - (ri + 1) = 0 by omega]; exact h
termination_by R - ri

/-- The codes from number `ci` on. -/
theorem plays_codes (hW : ∀ b ∈ codes, b.length = W) (hpos : 1 ≤ W) (hR : 0 < R) {ci : Nat} (hci : ci < codes.length) :
    Plays P pl W R codes (.pos (startBlock P ci 0)) (pulseSequence P pl R (codes.drop ci)) := by
  rw [List.drop_eq_getElem_cons hci]
  refine plays_repetitions (List.getElem?_eq_getElem hci) (hW _ (List.getElem_mem hci)) hpos hR ?_
  unfold afterCode
  split
  case isTrue hlt => exact plays_codes hW hpos hR hlt
  case isFalse hend => rw [List.drop_of_length_le (by omega)]; exact plays_done
termination_by codes.length - ci

/-- After a code the sequencer plays the codes that follow it. -/
theorem plays_afterCode (hW : ∀ b ∈ codes, b.length = W) (hpos : 1 ≤ W) (hR : 0 < R) (ci : Nat) :
    Plays P pl W R codes (afterCode P codes.length ci) (pulseSequence P pl R (codes.drop (ci + 1))) := by
  unfold afterCode
  split
  case isTrue hlt => exact plays_codes hW hpos hR hlt
  case isFalse hend => rw [List.drop_of_length_le (by omega)]; exact plays_done

/-- With no repetition there is nothing to play. -/
theorem pulseSequence_zero (P : Protocol) (pl : BitVec 24) (codes : List (List Bool)) :
    pulseSequence P pl 0 codes = [] :=
  List.flatMap_eq_nil_iff.mpr fun _ _ => rfl

/-- From `first(0)` the sequencer plays the sequence of all codes. -/
theorem plays_firstPos (P : Protocol) (pl : BitVec 24) (R : Nat) (hW : ∀ b ∈ codes, b.length = W) (hpos : 1 ≤ W) :
    Plays P pl W R codes (firstPos P R codes.length) (pulseSequence P pl R codes) := by
  unfold firstPos
  split
  case isTrue hnone =>
    rcases hnone with hcodes | rfl
    · rw [List.length_eq_zero_iff.mp hcodes]; exact plays_done
    · rw [pulseSequence_zero]; exact plays_done
  case isFalse hsome => exact plays_codes hW hpos (by omega) (by omega : 0 < codes.length)

/-! ### From any position in range -/

/-- From every position in range the sequencer reaches `DONE`. -/
theorem exists_plays_of_inRange {p : Pos} (hW : ∀ b ∈ codes, b.length = W) (hpos : 1 ≤ W)
    (h : PosInRange P W R codes.length p) : ∃ ps, Plays P pl W R codes (.pos p) ps := by
  obtain ⟨ci, ri, ph, k⟩ := p
  obtain ⟨hci, hri, hk⟩ := h
  have hb : codes[ci]? = some codes[ci] := List.getElem?_eq_getElem hci
  have hlen : codes[ci].length = W := hW _ (List.getElem_mem hci)
  have hget (hlt : k < W) : codes[ci][k]? = some codes[ci][k] := List.getElem?_eq_getElem (hlen ▸ hlt)
  have hnext := plays_afterCode (P := P) (pl := pl) hW hpos (by omega : 0 < R) ci
  have hrep : ∃ ps, Plays P pl W R codes (.pos ⟨ci, ri, .repDly, 0⟩) ps := by
    by_cases hlast : ri + 1 < R
    · have hagain := plays_repetitions hb hlen hpos hlast hnext
      exact ⟨_, plays_repDly hb (by rw [nextPos_repDly, if_pos hlast]; exact hagain)⟩
    · exact ⟨_, plays_repDly hb (by rw [nextPos_repDly, if_neg hlast]; exact hnext)⟩
  obtain ⟨rest, hrest⟩ := hrep
  have hafter := plays_afterSync hb hlen hpos hrest
  cases ph with
  | syncH => exact ⟨_, plays_sync hb hk hafter⟩
  | syncL =>
    by_cases hlast : k + 1 < P.syncCount.toNat
    · exact ⟨_, Plays.step hb rfl (by simpa only [nextPos, if_pos hlast] using plays_sync hb hlast hafter)⟩
    · exact ⟨_, Plays.step hb rfl (by simpa only [nextPos, if_neg hlast] using hafter)⟩
  | syncDly => exact ⟨_, Plays.step hb rfl (plays_bits hb hlen hpos hrest)⟩
  | bitH => exact ⟨_, plays_bits hb hlen hk hrest⟩
  | bitL =>
    have hx : pulseAt P pl codes[ci] ⟨ci, ri, .bitL, k⟩ = some ⟨.low, bitLow P pl (codes[ci][k]'(hlen ▸ hk))⟩ := by
      simp [pulseAt, hget hk]
    by_cases hlast : k + 1 < W
    · exact ⟨_, Plays.step hb hx (by simpa only [nextPos, if_pos hlast] using plays_bits hb hlen hlast hrest)⟩
    · exact ⟨_, Plays.step hb hx (by simpa only [nextPos, if_neg hlast] using hrest)⟩
  | repDly => obtain rfl := hk; exact ⟨rest, hrest⟩

end

/-- Settles O16: a walk is built up from its end, pulse by pulse, block by block and code by code
(`plays_block`, `plays_repetitions`, `plays_codes`). -/
theorem sequencerPlaysTheSequence : Obligations.SequencerPlaysTheSequence :=
  fun P pl _ R _ hpos hW => plays_firstPos P pl R hW hpos

end Sys2Proof.Machine
end

section
/-! PROOFS. The statements of the step (30_encoding.md R57, R61; 43_pin_driver.md R104; 70_reset_and_hazards.md R150) and
of the response words (60_exceptions.md R125): one equation for each situation in which a step can find the block. -/

namespace Sys2Proof.Machine

/-! ### What a step is, situation by situation -/

/-- A step that runs an instruction. -/
theorem step_of_action_run {s t : State} {i : Instr} (hr : s.rstIn.headD false = false)
    (h : action (beginStep s) = .run i t) : step s = exec i t := by
  rw [step_of_rst_low hr, h]

/-- A step whose outcome needs no instruction. -/
theorem step_of_action_outcome {s : State} {o : Host.Outcome State Fault Refusal} (hr : s.rstIn.headD false = false)
    (h : action (beginStep s) = .outcome o) : step s = o := by
  rw [step_of_rst_low hr, h]

/-- A block that takes words. -/
theorem step_accept {s : State} (hr : s.rstIn.headD false = false) (hx : ∀ c, s.activity ≠ .executing c)
    (hc : cmdReady s = true) : step s = .next (acceptWord (beginStep s)) :=
  step_of_action_outcome hr (action_accept (s := beginStep s) hx hc)

/-- A packet with all its words takes no further word. -/
theorem cmdReady_of_complete {s : State} {h : CmdWord} {codes : List CmdWord} (ha : s.activity = .receiving h codes)
    (hl : codes.length + 1 = packetLength h) : cmdReady s = false := by
  simp [cmdReady, ha, hl]

/-- A complete packet that decodes. -/
theorem step_packet {s : State} {h : CmdWord} {codes : List CmdWord} {i : Instr} (hr : s.rstIn.headD false = false)
    (ha : s.activity = .receiving h codes) (hd : decodePacket (h :: codes) = .ok i) :
    step s = exec i (beginStep s) := by
  have hc : cmdReady (beginStep s) = false := cmdReady_of_complete ha (length_of_decodePacket hd)
  refine step_of_action_run hr ((action_packet (s := beginStep s) ha hc).trans ?_)
  simp only [runPacket, hd]

/-- A complete packet that is Illegal. -/
theorem step_illegal {s : State} {h : CmdWord} {codes : List CmdWord} {e : DecodeError}
    (hr : s.rstIn.headD false = false) (ha : s.activity = .receiving h codes)
    (hc : cmdReady s = false) (hd : decodePacket (h :: codes) = .error e) :
    step s = .next (raise .illegalCommand (beginStep s)) := by
  refine step_of_action_outcome hr ((action_packet (s := beginStep s) ha hc).trans ?_)
  simp only [runPacket, hd]

/-- Inside a SEND or SENDB the transmission goes on. -/
theorem action_executing {s : State} {c : Enclosing} (ha : s.activity = .executing c) : action s = playAction s := by
  unfold action; rw [ha]

section
variable {s : State} {c : Enclosing} (hr : s.rstIn.headD false = false) (ha : s.activity = .executing c)
include hr ha

/-- A pulse instruction on the link. -/
theorem step_issued {w : PulseWord} (hs : s.stage = .issued w) : step s = exec (decodePulse w) (beginStep s) :=
  step_of_action_run hr ((action_executing (s := beginStep s) ha).trans
    (by simp only [playAction, beginStep_stage, hs]))

/-- A hold that is running. -/
theorem step_tick (hs : s.stage = .playing) (hcnt : s.cnt ≠ 0) : step s = .next (tick (beginStep s)) :=
  step_of_action_outcome hr ((action_executing (s := beginStep s) ha).trans
    (by simp only [playAction, beginStep_stage, hs, beginStep_cnt, hcnt, if_false]))

/-- A hold that is over. -/
theorem step_hold_over (hs : s.stage = .playing) (hcnt : s.cnt = 0) : step s = advance (beginStep s) :=
  step_of_action_outcome hr ((action_executing (s := beginStep s) ha).trans
    (by simp only [playAction, beginStep_stage, hs, beginStep_cnt, hcnt, if_true]))

/-- A position whose pulse instruction is not handed over yet. -/
theorem step_at_pos {p : Pos} (hs : s.stage = .ready) (hq : s.seq = some (.pos p)) :
    step s = issuePulse p (beginStep s) :=
  step_of_action_outcome hr ((action_executing (s := beginStep s) ha).trans
    (by simp only [playAction, beginStep_stage, hs, beginStep_seq, hq]))

/-- The end of a transmission. -/
theorem step_at_done (hs : s.stage = .ready) (hq : s.seq = some .done) : step s = .next (finish none (beginStep s)) :=
  step_of_action_outcome hr ((action_executing (s := beginStep s) ha).trans
    (by simp only [playAction, beginStep_stage, hs, beginStep_seq, hq]))

end

/-! ### What the block takes from the channel -/

/-- The first word of a packet. -/
theorem acceptWord_waiting {s : State} {w : CmdWord} {rest : List CmdWord} (ha : s.activity = .waiting)
    (hw : s.cmdIn = w :: rest) :
    acceptWord s = { s with cmdIn := rest, busy := true, activity := .receiving w [] } := by
  simp only [acceptWord, hw, ha]

/-- A further word of a packet. -/
theorem acceptWord_receiving {s : State} {w h : CmdWord} {rest got : List CmdWord}
    (ha : s.activity = .receiving h got) (hw : s.cmdIn = w :: rest) :
    acceptWord s = { s with cmdIn := rest, activity := .receiving h (got ++ [w]) } := by
  simp only [acceptWord, hw, ha]

/-- A block that waits for a header takes words. -/
theorem cmdReady_waiting {s : State} (ha : s.activity = .waiting) : cmdReady s = true := by simp [cmdReady, ha]

/-- A block with a packet that is not complete takes words. -/
theorem cmdReady_receiving {s : State} {h : CmdWord} {got : List CmdWord} (ha : s.activity = .receiving h got)
    (hl : got.length + 1 < packetLength h) : cmdReady s = true := by simp [cmdReady, ha, hl]

/-! ### Raising an error kind, as one update (60_exceptions.md R134) -/

/-- Raising inside a SENDB. -/
theorem raise_sendb {s : State} (e : ErrorKind) (ha : s.activity = .executing .sendb) :
    raise e s = { s with
      en := false
      pinOe := if s.en then false else s.pinOe
      pinOut := if s.en then false else s.pinOut
      trace := if s.en then s.trace ++ [.cfgIn] else s.trace
      codebuf := deadCodes s.freeIdx s.nc.toNat, freeIdx := s.freeIdx + 1
      busy := false, activity := .waiting, seq := none, stage := .ready, cnt := 0
      rsp := some (rspWord (some e)), responses := s.responses ++ [rspWord (some e)] } := by
  rw [raise, finish_sendb (s := { s with seq := none, stage := .ready, cnt := 0 }) ha, disableBody_eq]
  rfl

/-- Raising inside a SEND. -/
theorem raise_send {s : State} (e : ErrorKind) (ha : s.activity = .executing .send) :
    raise e s = { s with
      codebuf := deadCodes s.freeIdx s.nc.toNat, freeIdx := s.freeIdx + 1
      busy := false, activity := .waiting, seq := none, stage := .ready, cnt := 0
      rsp := some (rspWord (some e)), responses := s.responses ++ [rspWord (some e)] } := by
  rw [raise, finish_send (s := { s with seq := none, stage := .ready, cnt := 0 }) ha]
  rfl

/-- Raising outside a SEND or SENDB. -/
theorem raise_other {s : State} (e : ErrorKind) (hx : ∀ c, s.activity ≠ .executing c) :
    raise e s = { s with
      busy := false, activity := .waiting, seq := none, stage := .ready, cnt := 0
      rsp := some (rspWord (some e)), responses := s.responses ++ [rspWord (some e)] } := by
  rw [raise, finish_other (s := { s with seq := none, stage := .ready, cnt := 0 }) hx]
  rfl

/-! ### The statements -/

/-- Settles O30: one equation for each activity. -/
theorem raiseEndsTheCommand : Obligations.RaiseEndsTheCommand :=
  fun _ e => ⟨raise_sendb e, raise_send e, raise_other e⟩

/-- Settles O31: a packet that decodes is complete, so the step runs it. -/
theorem stepRunsThePacket : Obligations.StepRunsThePacket := fun _ _ _ _ hr ha hd => step_packet hr ha hd

/-- Settles O32: inside a transmission the word on the link runs first. -/
theorem stepRunsThePulse : Obligations.StepRunsThePulse := fun _ _ _ hr ha hs => step_issued hr ha hs

/-- Settles O33: a packet that decodes to no instruction raises IllegalCommand, outside a SEND or SENDB; `SEQ`, the stage
and `CNT`, which raising clears, were clear. -/
theorem illegalPacketChangesNothing : Obligations.IllegalPacketChangesNothing := by
  intro s h codes hr ha hl hno hseq hstage hcnt
  cases hd : decodePacket (h :: codes) with
  | ok i => exact absurd hd (hno i)
  | error e =>
    rw [step_illegal hr ha (cmdReady_of_complete ha hl) hd, raise_other _ (by simp [ha])]
    simp only [beginStep, hseq, hstage, hcnt]
    rfl

/-- Settles O34: what `acceptWord` takes in each activity, and that without a word it takes nothing. -/
theorem receptionHasNoEffect : Obligations.ReceptionHasNoEffect := by
  intro s w rest h got hr
  refine ⟨fun ha hw => ?_, fun ha hl hw => ?_, fun hact hw => ?_⟩
  · rw [step_accept hr (by simp [ha]) (cmdReady_waiting ha), acceptWord_waiting (s := beginStep s) ha hw]
    rfl
  · rw [step_accept hr (by simp [ha]) (cmdReady_receiving ha hl), acceptWord_receiving (s := beginStep s) ha hw]
    rfl
  · rcases hact with ha | ⟨ha, hl⟩
    · exact step_of_no_word hr (by simp [ha]) (cmdReady_waiting ha) hw
    · exact step_of_no_word hr (by simp [ha]) (cmdReady_receiving ha hl) hw

/-- Settles O36: the step is `resetStep`, whose trace gains `CfgIn` exactly in an Armed session. -/
theorem resetAbandonsEverything : Obligations.ResetAbandonsEverything := by
  intro s hr
  have htrace : (resetStep s).trace = s.trace ++ (if s.en then [.cfgIn] else []) := by
    rw [resetStep_trace]
    cases s.en <;> simp
  rw [step_of_rst_high hr, ← htrace]
  rfl

/-- Settles O6: the words by evaluation, and the fields of a failure kind by kind. -/
theorem responseWords : Obligations.ResponseWords :=
  ⟨by decide, by decide, by decide, by decide, by decide, by decide, by decide, by decide,
    fun e => ⟨failOf_rspWord (some e), by cases e <;> decide⟩⟩

end Sys2Proof.Machine
end

section
/-! PROOFS. The statements of SEND and SENDB up to the launch of their transmission (44_session.md R108 to R116), of the
pulse instructions (43_pin_driver.md R97, R99) and of the effective pulse length (42_waveform.md R81). -/

namespace Sys2Proof.Machine

/-! ### The launch -/

/-- A transmission of no codes is over at once, whatever `PROTO` is (44_session.md R111). -/
theorem launch_of_no_codes {s : State} (h : s.nc = 0) : launch s = { s with seq := some .done, stage := .ready } :=
  if_pos h

/-- A transmission with a selected protocol stands at `first(0)`. -/
theorem launch_of_protocol {s : State} {P : Protocol} (h : s.nc ≠ 0)
    (hP : getProtocol s.params.table s.proto = .ok P) :
    launch s = { s with seq := some (firstPos P s.repeatReg.toNat s.nc.toNat), stage := .ready } := by
  simp only [launch, h, if_false, hP]

/-- A transmission of codes without a selected protocol raises (42_waveform.md R89). -/
theorem launch_of_no_protocol {s : State} (h : s.nc ≠ 0) (hv : validIndex s.proto = false) :
    launch s = raise .protocolUnselected s := by
  simp only [launch, h, if_false, getProtocol_invalid hv]

/-! ### The body of SEND -/

/-- SEND with operands that have an encoding is its body on the loaded codes. -/
theorem exec_send {codes : List CmdWord} {pidx : Option (BitVec 8)} {plen : Option (BitVec 24)}
    {width : Option (BitVec 8)} (h : (Instr.send codes pidx plen width).wellFormed = true) (s : State) :
    exec (.send codes pidx plen width) s
      = .next (sendBody pidx plen (width.getD 40) (loadCodes .send codes s)) := execSend_eq h

/-- SENDB of codes that fit a packet is the body of ENABLE and then that of SEND with no overrides at width 40. -/
theorem exec_sendb {codes : List CmdWord} (hl : codes.length ≤ 255) (hc : codes ≠ []) (s : State) :
    exec (.sendb codes) s = .next (sendBody none none 40 (enableBody (loadCodes .sendb codes s))) :=
  execSendb_eq hl hc

/-- The state of a SEND that has stored its overrides and its width (44_session.md R108 lines 2 to 6). -/
def stored (pidx : Option (BitVec 8)) (plen : Option (BitVec 24)) (w : BitVec 8) (s : State) : State :=
  { s with proto := pidx.getD s.proto, plenv := plen.isSome || s.plenv, plen := plen.getD s.plen, codelen := w }

@[simp] theorem stored_activity (pidx : Option (BitVec 8)) (plen : Option (BitVec 24)) (w : BitVec 8) (s : State) :
    (stored pidx plen w s).activity = s.activity := rfl

section
variable {pidx : Option (BitVec 8)} {plen : Option (BitVec 24)} {w : BitVec 8} {s : State}
  (hen : s.en = true) (hi : ∀ i, pidx = some i → validIndex i = true)
include hen hi

/-- SEND with codes that fit stores its overrides and launches. -/
theorem sendBody_of_fit {bs : List (List Bool)} (hbs : encodeAll w.toNat s.codebuf = .ok bs) :
    sendBody pidx plen w s = launch (stored pidx plen w s) := by
  rw [sendBody_stored hen hi, hbs]; rfl

/-- SEND with a code that does not fit stores its overrides and raises CodeTooWide. -/
theorem sendBody_of_tooWide (hw : 1 ≤ w.toNat) (hbig : ∃ c ∈ s.codebuf, 2 ^ w.toNat ≤ c.toNat) :
    sendBody pidx plen w s = raise .codeTooWide (stored pidx plen w s) := by
  rw [sendBody_stored hen hi, (encodeAll_error_iff hw _ _).mpr ⟨rfl, hbig⟩]; rfl

/-- SEND that fails after its overrides are stored: a code that does not fit decides before a protocol that is not
selected. -/
theorem sendBody_fails (hw : 1 ≤ w.toNat)
    (hfail : (∃ c ∈ s.codebuf, 2 ^ w.toNat ≤ c.toNat) ∨ (s.nc ≠ 0 ∧ validIndex (pidx.getD s.proto) = false)) :
    ∃ e, ((∃ c ∈ s.codebuf, 2 ^ w.toNat ≤ c.toNat) → e = .codeTooWide) ∧
      ((∀ c ∈ s.codebuf, c.toNat < 2 ^ w.toNat) → e = .protocolUnselected) ∧
      sendBody pidx plen w s = raise e (stored pidx plen w s) := by
  by_cases hbig : ∃ c ∈ s.codebuf, 2 ^ w.toNat ≤ c.toNat
  · refine ⟨.codeTooWide, fun _ => rfl, fun hfit => ?_, sendBody_of_tooWide hen hi hw hbig⟩
    obtain ⟨c, hc, hge⟩ := hbig
    exact absurd (hfit c hc) (by omega)
  · obtain ⟨hnc, hv⟩ := hfail.resolve_left hbig
    simp only [not_exists, not_and, not_le] at hbig
    obtain ⟨bs, hbs⟩ := (encodeAll_isOk_iff hw s.codebuf).mpr hbig
    refine ⟨.protocolUnselected, fun ⟨c, hc, hge⟩ => absurd (hbig c hc) (by omega), fun _ => rfl, ?_⟩
    exact (sendBody_of_fit hen hi hbs).trans (launch_of_no_protocol hnc hv)

end

/-! ### SEND -/

/-- Settles O20: past its checks SEND launches (`sendBody_of_fit`), and the launch stands at `DONE` for no codes and at
`first(0)` otherwise. -/
theorem sendLaunches : Obligations.SendLaunches := by
  intro s codes pidx plen width bs hwf hen hi hbs hsel
  obtain ⟨hlen, _⟩ := wellFormed_send hwf
  have hbody : sendBody pidx plen (width.getD 40) (loadCodes .send codes s) = launch _ :=
    sendBody_of_fit (plen := plen) (s := loadCodes .send codes s) hen hi hbs
  rw [exec_send hwf, hbody]
  by_cases hc : codes = []
  · refine ⟨.done, ?_, fun _ => rfl, fun _ hne => absurd hc hne⟩
    rw [launch_of_no_codes (s := stored _ _ _ (loadCodes .send codes s)) ((nc_eq_zero_iff hlen).mpr hc)]
    rfl
  · have hnc : BitVec.ofNat 8 codes.length ≠ 0 := mt (nc_eq_zero_iff hlen).mp hc
    obtain ⟨P, hP⟩ := (getProtocol_isOk_iff s.params.table _).mpr (hsel hc)
    refine ⟨firstPos P s.repeatReg.toNat codes.length, ?_, fun h => absurd h hc, fun P' _ hP' => ?_⟩
    · rw [launch_of_protocol (s := stored _ _ _ (loadCodes .send codes s)) hnc hP]
      simp only [stored, loadCodes, toNat_nc hlen]
    · rw [Except.ok.inj (hP.symm.trans hP')]

/-- Settles O21: the Armed check comes first, the protocol operand's second, and both raise in the state of the loaded
codes. -/
theorem sendRefusedBeforeStoring : Obligations.SendRefusedBeforeStoring := by
  intro s codes pidx plen width i hwf href
  obtain ⟨hlen, _⟩ := wellFormed_send hwf
  rw [exec_send hwf]
  cases hen : s.en with
  | false =>
    rw [sendBody_idle (s := loadCodes .send codes s) hen, raise_send _ (loadCodes_activity ..)]
    simp only [loadCodes, toNat_nc hlen, hen]
    rfl
  | true =>
    obtain ⟨rfl, hi⟩ := href.resolve_left (by simp [hen])
    rw [sendBody_unknown (s := loadCodes .send codes s) hen hi, raise_send _ (loadCodes_activity ..)]
    simp only [loadCodes, toNat_nc hlen, hen]
    rfl

/-- The responses of the two failures after the overrides are stored. -/
theorem rspWord_tooWide_unselected :
    rspWord (some .codeTooWide) = 0xA ∧ rspWord (some .protocolUnselected) = 0xC := by decide

/-- Settles O22: which error is raised is `sendBody_fails`, and raising it inside a SEND is one update. -/
theorem sendFailsAfterStoring : Obligations.SendFailsAfterStoring := by
  intro s codes pidx plen width hwf hen hi hfail
  obtain ⟨hlen, _, _, hw⟩ := wellFormed_send hwf
  obtain ⟨e, hbig, hfit, hbody⟩ := sendBody_fails (plen := plen) (s := loadCodes .send codes s) hen hi hw
    (hfail.imp_right fun ⟨hc, hv⟩ => ⟨mt (nc_eq_zero_iff hlen).mp hc, hv⟩)
  refine ⟨rspWord (some e), fun h => ?_, fun h => ?_, ?_⟩
  · rw [hbig h, rspWord_tooWide_unselected.1]
  · rw [hfit h, rspWord_tooWide_unselected.2]
  · rw [exec_send hwf, hbody, raise_send e (stored_activity ..)]
    simp only [stored, loadCodes, toNat_nc hlen]

/-! ### SENDB -/

/-- The loaded codes of a SENDB in the session that it has armed. -/
theorem enableBody_loadCodes (codes : List CmdWord) (s : State) :
    enableBody (loadCodes .sendb codes s) = { s with
      en := true
      pinOe := if s.en then s.pinOe else true
      trace := if s.en then s.trace else s.trace ++ [.cfgOut]
      busy := true, activity := .executing .sendb
      nc := BitVec.ofNat 8 codes.length, codebuf := codes } := by
  rw [enableBody_eq]; rfl

/-- Settles O24: no codes is the branch of R114, which only loads and drops the empty list. -/
theorem sendbWithoutCodes : Obligations.SendbWithoutCodes := fun _ => rfl

/-- Settles O25: armed by its own ENABLE, SENDB passes the checks of SEND and launches. -/
theorem sendbLaunches : Obligations.SendbLaunches := by
  intro s codes P bs hc hlen hbs hP
  have hnc : BitVec.ofNat 8 codes.length ≠ 0 := mt (nc_eq_zero_iff hlen).mp hc
  have hbody := sendBody_of_fit (pidx := none) (plen := none) (w := 40)
    (s := enableBody (loadCodes .sendb codes s)) (by rw [enableBody_loadCodes]) (by simp)
    (by rw [enableBody_loadCodes]; exact hbs)
  have hlaunch := launch_of_protocol (s := stored none none 40 (enableBody (loadCodes .sendb codes s)))
    (by rw [enableBody_loadCodes]; exact hnc) (by rw [enableBody_loadCodes]; exact hP)
  rw [exec_sendb hlen hc, hbody, hlaunch, enableBody_loadCodes]
  simp only [stored, toNat_nc hlen]
  rfl

/-- Settles O26: which error is raised is `sendBody_fails`, and raising it inside a SENDB disarms the session. -/
theorem sendbFailsDisarmed : Obligations.SendbFailsDisarmed := by
  intro s codes hlen hfail
  have hc : codes ≠ [] := by
    rcases hfail with ⟨c, hmem, _⟩ | ⟨hc, _⟩
    · exact List.ne_nil_of_mem hmem
    · exact hc
  have hnc : BitVec.ofNat 8 codes.length ≠ 0 := mt (nc_eq_zero_iff hlen).mp hc
  obtain ⟨e, hbig, hfit, hbody⟩ := sendBody_fails (pidx := none) (plen := none) (w := 40)
    (s := enableBody (loadCodes .sendb codes s)) (by rw [enableBody_loadCodes]) (by simp) (by decide)
    (by rw [enableBody_loadCodes]; exact hfail.imp_right fun ⟨_, hv⟩ => ⟨hnc, hv⟩)
  rw [enableBody_loadCodes] at hbig hfit
  refine ⟨rspWord (some e), fun h => ?_, fun h => ?_, ?_⟩
  · rw [hbig h, rspWord_tooWide_unselected.1]
  · rw [hfit h, rspWord_tooWide_unselected.2]
  · have hact : (stored none none 40 (enableBody (loadCodes .sendb codes s))).activity = .executing .sendb := by
      rw [stored_activity, enableBody_loadCodes]
    rw [exec_sendb hlen hc, hbody, raise_sendb e hact, enableBody_loadCodes]
    cases hen : s.en <;> simp [stored, toNat_nc hlen]

/-! ### Operands that no packet encodes -/

/-- More codes than a packet carries. -/
theorem codesFit_eq_false {codes : List CmdWord} (h : 255 < codes.length) : codesFit codes = false :=
  decide_eq_false (show ¬ codes.length ≤ 255 by omega)

/-- Settles O23: such operands are not well formed, and then both commands raise IllegalCommand at once. -/
theorem unencodableOperandsAreIllegal : Obligations.UnencodableOperandsAreIllegal := by
  intro s codes pidx plen width hx
  refine ⟨fun hbad => ?_, fun hlong => ?_⟩
  · have hwf : ¬ (Instr.send codes pidx plen width).wellFormed = true := by
      rcases hbad with hlong | rfl | rfl
      · simp [Instr.wellFormed, codesFit_eq_false hlong]
      · simp [Instr.wellFormed, presentNonzero]
      · simp [Instr.wellFormed, presentNonzero]
    have hexec : exec (.send codes pidx plen width) s = .next (raise .illegalCommand s) :=
      congrArg Host.Outcome.next (if_neg hwf)
    rw [hexec, raise_other _ hx]
    rfl
  · have hwf : ¬ (Instr.sendb codes).wellFormed = true := by simp [Instr.wellFormed, codesFit_eq_false hlong]
    have hexec : exec (.sendb codes) s = .next (raise .illegalCommand s) :=
      congrArg Host.Outcome.next (if_neg hwf)
    rw [hexec, raise_other _ hx]
    rfl

/-! ### The pulse instructions -/

/-- PH drives the level `HIGH`. -/
theorem exec_ph (d : Dur) (s : State) : exec (.ph d) s = .next (drive .high d s) := rfl

/-- PL drives the level `LOW`. -/
theorem exec_pl (d : Dur) (s : State) : exec (.pl d) s = .next (drive .low d s) := rfl

/-- A pulse instruction in Idle is refused before any write. -/
theorem drive_idle {l : Level} {d : Dur} {s : State} (h : s.en = false) :
    drive l d s = raise .transmitterDisabled s := if_neg (by simp [h])

/-- Settles O27: the Armed case of `drive`, at the level `HIGH`. -/
theorem pulseHighDrives : Obligations.PulseHighDrives := fun s d hen => by
  rw [exec_ph, drive_armed hen]; rfl

/-- Settles O28: the Armed case of `drive`, at the level `LOW`. -/
theorem pulseLowDrives : Obligations.PulseLowDrives := fun s d hen => by
  rw [exec_pl, drive_armed hen]; rfl

/-- Settles O29: the Idle case of `drive` at either level, and what raising does inside a SEND. -/
theorem pulseRefusedWhenIdle : Obligations.PulseRefusedWhenIdle := by
  intro s d hen
  refine ⟨?_, ?_, fun ha => ?_⟩
  · rw [exec_ph, drive_idle hen]
  · rw [exec_pl, drive_idle hen]
  · rw [exec_ph, drive_idle hen, raise_send _ ha]; rfl

/-! ### The effective pulse length -/

/-- GET answers a record of the table. -/
theorem mem_table_of_getProtocol {t : ProtoTable} {i : BitVec 8} {P : Protocol} (h : getProtocol t i = .ok P) :
    P = t.shutter ∨ P = t.garage := by
  unfold getProtocol at h
  split at h
  case isTrue =>
    obtain rfl := Except.ok.inj h
    split
    · exact .inl rfl
    · exact .inr rfl
  case isFalse => cases h

/-- Settles O15: a configured pulse length is at least 1 by the register invariant, a protocol's own by the table's. -/
theorem effectivePulseLengthPositive : Obligations.EffectivePulseLengthPositive := by
  intro s P h hP
  refine ⟨rfl, ?_⟩
  have ⟨⟨hshutter, hgarage⟩, _⟩ := h.params
  unfold effectivePulseLen
  split
  case isTrue hconf => exact h.plen_pos hconf
  case isFalse =>
    rcases mem_table_of_getProtocol hP with rfl | rfl
    · exact hshutter
    · exact hgarage

end Sys2Proof.Machine
end

section
/-! PROOFS. The statements that the invariant of 10_state.md R30 holds at reset, is kept, and lets every step proceed, and
that no reachable state leaves the transmitter keyed (60_exceptions.md R146). -/

namespace Sys2Proof.Machine

/-! ### A state that meets the invariant always has a next one -/

/-- Every instruction answers a next state: an error kind is a response, not a stop. -/
theorem exists_exec_next (i : Instr) (s : State) : ∃ t, exec i s = .next t := by
  cases i <;> exact ⟨_, rfl⟩

/-- A position inside a transmission designates a pulse instruction, so it can be handed over. -/
theorem Inv.issuePulse_eq {s : State} {c : Enclosing} {p : Pos} (h : Inv s) (ha : s.activity = .executing c)
    (hq : s.seq = some (.pos p)) :
    ∃ x : Pulse, issuePulse p s = .next { s with stage := .issued (pulseWord x.level x.dur) } := by
  obtain ⟨_, _, ⟨bs, hbs⟩, hplay⟩ := (activityOk_executing_iff ha).mp h.act
  obtain ⟨P, hP, hp, _⟩ : PlayingOk s p := by simpa [hq] using hplay
  obtain ⟨x, hx, _⟩ := designated_ok hP hp h.regs.codebuf_len hbs
  exact ⟨x, by simp only [issuePulse, hx]⟩

/-- The end of a hold at a position with a selected protocol. -/
theorem advance_of_pos {s : State} {p : Pos} {P : Protocol} (hq : s.seq = some (.pos p))
    (hP : getProtocol s.params.table s.proto = .ok P) :
    advance s = .next { s with
      seq := some (nextPos P s.codelen.toNat s.repeatReg.toNat s.nc.toNat p), stage := .ready } := by
  simp only [advance, hq, hP]

/-- A hold that is over belongs to a position, whose successor is next. -/
theorem Inv.advance_eq {s : State} {c : Enclosing} (h : Inv s) (ha : s.activity = .executing c)
    (hs : s.stage = .playing) : ∃ q, advance s = .next { s with seq := some q, stage := .ready } := by
  obtain ⟨p, hq, P, hP, _⟩ := h.playingOk ha (by simp [hs])
  exact ⟨_, advance_of_pos hq hP⟩

/-- Inside a transmission a step with `rst` low answers a next state. -/
theorem Inv.exists_step_executing {s : State} {c : Enclosing} (h : Inv s) (hr : s.rstIn.headD false = false)
    (ha : s.activity = .executing c) : ∃ t, step s = .next t := by
  have hb := beginStep_keeps_inv h
  cases hs : s.stage with
  | issued w => rw [step_issued hr ha hs]; exact exists_exec_next _ _
  | playing =>
    by_cases hcnt : s.cnt = 0
    · obtain ⟨q, he⟩ := hb.advance_eq ha hs
      exact ⟨_, (step_hold_over hr ha hs hcnt).trans he⟩
    · exact ⟨_, step_tick hr ha hs hcnt⟩
  | ready =>
    obtain ⟨_, _, _, ⟨hq, _⟩ | ⟨p, hq, _⟩⟩ := (activityOk_executing_iff ha).mp h.act
    · exact ⟨_, step_at_done hr ha hs hq⟩
    · obtain ⟨x, he⟩ := hb.issuePulse_eq ha hq
      exact ⟨_, (step_at_pos hr ha hs hq).trans he⟩

/-- Where a word can be taken or a packet is complete, a step with `rst` low answers a next state. -/
theorem exists_step_outside {s : State} (hr : s.rstIn.headD false = false) (hx : ∀ c, s.activity ≠ .executing c) :
    ∃ t, step s = .next t := by
  by_cases hc : cmdReady s = true
  · exact ⟨_, step_accept hr hx hc⟩
  · have hc : cmdReady s = false := by simpa using hc
    cases ha : s.activity with
    | waiting => rw [cmdReady_waiting ha] at hc; cases hc
    | executing c => exact absurd ha (hx c)
    | receiving h codes =>
      cases hd : decodePacket (h :: codes) with
      | ok i => rw [step_packet hr ha hd]; exact exists_exec_next _ _
      | error e => exact ⟨_, step_illegal hr ha hc hd⟩

/-- The block never stops. -/
theorem Inv.exists_step {s : State} (h : Inv s) : ∃ t, step s = .next t := by
  cases hr : s.rstIn.headD false with
  | true => exact ⟨_, step_of_rst_high hr⟩
  | false =>
    by_cases hx : ∀ c, s.activity ≠ .executing c
    · exact exists_step_outside hr hx
    · simp only [not_forall, not_not] at hx
      obtain ⟨c, ha⟩ := hx
      exact h.exists_step_executing hr ha

/-! ### The statements -/

/-- Settles O38: with the parameters of this hardware, which are sound. -/
theorem invAtReset : Obligations.InvAtReset := inv_init config_sound [] []

/-- Settles O39: by the ways a step can go (`step_keeps_inv`). -/
theorem stepKeepsInv : Obligations.StepKeepsInv := fun _ _ h ht => step_keeps_inv h ht

/-- Settles O40: outside a transmission no step can stop, and inside one the invariant gives the position that the only
steps that could stop ask for. -/
theorem stepAlwaysProceeds : Obligations.StepAlwaysProceeds := fun _ h => h.exists_step

/-- Settles O42: a block that is not busy waits for a header with the pin low, and the pin follows the session state. -/
theorem neverKeyedBetweenCommands : Obligations.NeverKeyedBetweenCommands := by
  intro words rst n t hrun
  obtain ⟨h, _⟩ := inv_of_run_reset hrun
  refine ⟨fun hbusy => ?_, fun hen => ?_⟩
  · obtain ⟨_, _, _, hout⟩ := h.outside (by simp [h.waiting_of_not_busy hbusy])
    exact hout
  · have hoe : t.pinOe = false := h.pin.oe_eq_en.trans hen
    exact ⟨hoe, h.pin.out_low hoe⟩

end Sys2Proof.Machine
end

section
/-! PROOFS. The statements of the responses (30_encoding.md R64; 20_memory.md R40): every operation of a step issues no
response or ends the command with one. -/

namespace Sys2Proof.Machine

/-! ### What an operation does to the responses -/

/-- An operation issues no response and ends no command, or it ends the command with one response. -/
inductive Answer (s t : State) : Prop
  /-- no response, and a command in flight stays in flight -/
  | silent (hresp : t.responses = s.responses) (hbusy : s.busy = true → t.busy = true)
  /-- one response, and no command is in flight any more -/
  | ends (r : Option ErrorKind) (hresp : t.responses = s.responses ++ [rspWord r]) (hrsp : t.rsp = some (rspWord r))
      (hbusy : t.busy = false)

/-- What comes before an answer and issues none itself does not change it. -/
theorem Answer.of_start {s s' t : State} (h : Answer s' t) (hresp : s'.responses = s.responses)
    (hbusy : s.busy = true → s'.busy = true) : Answer s t := by
  cases h with
  | silent hr hb => exact .silent (hr.trans hresp) fun h => hb (hbusy h)
  | ends r hr hrsp hb => exact .ends r (by rw [hr, hresp]) hrsp hb

/-- A response. -/
theorem answer_respond (r : Option ErrorKind) (s : State) : Answer s (respond r s) := .ends r rfl rfl rfl

/-- The end of a command. -/
theorem answer_finish (r : Option ErrorKind) (s : State) : Answer s (finish r s) :=
  .ends r (by simp) (by simp) (by simp)

/-- Raising an error kind. -/
theorem answer_raise (e : ErrorKind) (s : State) : Answer s (raise e s) := .ends (some e) (by simp) (by simp) (by simp)

/-- The body of SEND raises, with its overrides stored or not, or launches. -/
theorem answer_sendBody (pidx : Option (BitVec 8)) (plen : Option (BitVec 24)) (w : BitVec 8) (s : State) :
    Answer s (sendBody pidx plen w s) := by
  rcases sendBody_cases pidx plen w s with ⟨e, he⟩ | ⟨_, _, ⟨e, he⟩ | ⟨_, _, _, _, he⟩⟩
  · exact he ▸ answer_raise e s
  · exact he ▸ (answer_raise e _).of_start rfl id
  · exact he ▸ .silent rfl id

/-- A pulse instruction drives the pin or is refused. -/
theorem answer_drive (l : Level) (d : Dur) (s : State) : Answer s (drive l d s) := by
  rcases drive_cases l d s with ⟨_, he⟩ | ⟨_, he⟩
  · exact he ▸ .silent rfl id
  · exact he ▸ answer_raise _ s

/-- Every instruction. -/
theorem answer_exec {i : Instr} {s t : State} (ht : exec i s = .next t) : Answer s t := by
  cases i with
  | enable => cases ht; exact (answer_respond none _).of_start (by simp [enableBody_eq]) (by simp [enableBody_eq])
  | disable => cases ht; exact (answer_respond none _).of_start (by simp [disableBody_eq]) (by simp [disableBody_eq])
  | send codes pidx plen width =>
    cases ht
    split
    · exact (answer_sendBody _ _ _ _).of_start rfl (fun _ => rfl)
    · exact answer_raise _ s
  | sendb codes =>
    cases ht
    split
    · split
      · exact (answer_respond none _).of_start rfl (fun _ => rfl)
      · exact (answer_sendBody _ _ _ _).of_start (by simp [enableBody_eq]) (by simp [enableBody_eq])
    · exact answer_raise _ s
  | ph d => cases ht; exact answer_drive .high d s
  | pl d => cases ht; exact answer_drive .low d s

/-- Taking a word, or waiting for one. -/
theorem answer_acceptWord (s : State) : Answer s (acceptWord s) := by
  refine .silent (acceptWord_responses s) fun hb => ?_
  unfold acceptWord
  split
  · exact hb
  · split
    · rfl
    · exact hb
    · exact hb

/-- The end of a hold. -/
theorem answer_advance {s t : State} (ht : advance s = .next t) : Answer s t := by
  rcases advance_cases s with ⟨_, he⟩ | ⟨_, he⟩ | ⟨_, _, ⟨_, he⟩ | ⟨_, _, he⟩⟩ <;> cases he.symm.trans ht
  · exact .silent rfl id
  · exact answer_raise _ s
  · exact .silent rfl id

/-- Handing over a pulse instruction. -/
theorem answer_issuePulse {p : Pos} {s t : State} (ht : issuePulse p s = .next t) : Answer s t := by
  rcases issuePulse_cases p s with ⟨_, _, he⟩ | ⟨e, _, he⟩ | ⟨_, he⟩ <;> cases he.symm.trans ht
  · exact .silent rfl id
  · exact answer_raise e s

/-- Every step: reset issues no response, and any other step answers by what it does. -/
theorem step_answer {s t : State} (ht : step s = .next t) :
    (s.rstIn.headD false = true ∧ t.responses = s.responses) ∨ (s.rstIn.headD false = false ∧ Answer s t) := by
  have hstart {t : State} (h : Answer (beginStep s) t) : Answer s t := h.of_start rfl id
  cases step_cases ht with
  | reset hr ht => exact .inl ⟨hr, ht ▸ rfl⟩
  | accept hr _ _ ht => exact .inr ⟨hr, hstart (ht ▸ answer_acceptWord _)⟩
  | illegal hr _ _ _ _ _ _ ht => exact .inr ⟨hr, hstart (ht ▸ answer_raise _ _)⟩
  | command hr _ _ _ _ _ ht => exact .inr ⟨hr, hstart (answer_exec ht)⟩
  | pulse hr _ _ l d _ ht => exact .inr ⟨hr, hstart (ht ▸ answer_drive l d _)⟩
  | tick hr _ _ _ _ ht => exact .inr ⟨hr, hstart (ht ▸ .silent rfl id)⟩
  | advance hr _ _ _ _ ht => exact .inr ⟨hr, hstart (answer_advance ht)⟩
  | issue hr _ _ _ _ _ ht => exact .inr ⟨hr, hstart (answer_issuePulse ht)⟩
  | done hr _ _ _ _ ht => exact .inr ⟨hr, hstart (ht ▸ answer_finish none _)⟩

/-! ### Responses and `BUSY` -/

/-- A block that waits for a header issues no response. -/
theorem step_silent_of_waiting {s t : State} (ha : s.activity = .waiting) (ht : step s = .next t) :
    t.responses = s.responses := by
  cases hr : s.rstIn.headD false with
  | true => cases (step_of_rst_high hr).symm.trans ht; rfl
  | false =>
    cases (step_accept hr (by simp [ha]) (cmdReady_waiting ha)).symm.trans ht
    exact acceptWord_responses _

/-- Settles O46: a step that issues a response is one that ends a command, and the block was busy because one that is not
busy waits for a header. -/
theorem oneResponsePerCommand : Obligations.OneResponsePerCommand := by
  intro s t h ht
  refine ⟨fun hne => ?_, fun hr hbusy hend hsame => ?_⟩
  · have hbusy : s.busy = true := by
      rw [← Bool.not_eq_false]
      exact fun hb => hne (step_silent_of_waiting (h.waiting_of_not_busy hb) ht)
    rcases step_answer ht with ⟨_, hsame⟩ | ⟨_, hans⟩
    · exact absurd hsame hne
    · cases hans with
      | silent hsame _ => exact absurd hsame hne
      | ends r hresp hrsp hend => exact ⟨hbusy, hend, rspWord r, rspWord_legal r, hresp, hrsp⟩
  · rcases step_answer ht with ⟨hr', _⟩ | ⟨_, hans⟩
    · rw [hr] at hr'; cases hr'
    · cases hans with
      | silent _ hstays => rw [hstays hbusy] at hend; cases hend
      | ends r hresp _ _ => simp [hresp] at hsame

/-- The responses only grow, by at most one (20_memory.md R40). -/
theorem step_responses_grow {s t : State} (ht : step s = .next t) :
    ∃ rs, t.responses = s.responses ++ rs ∧ rs.length ≤ 1 := by
  rcases step_answer ht with ⟨_, hsame⟩ | ⟨_, ⟨hsame, _⟩ | ⟨r, hresp, _, _⟩⟩
  · exact ⟨[], by simp [hsame], by simp⟩
  · exact ⟨[], by simp [hsame], by simp⟩
  · exact ⟨[rspWord r], hresp, by simp⟩

end Sys2Proof.Machine
end

section
/-! PROOFS. The statements of the pin and its trace (43_pin_driver.md R95, R100, R105; 20_memory.md R43): what every
operation of a step does to the pin, the session state and the trace together. -/

namespace Sys2Proof.Machine

/-! ### What an operation other than a pulse instruction does to the pin -/

/-- An operation leaves the session and the pin as they are, opens the session, closes it, or opens and closes it; the
strobe `pin_wr` is not touched. -/
inductive Bracket (s t : State) : Prop
  | same (hwr : t.pinWr = s.pinWr) (htrace : t.trace = s.trace) (hen : t.en = s.en) (hoe : t.pinOe = s.pinOe)
      (hout : t.pinOut = s.pinOut)
  | opened (hwr : t.pinWr = s.pinWr) (hs : s.en = false) (htrace : t.trace = s.trace ++ [.cfgOut]) (hen : t.en = true)
      (hoe : t.pinOe = true) (hout : t.pinOut = s.pinOut)
  | closed (hwr : t.pinWr = s.pinWr) (hs : s.en = true) (htrace : t.trace = s.trace ++ [.cfgIn]) (hen : t.en = false)
      (hoe : t.pinOe = false) (hout : t.pinOut = false)
  | openedAndClosed (hwr : t.pinWr = s.pinWr) (hs : s.en = false) (htrace : t.trace = s.trace ++ [.cfgOut, .cfgIn])
      (hen : t.en = false) (hoe : t.pinOe = false) (hout : t.pinOut = false)

/-- What comes before and touches neither the session nor the pin does not change what follows. -/
theorem Bracket.of_start {s s' t : State} (h : Bracket s' t) (hwr : s'.pinWr = s.pinWr := by rfl)
    (htrace : s'.trace = s.trace := by rfl) (hen : s'.en = s.en := by rfl) (hoe : s'.pinOe = s.pinOe := by rfl)
    (hout : s'.pinOut = s.pinOut := by rfl) : Bracket s t := by
  cases h with
  | same hwr' htrace' hen' hoe' hout' =>
    exact .same (hwr'.trans hwr) (htrace'.trans htrace) (hen'.trans hen) (hoe'.trans hoe) (hout'.trans hout)
  | opened hwr' hs htrace' hen' hoe' hout' =>
    exact .opened (hwr'.trans hwr) (hen.symm.trans hs) (by rw [htrace', htrace]) hen' hoe' (hout'.trans hout)
  | closed hwr' hs htrace' hen' hoe' hout' =>
    exact .closed (hwr'.trans hwr) (hen.symm.trans hs) (by rw [htrace', htrace]) hen' hoe' hout'
  | openedAndClosed hwr' hs htrace' hen' hoe' hout' =>
    exact .openedAndClosed (hwr'.trans hwr) (hen.symm.trans hs) (by rw [htrace', htrace]) hen' hoe' hout'

/-- The body of ENABLE, followed by an operation on the session that it has armed. -/
theorem Bracket.after_enableBody {s t : State} (h : Bracket (enableBody s) t) : Bracket s t := by
  cases hen : s.en with
  | true =>
    have hsame : enableBody s = s := if_pos hen
    rwa [hsame] at h
  | false =>
    have htr : (enableBody s).trace = s.trace ++ [.cfgOut] := by simp [enableBody_eq, hen]
    have hopen : (enableBody s).en = true := by simp [enableBody_eq]
    cases h with
    | same hwr htrace hen' hoe hout =>
      exact .opened (by simp [hwr, enableBody_eq]) hen (htrace.trans htr) (hen'.trans hopen)
        (by simp [hoe, enableBody_eq, hen]) (by simp [hout, enableBody_eq])
    | closed hwr _ htrace hen' hoe hout =>
      exact .openedAndClosed (by simp [hwr, enableBody_eq]) hen (by simp [htrace, htr]) hen' hoe hout
    | opened _ hs => rw [hopen] at hs; cases hs
    | openedAndClosed _ hs => rw [hopen] at hs; cases hs

/-- A response. -/
theorem bracket_respond (r : Option ErrorKind) (s : State) : Bracket s (respond r s) := .same rfl rfl rfl rfl rfl

/-- The body of DISABLE. -/
theorem bracket_disableBody (s : State) : Bracket s (disableBody s) := by
  cases hen : s.en with
  | true =>
    exact .closed (by simp [disableBody_eq]) hen (by simp [disableBody_eq, hen]) (by simp [disableBody_eq])
      (by simp [disableBody_eq, hen]) (by simp [disableBody_eq, hen])
  | false =>
    exact .same (by simp [disableBody_eq]) (by simp [disableBody_eq, hen]) (by simp [disableBody_eq, hen])
      (by simp [disableBody_eq, hen]) (by simp [disableBody_eq, hen])

/-- An operation followed by a response. -/
theorem Bracket.then_respond {s t : State} (h : Bracket s t) (r : Option ErrorKind) : Bracket s (respond r t) := by
  cases h with
  | same hwr htrace hen hoe hout => exact .same hwr htrace hen hoe hout
  | opened hwr hs htrace hen hoe hout => exact .opened hwr hs htrace hen hoe hout
  | closed hwr hs htrace hen hoe hout => exact .closed hwr hs htrace hen hoe hout
  | openedAndClosed hwr hs htrace hen hoe hout => exact .openedAndClosed hwr hs htrace hen hoe hout

/-- The end of a command closes the session of an Armed SENDB, and no other. -/
theorem bracket_finish (r : Option ErrorKind) (s : State) : Bracket s (finish r s) := by
  obtain ⟨hoe, hout⟩ := finish_pin r s
  have hen := finish_en r s
  have htrace := finish_trace r s
  by_cases h : s.activity = .executing .sendb ∧ s.en = true
  · exact .closed (by simp) h.2 (by simp [htrace, h]) (by simp [hen, h.1]) (by simp [hoe, h]) (by simp [hout, h])
  · refine .same (by simp) (by simp [htrace, h]) ?_ (by simp [hoe, h]) (by simp [hout, h])
    rw [hen]
    cases hs : s.en with
    | false => rfl
    | true => simpa [hs] using h

/-- Raising an error kind. -/
theorem bracket_raise (e : ErrorKind) (s : State) : Bracket s (raise e s) :=
  (bracket_finish (some e) { s with seq := none, stage := .ready, cnt := 0 }).of_start

/-- The body of SEND. -/
theorem bracket_sendBody (pidx : Option (BitVec 8)) (plen : Option (BitVec 24)) (w : BitVec 8) (s : State) :
    Bracket s (sendBody pidx plen w s) := by
  rcases sendBody_cases pidx plen w s with ⟨e, he⟩ | ⟨_, _, ⟨e, he⟩ | ⟨_, _, _, _, he⟩⟩
  · exact he ▸ bracket_raise e s
  · exact he ▸ (bracket_raise e _).of_start
  · exact he ▸ .same rfl rfl rfl rfl rfl

/-- A command that a packet decodes to. -/
theorem bracket_command {s t : State} {h : CmdWord} {words : List CmdWord} {i : Instr}
    (hd : decodePacket (h :: words) = .ok i) (ht : exec i s = .next t) : Bracket s t := by
  cases i with
  | enable => cases ht; exact (bracket_respond none _).after_enableBody
  | disable => cases ht; exact (bracket_disableBody s).then_respond none
  | send codes pidx plen width =>
    cases ht
    split
    · exact (bracket_sendBody _ _ _ _).of_start
    · exact bracket_raise _ s
  | sendb codes =>
    cases ht
    split
    · split
      · exact .same rfl rfl rfl rfl rfl
      · exact (bracket_sendBody _ _ _ _).after_enableBody.of_start
    · exact bracket_raise _ s
  | ph d => exact absurd hd decodePacket_ne_pulse.1
  | pl d => exact absurd hd decodePacket_ne_pulse.2

/-- Taking a word, or waiting for one. -/
theorem bracket_acceptWord (s : State) : Bracket s (acceptWord s) := by
  unfold acceptWord
  split
  · exact .same rfl rfl rfl rfl rfl
  · split <;> exact .same rfl rfl rfl rfl rfl

/-- The end of a hold. -/
theorem bracket_advance {s t : State} (ht : advance s = .next t) : Bracket s t := by
  rcases advance_cases s with ⟨_, he⟩ | ⟨_, he⟩ | ⟨_, _, ⟨_, he⟩ | ⟨_, _, he⟩⟩ <;> cases he.symm.trans ht
  · exact .same rfl rfl rfl rfl rfl
  · exact bracket_raise _ s
  · exact .same rfl rfl rfl rfl rfl

/-- Handing over a pulse instruction. -/
theorem bracket_issuePulse {p : Pos} {s t : State} (ht : issuePulse p s = .next t) : Bracket s t := by
  rcases issuePulse_cases p s with ⟨_, _, he⟩ | ⟨e, _, he⟩ | ⟨_, he⟩ <;> cases he.symm.trans ht
  · exact .same rfl rfl rfl rfl rfl
  · exact bracket_raise e s

/-! ### What a step does to the pin -/

/-- A step resets, writes the pin with the pulse instruction on the link, or does neither. -/
inductive StepPin (s t : State) : Prop
  | reset (ht : t = resetStep s)
  | bracket (h : Bracket (beginStep s) t)
  | write (c : Enclosing) (l : Level) (d : Dur) (ha : s.activity = .executing c)
      (hs : s.stage = .issued (pulseWord l d)) (hen : s.en = true)
      (ht : t = { beginStep s with
        pinOut := l.bit, pinWr := true, trace := s.trace ++ [.wr l d], cnt := d, stage := .playing })

/-- What every step does to the pin. -/
theorem step_pin {s t : State} (ht : step s = .next t) : StepPin s t := by
  cases step_cases ht with
  | reset _ ht => exact .reset ht
  | accept _ _ _ ht => exact .bracket (ht ▸ bracket_acceptWord _)
  | illegal _ _ _ _ _ _ _ ht => exact .bracket (ht ▸ bracket_raise _ _)
  | command _ _ _ _ _ hd ht => exact .bracket (bracket_command hd ht)
  | pulse _ c ha l d hs ht =>
    rcases drive_cases l d (beginStep s) with ⟨hen, he⟩ | ⟨_, he⟩
    · exact .write c l d ha hs hen (ht.trans he)
    · exact .bracket (ht ▸ he ▸ bracket_raise _ _)
  | tick _ _ _ _ _ ht => exact .bracket (ht ▸ .same rfl rfl rfl rfl rfl)
  | advance _ _ _ _ _ ht => exact .bracket (bracket_advance ht)
  | issue _ _ _ _ _ _ ht => exact .bracket (bracket_issuePulse ht)
  | done _ _ _ _ _ ht => exact .bracket (ht ▸ bracket_finish none _)

/-! ### The trace tells the pin (43_pin_driver.md R105) -/

/-- Replaying a longer trace goes on from where its first part ends. -/
theorem replay_append {es fs : List Event} {pin pin' : Bool × Bool} (h : replay es pin = some pin') :
    replay (es ++ fs) pin = replay fs pin' := by
  induction es generalizing pin with
  | nil => cases h; rfl
  | cons e es ih =>
    rw [replay] at h
    rw [List.cons_append, replay]
    cases he : replayEvent e pin with
    | none => rw [he] at h; cases h
    | some mid => rw [he] at h; exact ih h

/-- An event that leaves the pin an input leaves it at no level. -/
theorem replayEvent_input {e : Event} {pin : Bool × Bool} {out : Bool} (h : replayEvent e pin = some (false, out)) :
    out = false := by
  obtain ⟨oe, _⟩ := pin
  cases e with
  | cfgOut => cases oe <;> cases h
  | cfgIn => cases oe <;> cases h; rfl
  | wr l d => cases oe <;> cases h

/-- A replayed pin that is an input drives no level. -/
theorem replay_input {es : List Event} {out out' : Bool} {oe : Bool} (hpin : oe = false → out = false)
    (h : replay es (oe, out) = some (false, out')) : out' = false := by
  induction es generalizing oe out with
  | nil => cases h; exact hpin rfl
  | cons e es ih =>
    rw [replay] at h
    cases he : replayEvent e (oe, out) with
    | none => rw [he] at h; cases h
    | some mid =>
      obtain ⟨oe', out₁⟩ := mid
      rw [he] at h
      exact ih (fun hoe => replayEvent_input (by rw [he, hoe])) h

/-- Where the trace tells the pin, an input drives no level. -/
theorem TraceTold.out_low {s : State} (h : TraceTold s) (hen : s.en = false) : s.pinOut = false := by
  obtain ⟨hreplay, hoe⟩ := h
  rw [hoe, hen] at hreplay
  exact replay_input (fun _ => rfl) hreplay

/-- The trace goes on telling the pin when the events that it gains lead from the pin before to the pin after. -/
theorem TraceTold.extend {s t : State} {es : List Event} (h : TraceTold s) (htrace : t.trace = s.trace ++ es)
    (hpin : replay es (s.en, s.pinOut) = some (t.pinOe, t.pinOut)) (hen : t.pinOe = t.en) : TraceTold t := by
  obtain ⟨hreplay, hoe⟩ := h
  exact ⟨by rw [htrace, replay_append hreplay, hoe, hpin], hen⟩

/-- Opening and closing the session keeps that the trace tells the pin. -/
theorem Bracket.keeps_traceTold {s t : State} (h : TraceTold s) (hb : Bracket s t) : TraceTold t := by
  have hoe' : s.pinOe = s.en := h.2
  cases hb with
  | same _ htrace hen hoe hout =>
    exact h.extend (es := []) (by simpa using htrace) (by rw [hoe, hout, hoe']; rfl) (by rw [hoe, hen, hoe'])
  | opened _ hs htrace hen hoe hout =>
    exact h.extend htrace (by rw [hs, hoe, hout, h.out_low hs]; rfl) (by rw [hoe, hen])
  | closed _ hs htrace hen hoe hout => exact h.extend htrace (by rw [hs, hoe, hout]; rfl) (by rw [hoe, hen])
  | openedAndClosed _ hs htrace hen hoe hout =>
    exact h.extend htrace (by rw [hs, hoe, hout]; rfl) (by rw [hoe, hen])

/-- Reset keeps that the trace tells the pin: `CfgIn` if the session was Armed. -/
theorem resetStep_keeps_traceTold {s : State} (h : TraceTold s) : TraceTold (resetStep s) := by
  cases hen : s.en with
  | true => exact h.extend (es := [.cfgIn]) (by simp [hen]) (by rw [hen]; rfl) rfl
  | false => exact h.extend (es := []) (by simp [hen]) (by rw [hen, h.out_low hen]; rfl) rfl

/-- Settles O43: reset, the four brackets, and a write, which only an Armed session executes. -/
theorem stepKeepsTraceTold : Obligations.StepKeepsTraceTold := by
  intro s t h ht
  cases step_pin ht with
  | reset ht => exact ht ▸ resetStep_keeps_traceTold h
  | bracket hb => exact hb.keeps_traceTold (s := beginStep s) h
  | write c l d _ _ hen ht =>
    have hoe : t.pinOe = s.en := ht ▸ h.2
    subst ht
    exact h.extend rfl (by rw [hoe, hen]; rfl) hoe

/-- Settles O44: the empty trace is replayed to the input pin it starts from. -/
theorem traceToldAtReset : Obligations.TraceToldAtReset := ⟨rfl, rfl⟩

/-! ### The trace only grows, and only a pulse instruction writes -/

/-- A bracket is at most two events and no write. -/
theorem Bracket.events {s t : State} (h : Bracket s t) :
    ∃ es, t.trace = s.trace ++ es ∧ es.length ≤ 2 ∧ writeCount es = 0 := by
  cases h with
  | same _ htrace => exact ⟨[], by simp [htrace], by simp, rfl⟩
  | opened _ _ htrace => exact ⟨_, htrace, by simp, rfl⟩
  | closed _ _ htrace => exact ⟨_, htrace, by simp, rfl⟩
  | openedAndClosed _ _ htrace => exact ⟨_, htrace, by simp, rfl⟩

/-- A bracket leaves the strobe `pin_wr` alone. -/
theorem Bracket.pinWr_eq {s t : State} (h : Bracket s t) : t.pinWr = s.pinWr := by
  cases h <;> assumption

/-- The events of a reset: `CfgIn` if the session was Armed. -/
theorem resetStep_events (s : State) :
    ∃ es, (resetStep s).trace = s.trace ++ es ∧ es.length ≤ 2 ∧ writeCount es = 0 := by
  cases hen : s.en with
  | true => exact ⟨[.cfgIn], by simp [hen], by simp, rfl⟩
  | false => exact ⟨[], by simp [hen], by simp, rfl⟩

/-- Settles O45: the trace by what the step does to the pin, the responses by `step_responses_grow`. -/
theorem observationsOnlyGrow : Obligations.ObservationsOnlyGrow := by
  intro s t ht
  refine ⟨?_, step_responses_grow ht⟩
  cases step_pin ht with
  | reset ht =>
    obtain ⟨es, htrace, hlen, _⟩ := resetStep_events s
    exact ⟨es, ht ▸ htrace, hlen⟩
  | bracket hb =>
    obtain ⟨es, htrace, hlen, _⟩ := hb.events
    exact ⟨es, htrace, hlen⟩
  | write c l d _ _ _ ht => exact ⟨[.wr l d], ht ▸ rfl, by simp⟩

/-- The pin writes of two traces one after the other. -/
theorem writeCount_append (es fs : List Event) : writeCount (es ++ fs) = writeCount es + writeCount fs := by
  induction es with
  | nil => simp [writeCount]
  | cons e es ih =>
    cases e with
    | wr l d => simp only [List.cons_append, writeCount, ih]; omega
    | cfgOut => exact ih
    | cfgIn => exact ih

/-- Settles O49: `pin_wr` is down at the start of a step, and only the pulse instruction on the link raises it; every
other step appends events that are no writes. -/
theorem onlyPulsesWriteThePin : Obligations.OnlyPulsesWriteThePin := by
  intro s t ht
  cases step_pin ht with
  | reset ht =>
    obtain ⟨es, htrace, _, hcount⟩ := resetStep_events s
    exact ⟨fun hwr => (by rw [ht] at hwr; cases hwr), fun _ => by rw [ht, htrace, writeCount_append, hcount]; rfl⟩
  | bracket hb =>
    obtain ⟨es, htrace, _, hcount⟩ := hb.events
    exact ⟨fun hwr => (by rw [hb.pinWr_eq] at hwr; cases hwr), fun _ => by rw [htrace, writeCount_append, hcount]; rfl⟩
  | write c l d ha hs _ ht =>
    subst ht
    exact ⟨fun _ => ⟨c, _, l, d, ha, hs, rfl, rfl, rfl⟩, fun hwr => by cases hwr⟩

end Sys2Proof.Machine
end

section
/-! PROOFS. The statements of what steps do not do: only ENABLE, DISABLE, SENDB and reset change the session state
(44_session.md R109), only a SEND selects a protocol (10_state.md R13, R15), and no step outside a transmission reads the
code buffer (10_state.md R18). -/

namespace Sys2Proof.Machine

/-! ### The session state -/

/-- Raising outside a SENDB leaves the session state. -/
theorem raise_en_of_ne_sendb {s : State} (e : ErrorKind) (h : s.activity ≠ .executing .sendb) :
    (raise e s).en = s.en := by
  simp [raise_en, h]

/-- The body of SEND outside a SENDB leaves the session state. -/
theorem sendBody_en_of_ne_sendb {s : State} (pidx : Option (BitVec 8)) (plen : Option (BitVec 24)) (w : BitVec 8)
    (h : s.activity ≠ .executing .sendb) : (sendBody pidx plen w s).en = s.en := by
  rcases sendBody_cases pidx plen w s with ⟨e, he⟩ | ⟨_, _, ⟨e, he⟩ | ⟨_, _, _, _, he⟩⟩
  · rw [he, raise_en_of_ne_sendb e h]
  · rw [he]; exact raise_en_of_ne_sendb e h
  · rw [he]

/-- A command other than ENABLE, DISABLE and SENDB leaves the session state. -/
theorem command_changes_en {s t : State} {h : CmdWord} {words : List CmdWord} {i : Instr}
    (hd : decodePacket (h :: words) = .ok i) (ht : exec i s = .next t) (hen : t.en ≠ s.en) :
    i = .enable ∨ i = .disable ∨ ∃ cs, i = .sendb cs := by
  cases i with
  | enable => exact .inl rfl
  | disable => exact .inr (.inl rfl)
  | sendb codes => exact .inr (.inr ⟨codes, rfl⟩)
  | send codes pidx plen width =>
    cases (exec_send (wellFormed_of_decode_send hd).2 s).symm.trans ht
    exact absurd (sendBody_en_of_ne_sendb (s := loadCodes .send codes s) _ _ _ (by simp)) hen
  | ph d => exact absurd hd decodePacket_ne_pulse.1
  | pl d => exact absurd hd decodePacket_ne_pulse.2

/-- A pulse instruction outside a SENDB leaves the session state. -/
theorem drive_en_of_ne_sendb {s : State} (l : Level) (d : Dur) (h : s.activity ≠ .executing .sendb) :
    (drive l d s).en = s.en := by
  rcases drive_cases l d s with ⟨_, he⟩ | ⟨_, he⟩
  · rw [he]
  · rw [he, raise_en_of_ne_sendb _ h]

/-- The end of a hold outside a SENDB leaves the session state. -/
theorem advance_en_of_ne_sendb {s t : State} (h : s.activity ≠ .executing .sendb) (ht : advance s = .next t) :
    t.en = s.en := by
  rcases advance_cases s with ⟨_, he⟩ | ⟨_, he⟩ | ⟨_, _, ⟨_, he⟩ | ⟨_, _, he⟩⟩ <;> cases he.symm.trans ht
  · rfl
  · exact raise_en_of_ne_sendb _ h
  · rfl

/-- Handing over a pulse instruction outside a SENDB leaves the session state. -/
theorem issuePulse_en_of_ne_sendb {p : Pos} {s t : State} (h : s.activity ≠ .executing .sendb)
    (ht : issuePulse p s = .next t) : t.en = s.en := by
  rcases issuePulse_cases p s with ⟨_, _, he⟩ | ⟨e, _, he⟩ | ⟨_, he⟩ <;> cases he.symm.trans ht
  · rfl
  · exact raise_en_of_ne_sendb e h

/-- Taking a word leaves the session state. -/
theorem acceptWord_en (s : State) : (acceptWord s).en = s.en := by
  unfold acceptWord
  split
  · rfl
  · split <;> rfl

/-- Settles O48: outside a SENDB every way a step can go leaves `EN`, but for reset and the three commands. -/
theorem onlyTheseChangeTheSession : Obligations.OnlyTheseChangeTheSession := by
  intro s t ht hen
  by_cases hb : s.activity = .executing .sendb
  · exact .inr (.inr hb)
  have hb' : (beginStep s).activity ≠ .executing .sendb := hb
  cases step_cases ht with
  | reset hr _ => exact .inl hr
  | command _ h codes ha i hd ht =>
    refine .inr (.inl ⟨h, codes, ha, ?_⟩)
    rcases command_changes_en (s := beginStep s) hd ht hen with rfl | rfl | ⟨cs, rfl⟩
    · exact .inl hd
    · exact .inr (.inl hd)
    · exact .inr (.inr ⟨cs, hd⟩)
  | accept _ _ _ ht => exact absurd (ht ▸ acceptWord_en _) hen
  | illegal _ _ _ _ _ _ _ ht => exact absurd (ht ▸ raise_en_of_ne_sendb _ hb') hen
  | pulse _ _ _ l d _ ht => exact absurd (ht ▸ drive_en_of_ne_sendb l d hb') hen
  | tick _ _ _ _ _ ht => exact absurd (ht ▸ rfl) hen
  | advance _ _ _ _ _ ht => exact absurd (advance_en_of_ne_sendb hb' ht) hen
  | issue _ _ _ _ _ _ ht => exact absurd (issuePulse_en_of_ne_sendb hb' ht) hen
  | done _ _ _ _ _ ht => exact absurd (ht ▸ by simp [finish_en, hb]) hen

/-! ### `PROTO` and `REPEAT` -/

/-- An operation leaves the selected protocol and the repeat count. -/
structure KeepsSelection (s t : State) : Prop where
  proto : t.proto = s.proto
  repeatReg : t.repeatReg = s.repeatReg

/-- Raising an error kind. -/
theorem raise_keepsSelection (e : ErrorKind) (s : State) : KeepsSelection s (raise e s) := ⟨by simp, by simp⟩

/-- The bodies of ENABLE and DISABLE. -/
theorem body_keepsSelection (s : State) : KeepsSelection s (enableBody s) ∧ KeepsSelection s (disableBody s) :=
  ⟨⟨by simp [enableBody_eq], by simp [enableBody_eq]⟩, ⟨by simp [disableBody_eq], by simp [disableBody_eq]⟩⟩

/-- A pulse instruction. -/
theorem drive_keepsSelection (l : Level) (d : Dur) (s : State) : KeepsSelection s (drive l d s) := by
  rcases drive_cases l d s with ⟨_, he⟩ | ⟨_, he⟩
  · rw [he]; exact ⟨rfl, rfl⟩
  · rw [he]; exact raise_keepsSelection _ s

/-- The end of a hold. -/
theorem advance_keepsSelection {s t : State} (ht : advance s = .next t) : KeepsSelection s t := by
  rcases advance_cases s with ⟨_, he⟩ | ⟨_, he⟩ | ⟨_, _, ⟨_, he⟩ | ⟨_, _, he⟩⟩ <;> cases he.symm.trans ht
  · exact ⟨rfl, rfl⟩
  · exact raise_keepsSelection _ s
  · exact ⟨rfl, rfl⟩

/-- Handing over a pulse instruction. -/
theorem issuePulse_keepsSelection {p : Pos} {s t : State} (ht : issuePulse p s = .next t) : KeepsSelection s t := by
  rcases issuePulse_cases p s with ⟨_, _, he⟩ | ⟨e, _, he⟩ | ⟨_, he⟩ <;> cases he.symm.trans ht
  · exact ⟨rfl, rfl⟩
  · exact raise_keepsSelection e s

/-- Taking a word. -/
theorem acceptWord_keepsSelection (s : State) : KeepsSelection s (acceptWord s) := by
  unfold acceptWord
  split
  · exact ⟨rfl, rfl⟩
  · split <;> exact ⟨rfl, rfl⟩

/-- The body of SEND leaves the repeat count, and changes the selected protocol only to a valid operand. -/
theorem sendBody_selects (pidx : Option (BitVec 8)) (plen : Option (BitVec 24)) (w : BitVec 8) (s : State) :
    (sendBody pidx plen w s).repeatReg = s.repeatReg ∧
      ((sendBody pidx plen w s).proto = s.proto ∨
        ∃ i, pidx = some i ∧ validIndex i = true ∧ (sendBody pidx plen w s).proto = i) := by
  have hoverride (hi : ∀ i, pidx = some i → validIndex i = true) :
      pidx.getD s.proto = s.proto ∨ ∃ i, pidx = some i ∧ validIndex i = true ∧ pidx.getD s.proto = i := by
    cases pidx with
    | none => exact .inl rfl
    | some i => exact .inr ⟨i, rfl, hi i rfl, rfl⟩
  rcases sendBody_cases pidx plen w s with ⟨e, he⟩ | ⟨_, hi, ⟨e, he⟩ | ⟨_, _, _, _, he⟩⟩
  · rw [he]; exact ⟨raise_repeatReg e s, .inl (raise_proto e s)⟩
  · rw [he, raise_repeatReg, raise_proto]; exact ⟨rfl, hoverride hi⟩
  · rw [he]; exact ⟨rfl, hoverride hi⟩

/-- The body of SEND without a protocol operand leaves the selection. -/
theorem sendBody_none_keepsSelection (plen : Option (BitVec 24)) (w : BitVec 8) (s : State) :
    KeepsSelection s (sendBody none plen w s) := by
  obtain ⟨hrepeat, hproto | ⟨_, hnone, _⟩⟩ := sendBody_selects none plen w s
  · exact ⟨hproto, hrepeat⟩
  · cases hnone

/-- A command leaves the repeat count, and only a SEND with a valid protocol operand changes the selected protocol. -/
theorem command_selects {s t : State} {h : CmdWord} {words : List CmdWord} {i : Instr}
    (hd : decodePacket (h :: words) = .ok i) (ht : exec i s = .next t) :
    KeepsSelection s t ∨ t.repeatReg = s.repeatReg ∧
      ∃ cs j plen width, i = .send cs (some j) plen width ∧ t.proto = j ∧ validIndex j = true := by
  cases i with
  | enable =>
    cases ht
    obtain ⟨hproto, hrepeat⟩ := (body_keepsSelection s).1
    exact .inl ⟨hproto, hrepeat⟩
  | disable =>
    cases ht
    obtain ⟨hproto, hrepeat⟩ := (body_keepsSelection s).2
    exact .inl ⟨hproto, hrepeat⟩
  | send codes pidx plen width =>
    cases (exec_send (wellFormed_of_decode_send hd).2 s).symm.trans ht
    obtain ⟨hrepeat, hproto | ⟨j, rfl, hv, hj⟩⟩ := sendBody_selects pidx plen (width.getD 40) (loadCodes .send codes s)
    · exact .inl ⟨hproto, hrepeat⟩
    · exact .inr ⟨hrepeat, codes, j, plen, width, rfl, hj, hv⟩
  | sendb codes =>
    obtain ⟨_, hlen⟩ := wellFormed_of_decode_sendb hd
    by_cases hc : codes = []
    · subst hc
      cases (sendbWithoutCodes s).symm.trans ht
      exact .inl ⟨rfl, rfl⟩
    · cases (exec_sendb hlen hc s).symm.trans ht
      obtain ⟨hproto, hrepeat⟩ := sendBody_none_keepsSelection none 40 (enableBody (loadCodes .sendb codes s))
      obtain ⟨hproto', hrepeat'⟩ := (body_keepsSelection (loadCodes .sendb codes s)).1
      exact .inl ⟨hproto.trans hproto', hrepeat.trans hrepeat'⟩
  | ph d => exact absurd hd decodePacket_ne_pulse.1
  | pl d => exact absurd hd decodePacket_ne_pulse.2

/-- A step without reset leaves the selection, or runs a SEND with a valid protocol operand. -/
theorem step_selects {s t : State} (hr : s.rstIn.headD false = false) (ht : step s = .next t) :
    KeepsSelection s t ∨ t.repeatReg = s.repeatReg ∧
      ∃ h codes cs j plen width, s.activity = .receiving h codes ∧
        decodePacket (h :: codes) = .ok (.send cs (some j) plen width) ∧ t.proto = j ∧ validIndex j = true := by
  have hstart (hkeeps : KeepsSelection (beginStep s) t) : KeepsSelection s t := ⟨hkeeps.proto, hkeeps.repeatReg⟩
  cases step_cases ht with
  | reset hr' _ => rw [hr] at hr'; cases hr'
  | command _ h codes ha i hd ht =>
    rcases command_selects hd ht with ⟨hproto, hrepeat⟩ | ⟨hrepeat, cs, j, plen, width, rfl, hj, hv⟩
    · exact .inl ⟨hproto, hrepeat⟩
    · exact .inr ⟨hrepeat, h, codes, cs, j, plen, width, ha, hd, hj, hv⟩
  | accept _ _ _ ht => exact .inl (hstart (ht ▸ acceptWord_keepsSelection _))
  | illegal _ _ _ _ _ _ _ ht => exact .inl (hstart (ht ▸ raise_keepsSelection _ _))
  | pulse _ _ _ l d _ ht => exact .inl (hstart (ht ▸ drive_keepsSelection l d _))
  | tick _ _ _ _ _ ht => exact .inl (hstart (ht ▸ ⟨rfl, rfl⟩))
  | advance _ _ _ _ _ ht => exact .inl (hstart (advance_keepsSelection ht))
  | issue _ _ _ _ _ _ ht => exact .inl (hstart (issuePulse_keepsSelection ht))
  | done _ _ _ _ _ ht => exact .inl (hstart (ht ▸ ⟨by simp, by simp⟩))

/-- Settles O50: the parameters by `step_params`, `REPEAT` and `PROTO` by `step_selects`. -/
theorem tableAndRepeatNeverWritten : Obligations.TableAndRepeatNeverWritten := by
  intro s t ht
  refine ⟨step_params ht, fun hr => ?_, fun hr hne => ?_⟩
  · rcases step_selects hr ht with hkeeps | ⟨hrepeat, _⟩
    · exact hkeeps.repeatReg
    · exact hrepeat
  · rcases step_selects hr ht with hkeeps | ⟨_, hsend⟩
    · exact absurd hkeeps.proto hne
    · exact hsend

/-! ### The code buffer outside a transmission -/

/-- A state with another code buffer and another count. -/
def withCodes (n : BitVec 8) (buf : List CmdWord) (s : State) : State := { s with nc := n, codebuf := buf }

/-- Taking a word carries the code buffer along. -/
theorem acceptWord_withCodes (n : BitVec 8) (buf : List CmdWord) (s : State) :
    acceptWord (withCodes n buf s) = withCodes n buf (acceptWord s) := by
  have hin : (withCodes n buf s).cmdIn = s.cmdIn := rfl
  have hact : (withCodes n buf s).activity = s.activity := rfl
  unfold acceptWord
  rw [hin, hact]
  cases s.cmdIn with
  | nil => rfl
  | cons w rest => cases s.activity <;> rfl

/-- The bodies of ENABLE and DISABLE carry the code buffer along. -/
theorem body_withCodes (n : BitVec 8) (buf : List CmdWord) (s : State) :
    enableBody (withCodes n buf s) = withCodes n buf (enableBody s) ∧
      disableBody (withCodes n buf s) = withCodes n buf (disableBody s) := by
  simp only [enableBody_eq, disableBody_eq]
  exact ⟨rfl, rfl⟩

/-- Raising outside a SEND or SENDB carries the code buffer along. -/
theorem raise_withCodes (n : BitVec 8) (buf : List CmdWord) {s : State} (e : ErrorKind)
    (hx : ∀ c, s.activity ≠ .executing c) : raise e (withCodes n buf s) = withCodes n buf (raise e s) := by
  rw [raise_other e hx, raise_other (s := withCodes n buf s) e hx]
  rfl

/-- A command carries the code buffer along, or loads its own codes over it. -/
theorem command_withCodes (n : BitVec 8) (buf : List CmdWord) {s : State} {h : CmdWord} {words : List CmdWord}
    {i : Instr} (hd : decodePacket (h :: words) = .ok i) :
    exec i (withCodes n buf s) = exec i s ∨
      ∃ t, exec i s = .next t ∧ exec i (withCodes n buf s) = .next (withCodes n buf t) := by
  cases i with
  | enable => exact .inr ⟨_, rfl, by rw [exec_enable, (body_withCodes n buf s).1]; rfl⟩
  | disable => exact .inr ⟨_, rfl, by rw [exec_disable, (body_withCodes n buf s).2]; rfl⟩
  | send codes pidx plen width =>
    have hwf := (wellFormed_of_decode_send hd).2
    exact .inl (by rw [exec_send hwf, exec_send hwf]; rfl)
  | sendb codes =>
    obtain ⟨_, hlen⟩ := wellFormed_of_decode_sendb hd
    by_cases hc : codes = []
    · subst hc
      exact .inl (by rw [sendbWithoutCodes, sendbWithoutCodes]; rfl)
    · exact .inl (by rw [exec_sendb hlen hc, exec_sendb hlen hc]; rfl)
  | ph d => exact absurd hd decodePacket_ne_pulse.1
  | pl d => exact absurd hd decodePacket_ne_pulse.2

/-- Settles O51: reset and the commands with codes overwrite the code buffer, and everything else that a step does outside
a transmission carries it along. -/
theorem codeBufferUnread : Obligations.CodeBufferUnread := by
  intro s n buf hx
  change step (withCodes n buf s) = step s ∨
    ∃ t, step s = .next t ∧ step (withCodes n buf s) = .next (withCodes n buf t)
  cases hr : s.rstIn.headD false with
  | true => exact .inl ((step_of_rst_high (s := withCodes n buf s) hr).trans (step_of_rst_high hr).symm)
  | false =>
    by_cases hc : cmdReady s = true
    · refine .inr ⟨_, step_accept hr hx hc, (step_accept (s := withCodes n buf s) hr hx hc).trans ?_⟩
      exact congrArg Host.Outcome.next (acceptWord_withCodes n buf (beginStep s))
    · have hc : cmdReady s = false := by simpa using hc
      cases ha : s.activity with
      | waiting => rw [cmdReady_waiting ha] at hc; cases hc
      | executing c => exact absurd ha (hx c)
      | receiving h codes =>
        cases hd : decodePacket (h :: codes) with
        | ok i =>
          rw [step_packet hr ha hd, step_packet (s := withCodes n buf s) hr ha hd]
          exact command_withCodes n buf (s := beginStep s) hd
        | error e =>
          refine .inr ⟨_, step_illegal hr ha hc hd, (step_illegal (s := withCodes n buf s) hr ha hc hd).trans ?_⟩
          exact congrArg Host.Outcome.next (raise_withCodes n buf (s := beginStep s) .illegalCommand hx)

end Sys2Proof.Machine
end

section
/-! PROOFS. The statements of whole transmissions (42_waveform.md R92; 43_pin_driver.md R104; 44_session.md R108, R113;
70_reset_and_hazards.md R164): a hold lasts its ticks, a position takes its pulse instruction through the pin driver, and
the machine plays what a walk of the sequencer plays. -/

namespace Sys2Proof.Machine

/-! ### Steps without reset -/

/-- A run of one step. -/
theorem run_one {s t : State} (h : step s = .next t) : core.run 1 s = .next t := run_succ h 0

/-- With no reset coming, `rst` is low. -/
theorem NoReset.rst_low {s : State} (h : NoReset s) : s.rstIn.headD false = false := by rw [h]; rfl

/-- With no reset coming, the start of a step only ends the strobes. -/
theorem NoReset.beginStep_eq {s : State} (h : NoReset s) : beginStep s = { s with pinWr := false, rsp := none } := by
  rw [beginStep, show s.rstIn.tail = s.rstIn by rw [h]; rfl]

/-! ### A hold (43_pin_driver.md R96, R104) -/

/-- The state at the end of a hold: its ticks have passed, and nothing else has happened. -/
def held (s : State) : State :=
  { s with cnt := 0, ticks := s.ticks + s.cnt.toNat, pinWr := false, rsp := none }

/-- A hold that is over has no more ticks to pass. -/
theorem held_of_cnt_zero {s : State} (h : NoReset s) (hcnt : s.cnt = 0) : held s = beginStep s := by
  rw [h.beginStep_eq, held, hcnt]
  congr 1

/-- The ticks of a hold of at least one tick. -/
theorem run_hold {s : State} {c : Enclosing} (hn : NoReset s) (ha : s.activity = .executing c)
    (hs : s.stage = .playing) {n : Nat} (hcnt : s.cnt.toNat = n + 1) : core.run (n + 1) s = .next (held s) := by
  have hpos : s.cnt ≠ 0 := (ne_zero_iff_toNat s.cnt).mpr (by omega)
  have hstep := step_tick hn.rst_low ha hs hpos
  have hdec : (tick (beginStep s)).cnt.toNat = n := by
    rw [tick_cnt, beginStep_cnt, BitVec.toNat_sub_of_le (BitVec.le_def.mpr (by simpa using by omega)), hcnt]
    rfl
  have hheld : held (tick (beginStep s)) = held s := by
    have hticks : (tick (beginStep s)).ticks + (tick (beginStep s)).cnt.toNat = s.ticks + s.cnt.toNat := by
      rw [hdec, hcnt, tick_ticks, beginStep_ticks]; omega
    rw [held, hticks, hn.beginStep_eq]
    rfl
  rw [run_succ hstep, ← hheld]
  cases n with
  | zero =>
    have hzero : (tick (beginStep s)).cnt = 0 := (eq_zero_iff_toNat _).mpr hdec
    have hn' : NoReset (tick (beginStep s)) := by rw [hn.beginStep_eq]; exact hn
    rw [run_zero, held_of_cnt_zero hn' hzero, hn'.beginStep_eq]
    rfl
  | succ n => exact run_hold (s := tick (beginStep s)) (by rw [hn.beginStep_eq]; exact hn) ha hs hdec
termination_by n

/-- Settles O35: by induction on `CNT`, one tick a step (`run_hold`). -/
theorem holdLastsItsTicks : Obligations.HoldLastsItsTicks := by
  intro s c hn ha hs hcnt
  have hpos := (ne_zero_iff_toNat s.cnt).mp hcnt
  have hrun := run_hold hn ha hs (n := s.cnt.toNat - 1) (by omega)
  rwa [Nat.sub_add_cancel hpos] at hrun

/-- A hold and the step that leaves it. -/
theorem run_hold_advance {s t : State} {c : Enclosing} (hn : NoReset s) (ha : s.activity = .executing c)
    (hs : s.stage = .playing) (ht : advance (held s) = .next t) : core.run (s.cnt.toNat + 1) s = .next t := by
  by_cases hcnt : s.cnt = 0
  · rw [held_of_cnt_zero hn hcnt] at ht
    rw [hcnt]
    exact run_one ((step_hold_over hn.rst_low ha hs hcnt).trans ht)
  · have hn' : NoReset (held s) := hn
    have hend : beginStep (held s) = held s := by rw [hn'.beginStep_eq]; rfl
    rw [run_add (holdLastsItsTicks s c hn ha hs hcnt) 1]
    exact run_one ((step_hold_over (s := held s) hn.rst_low ha hs rfl).trans (by rw [hend, ht]))

/-! ### One pulse instruction -/

/-- What a transmission in progress rests on: the session is Armed, the protocol `P` is selected, and the codes of the
buffer are encoded as `bs`. Playing a pulse instruction changes none of it. -/
structure Transmitting (P : Protocol) (bs : List (List Bool)) (c : Enclosing) (s : State) : Prop where
  noReset : NoReset s
  act : s.activity = .executing c
  armed : s.en = true
  protocol : getProtocol s.params.table s.proto = .ok P
  fits : encodeAll s.codelen.toNat s.codebuf = .ok bs
  count : bs.length = s.nc.toNat

/-- Inside a SEND or SENDB with a selected protocol a transmission is in progress. -/
theorem Inv.transmitting {s : State} {c : Enclosing} {P : Protocol} (h : Inv s) (hn : NoReset s)
    (ha : s.activity = .executing c) (hP : getProtocol s.params.table s.proto = .ok P) :
    ∃ bs, Transmitting P bs c s := by
  obtain ⟨_, hen, bs, hbs⟩ := h.executing ha
  exact ⟨bs, hn, ha, hen, hP, hbs, (encodeAll_length hbs).trans h.regs.codebuf_len⟩

/-- The pulse instruction that a walk finds at a position is the one that the state designates. -/
theorem Transmitting.designated_eq {P : Protocol} {bs : List (List Bool)} {c : Enclosing} {s : State} {p : Pos}
    {b : List Bool} {x : Pulse} (h : Transmitting P bs c s) (hb : bs[p.ci]? = some b)
    (hx : pulseAt P (effectivePulseLen s P) b p = some x) : designated s p = .ok x := by
  obtain ⟨hlt, _⟩ := List.getElem?_eq_some_iff.mp hb
  have hcode := List.getElem?_eq_getElem (encodeAll_length h.fits ▸ hlt)
  obtain ⟨b', hb', henc⟩ := encodeAll_getElem _ _ p.ci h.fits hcode
  obtain rfl : b = b' := Option.some.inj (hb.symm.trans hb')
  simp only [designated, h.protocol, hcode, henc, hx]

/-- The state after the pulse instruction `x`, with the sequencer at `q`. -/
def pulsed (x : Pulse) (q : SeqPos) (s : State) : State :=
  { s with
    seq := some q, stage := .ready, cnt := 0, pinOut := x.level.bit, pinWr := false, rsp := none
    trace := s.trace ++ [.wr x.level x.dur], ticks := s.ticks + x.dur.toNat }

/-- The state with the pulse instruction `x` on the link to the pin driver. -/
def onLink (x : Pulse) (s : State) : State :=
  { s with stage := .issued (pulseWord x.level x.dur), pinWr := false, rsp := none }

/-- The state in which the pulse instruction `x` has written its level and its hold starts. -/
def atHold (x : Pulse) (s : State) : State :=
  { s with
    pinOut := x.level.bit, pinWr := true, rsp := none, trace := s.trace ++ [.wr x.level x.dur], cnt := x.dur
    stage := .playing }

/-- A designated pulse instruction is put on the link. -/
theorem Transmitting.step_issue {P : Protocol} {bs : List (List Bool)} {c : Enclosing} {s : State} {p : Pos} {x : Pulse}
    (h : Transmitting P bs c s) (hs : s.stage = .ready) (hq : s.seq = some (.pos p)) (hx : designated s p = .ok x) :
    step s = .next (onLink x s) := by
  have hx' : designated { s with pinWr := false, rsp := none } p = .ok x := hx
  rw [step_at_pos h.noReset.rst_low h.act hs hq, h.noReset.beginStep_eq, issuePulse, hx']
  rfl

/-- The pulse instruction on the link drives the pin. -/
theorem Transmitting.step_drive {P : Protocol} {bs : List (List Bool)} {c : Enclosing} {s : State} (x : Pulse)
    (h : Transmitting P bs c s) : step (onLink x s) = .next (atHold x s) := by
  have hn : NoReset (onLink x s) := h.noReset
  have hen : (beginStep (onLink x s)).en = true := h.armed
  rw [step_issued (s := onLink x s) hn.rst_low h.act rfl, exec_pulseWord, drive_armed hen, hn.beginStep_eq]
  rfl

/-- A position takes its pulse instruction through the pin driver: it is issued, executed, held for its ticks, and left
for its successor. -/
theorem Transmitting.run_pulse {P : Protocol} {bs : List (List Bool)} {c : Enclosing} {s : State} {p : Pos} {x : Pulse}
    (h : Transmitting P bs c s) (hs : s.stage = .ready) (hq : s.seq = some (.pos p)) (hx : designated s p = .ok x) :
    core.run (x.dur.toNat + 3) s
      = .next (pulsed x (nextPos P s.codelen.toNat s.repeatReg.toNat bs.length p) s) := by
  have hhold : core.run (x.dur.toNat + 1) (atHold x s) = _ :=
    run_hold_advance (s := atHold x s) h.noReset h.act rfl (advance_of_pos (s := held (atHold x s)) hq h.protocol)
  rw [run_succ (h.step_issue hs hq hx), run_succ (h.step_drive x), hhold, h.count]
  rfl

/-- Playing a pulse instruction leaves what the transmission rests on. -/
theorem Transmitting.after_pulse {P : Protocol} {bs : List (List Bool)} {c : Enclosing} {s : State}
    (h : Transmitting P bs c s) (x : Pulse) (q : SeqPos) : Transmitting P bs c (pulsed x q s) :=
  ⟨h.noReset, h.act, h.armed, h.protocol, h.fits, h.count⟩

/-! ### A list of pulse instructions -/

/-- The state at `DONE` after the pulse instructions `ps`; the pin level and the strobes are those of the last step. -/
def played (ps : List Pulse) (out wr : Bool) (r : Option RspWord) (s : State) : State :=
  { s with
    seq := some .done, stage := .ready, cnt := 0, pinOut := out, pinWr := wr, rsp := r
    trace := s.trace ++ pulseEvents ps, ticks := s.ticks + totalDuration ps }

/-- With nothing to play, a state at `DONE` is played already. -/
theorem played_nil {s : State} (hs : s.stage = .ready) (hq : s.seq = some .done) (hcnt : s.cnt = 0) :
    played [] s.pinOut s.pinWr s.rsp s = s := by
  simp only [played, ← hq, ← hs, ← hcnt, pulseEvents_nil, List.append_nil, totalDuration_nil, Nat.add_zero]

/-- Playing the rest after the first pulse instruction is playing them all. -/
theorem played_pulsed (x : Pulse) (q : SeqPos) (xs : List Pulse) (out wr : Bool) (r : Option RspWord) (s : State) :
    played xs out wr r (pulsed x q s) = played (x :: xs) out wr r s := by
  simp [played, pulsed, Nat.add_assoc]

@[simp] theorem playSteps_nil : playSteps [] = 0 := rfl
@[simp] theorem playSteps_cons (x : Pulse) (xs : List Pulse) :
    playSteps (x :: xs) = x.dur.toNat + 3 + playSteps xs := by simp [playSteps]

/-- The machine plays what a walk of the sequencer plays, and comes to `DONE`. -/
theorem Transmitting.run_plays {P : Protocol} {bs : List (List Bool)} {c : Enclosing} {ps : List Pulse} :
    ∀ {s : State} {q : SeqPos}, Transmitting P bs c s → s.stage = .ready → s.cnt = 0 → s.seq = some q →
      Plays P (effectivePulseLen s P) s.codelen.toNat s.repeatReg.toNat bs q ps →
      ∃ out wr r, core.run (playSteps ps) s = .next (played ps out wr r s) := by
  induction ps with
  | nil =>
    intro s q h hs hcnt hq hplays
    cases q with
    | pos p => obtain ⟨_, _, _, _, _, hnil, _⟩ := hplays.inv; cases hnil
    | done => exact ⟨s.pinOut, s.pinWr, s.rsp, by rw [played_nil hs hq hcnt]; rfl⟩
  | cons x xs ih =>
    intro s q h hs hcnt hq hplays
    cases q with
    | done => simp [Plays, walk] at hplays
    | pos p =>
      obtain ⟨b, y, ys, hb, hy, hcons, hrest⟩ := hplays.inv
      obtain ⟨rfl, rfl⟩ := List.cons.inj hcons
      have hpulse := h.run_pulse hs hq (h.designated_eq hb hy)
      obtain ⟨out, wr, r, hrun⟩ := ih (h.after_pulse x _) rfl rfl rfl hrest
      refine ⟨out, wr, r, ?_⟩
      rw [playSteps_cons, run_add hpulse, hrun, played_pulsed]

/-! ### A whole transmission -/

/-- What every run keeps: the invariant. -/
theorem Inv.of_run {s t : State} {n : Nat} (h : Inv s) (hrun : core.run n s = .next t) : Inv t :=
  run_induction (fun _ _ => step_keeps_inv) n s t h hrun

/-- The pulses that a transmission of no codes is to play. -/
theorem plannedPulses_of_no_codes {s : State} (h : s.codebuf = []) : plannedPulses s = [] := by
  unfold plannedPulses
  rw [h]
  cases getProtocol s.params.table s.proto <;> rfl

/-- The pulses that a launched transmission is to play, from its registers. -/
theorem plannedPulses_eq {s : State} {P : Protocol} {bs : List (List Bool)}
    (hP : getProtocol s.params.table s.proto = .ok P) (hbs : encodeAll s.codelen.toNat s.codebuf = .ok bs) :
    plannedPulses s = pulseSequence P (effectivePulseLen s P) s.repeatReg.toNat bs := by
  simp only [plannedPulses, hP, hbs]

/-- Before its pulse instruction is handed over a position has no hold running, and neither has `DONE`. -/
theorem Inv.cnt_of_ready {s : State} {c : Enclosing} (h : Inv s) (ha : s.activity = .executing c)
    (hs : s.stage = .ready) : s.cnt = 0 := by
  obtain ⟨_, _, _, ⟨_, _, hcnt, _⟩ | ⟨p, _, P, _, _, hready⟩⟩ := (activityOk_executing_iff ha).mp h.act
  · exact hcnt
  · rw [hs] at hready
    exact hready.1

/-- From `first(0)` the machine plays the planned pulses and comes to `DONE`. -/
theorem run_plannedPulses {s : State} {c : Enclosing} (h : Inv s) (hn : NoReset s) (ha : s.activity = .executing c)
    (hfirst : AtFirst s) :
    ∃ out wr r, core.run (playSteps (plannedPulses s)) s = .next (played (plannedPulses s) out wr r s) := by
  obtain ⟨hs, ⟨hnc, hq⟩ | ⟨P, hP, hq⟩⟩ := hfirst
  · have hcodes : s.codebuf = [] := List.length_eq_zero_iff.mp (by rw [h.regs.codebuf_len, hnc]; rfl)
    refine ⟨s.pinOut, s.pinWr, s.rsp, ?_⟩
    rw [plannedPulses_of_no_codes hcodes, played_nil hs hq (h.cnt_of_ready ha hs)]
    rfl
  · obtain ⟨bs, htrans⟩ := h.transmitting hn ha hP
    have hplays := plays_firstPos P (effectivePulseLen s P) s.repeatReg.toNat (encodeAll_widths htrans.fits)
      h.regs.codelen_pos
    rw [plannedPulses_eq htrans.protocol htrans.fits]
    rw [htrans.count] at hplays
    exact htrans.run_plays hs (h.cnt_of_ready ha hs) hq hplays

/-- At `DONE` the pin is not `HIGH`. -/
theorem Inv.out_of_done {s : State} {c : Enclosing} (h : Inv s) (ha : s.activity = .executing c)
    (hq : s.seq = some .done) : s.pinOut = false := by
  obtain ⟨_, _, _, ⟨_, _, _, hout⟩ | ⟨p, hp, _⟩⟩ := (activityOk_executing_iff ha).mp h.act
  · exact hout
  · rw [hq] at hp; cases hp

/-- Settles O52: the planned pulses are played to `DONE` (`run_plannedPulses`), where the invariant gives the pin, and the
last step ends the command. -/
theorem transmissionCompletes : Obligations.TransmissionCompletes := by
  intro s c h hn ha hfirst
  obtain ⟨out, wr, r, hrun⟩ := run_plannedPulses h hn ha hfirst
  obtain ⟨_, hen, _⟩ := h.executing ha
  have hoe : s.pinOe = true := h.pin.oe_eq_en.trans hen
  obtain rfl : out = false := (h.of_run hrun).out_of_done ha rfl
  have hn' : NoReset (played (plannedPulses s) false wr r s) := hn
  have hdone := step_at_done (s := played (plannedPulses s) false wr r s) hn.rst_low ha rfl rfl
  rw [run_add hrun 1, run_one hdone]
  cases c with
  | send =>
    rw [finish_send (s := beginStep (played (plannedPulses s) false wr r s)) ha, hn'.beginStep_eq]
    simp [respond_success, played, dropCodes, hen, hoe]
  | sendb =>
    rw [finish_sendb (s := beginStep (played (plannedPulses s) false wr r s)) ha, hn'.beginStep_eq]
    simp [respond_success, disableBody_eq, played, dropCodes, hen]

/-! ### From the packet to the response -/

/-- The effective pulse length of a SEND that has stored its overrides: its operand, else the configured one, else the
protocol's (42_waveform.md R81). -/
theorem effectivePulseLen_of_override {s t : State} {plen : Option (BitVec 24)} (P : Protocol)
    (hplenv : t.plenv = (plen.isSome || s.plenv)) (hplen : t.plen = plen.getD s.plen) :
    effectivePulseLen t P = plen.getD (if s.plenv then s.plen else P.pulseLength) := by
  rw [effectivePulseLen, hplenv, hplen]
  cases plen <;> rfl

section
variable {s : State} {h : CmdWord} {words codes : List CmdWord} {P : Protocol} {bs : List (List Bool)}

/-- The state after the step that runs the packet of a SEND that launches, with the sequencer at `q`. -/
def sendLaunched (codes : List CmdWord) (pidx : Option (BitVec 8)) (plen : Option (BitVec 24))
    (width : Option (BitVec 8)) (q : SeqPos) (s : State) : State :=
  { stored pidx plen (width.getD 40) s with
    pinWr := false, rsp := none, nc := BitVec.ofNat 8 codes.length, codebuf := codes
    busy := true, activity := .executing .send, seq := some q, stage := .ready }

/-- The packet of a SEND that passes its checks runs up to the start of its transmission. -/
theorem step_send_launches {pidx : Option (BitVec 8)} {plen : Option (BitVec 24)} {width : Option (BitVec 8)}
    (hn : NoReset s) (hen : s.en = true) (ha : s.activity = .receiving h words)
    (hd : decodePacket (h :: words) = .ok (.send codes pidx plen width))
    (hP : getProtocol s.params.table (pidx.getD s.proto) = .ok P)
    (hbs : encodeAll (width.getD 40).toNat codes = .ok bs) :
    ∃ q, step s = .next (sendLaunched codes pidx plen width q s) ∧
      AtFirst (sendLaunched codes pidx plen width q s) := by
  obtain ⟨_, hwf⟩ := wellFormed_of_decode_send hd
  obtain ⟨hlen, _⟩ := wellFormed_send hwf
  have hv : validIndex (pidx.getD s.proto) = true := (getProtocol_isOk_iff _ _).mp ⟨P, hP⟩
  obtain ⟨q, hexec, hdone, hfirst⟩ :=
    sendLaunches (beginStep s) codes pidx plen width bs hwf hen (fun i hi => by simpa [hi] using hv) hbs fun _ => hv
  refine ⟨q, ?_, rfl, ?_⟩
  · rw [step_packet hn.rst_low ha hd, hexec, hn.beginStep_eq]
    rfl
  · by_cases hc : codes = []
    · exact .inl ⟨(nc_eq_zero_iff hlen).mpr hc, congrArg some (hdone hc)⟩
    · have hcount : (sendLaunched codes pidx plen width q s).nc.toNat = codes.length := toNat_nc hlen
      exact .inr ⟨P, hP, by rw [hcount]; exact congrArg some (hfirst P hc hP)⟩

/-- Settles O53: the packet runs up to the start of the transmission (`step_send_launches`), which completes
(`transmissionCompletes`). -/
theorem sendPlaysItsSequence : Obligations.SendPlaysItsSequence := by
  intro s h words codes pidx plen width P bs hinv hn hen ha hd hP hbs pl ps
  obtain ⟨q, hstep, hfirst⟩ := step_send_launches hn hen ha hd hP hbs
  obtain ⟨hlen, _⟩ := wellFormed_send (wellFormed_of_decode_send hd).2
  have hend := transmissionCompletes _ .send (step_keeps_inv hinv hstep) hn rfl hfirst
  have hps : plannedPulses (sendLaunched codes pidx plen width q s) = ps := by
    rw [plannedPulses_eq (s := sendLaunched codes pidx plen width q s) hP hbs,
      effectivePulseLen_of_override (s := s) (plen := plen) P rfl rfl]
    rfl
  rw [hps] at hend
  rw [run_succ hstep, hend]
  simp [sendLaunched, stored, hen, hinv.pin.oe_eq_en, toNat_nc hlen]

/-- The state after the step that runs the packet of a SENDB that launches. -/
def sendbLaunched (codes : List CmdWord) (P : Protocol) (s : State) : State :=
  { s with
    en := true, pinOe := if s.en then s.pinOe else true, pinWr := false, rsp := none
    trace := if s.en then s.trace else s.trace ++ [.cfgOut]
    codelen := 40, nc := BitVec.ofNat 8 codes.length, codebuf := codes
    busy := true, activity := .executing .sendb
    seq := some (firstPos P s.repeatReg.toNat codes.length), stage := .ready }

/-- The packet of a SENDB that passes its checks runs up to the start of its transmission. -/
theorem step_sendb_launches (hn : NoReset s) (ha : s.activity = .receiving h words)
    (hd : decodePacket (h :: words) = .ok (.sendb codes)) (hc : codes ≠ [])
    (hP : getProtocol s.params.table s.proto = .ok P) (hbs : encodeAll 40 codes = .ok bs) :
    step s = .next (sendbLaunched codes P s) ∧ AtFirst (sendbLaunched codes P s) := by
  obtain ⟨_, hlen⟩ := wellFormed_of_decode_sendb hd
  have hcount : (sendbLaunched codes P s).nc.toNat = codes.length := toNat_nc hlen
  refine ⟨?_, rfl, .inr ⟨P, hP, by rw [hcount]; rfl⟩⟩
  rw [step_packet hn.rst_low ha hd, sendbLaunches (beginStep s) codes P bs hc hlen hbs hP, hn.beginStep_eq]
  rfl

end

/-- Settles O54: the packet runs up to the start of the transmission (`step_sendb_launches`), which completes
(`transmissionCompletes`) and disarms. -/
theorem sendbPlaysInOneBracket : Obligations.SendbPlaysInOneBracket := by
  intro s h words codes P bs hinv hn ha hd hc hP hbs ps
  obtain ⟨hstep, hfirst⟩ := step_sendb_launches hn ha hd hc hP hbs
  obtain ⟨_, hlen⟩ := wellFormed_of_decode_sendb hd
  have hend := transmissionCompletes _ .sendb (step_keeps_inv hinv hstep) hn rfl hfirst
  have hps : plannedPulses (sendbLaunched codes P s) = ps :=
    plannedPulses_eq (s := sendbLaunched codes P s) hP hbs
  have htrace : (sendbLaunched codes P s).trace = s.trace ++ (if s.en then [] else [.cfgOut]) := by
    cases hen : s.en <;> simp [sendbLaunched, hen]
  rw [hps, htrace] at hend
  rw [run_succ hstep, hend]
  simp [sendbLaunched, toNat_nc hlen]

/-! ### Every command responds -/

/-- Some number of steps ends the command in flight with exactly one response, and takes no word. -/
def Responds (s : State) : Prop :=
  ∃ n t r, core.run n s = .next t ∧ t.busy = false ∧ t.responses = s.responses ++ [r] ∧ t.cmdIn = s.cmdIn

/-- A run that issues no response and takes no word leaves the command to respond. -/
theorem Responds.of_run {s t : State} {n : Nat} (h : Responds t) (hrun : core.run n s = .next t)
    (hresp : t.responses = s.responses) (hin : t.cmdIn = s.cmdIn) : Responds s := by
  obtain ⟨m, u, r, hrun', hbusy, hresp', hin'⟩ := h
  exact ⟨n + m, u, r, by rw [run_add hrun, hrun'], hbusy, by rw [hresp', hresp], hin'.trans hin⟩

/-- At `DONE` the next step responds. -/
theorem responds_at_done {s : State} {c : Enclosing} (hn : NoReset s) (ha : s.activity = .executing c)
    (hs : s.stage = .ready) (hq : s.seq = some .done) : Responds s :=
  ⟨1, _, rspWord none, run_one (step_at_done hn.rst_low ha hs hq), by simp, by simp, by simp⟩

/-- A position whose pulse instruction is not handed over yet: the sequencer reaches `DONE` from there. -/
theorem Inv.responds_of_ready {s : State} {c : Enclosing} (h : Inv s) (hn : NoReset s)
    (ha : s.activity = .executing c) (hs : s.stage = .ready) : Responds s := by
  obtain ⟨_, _, _, ⟨hq, _⟩ | ⟨p, hq, P, hP, hp, _⟩⟩ := (activityOk_executing_iff ha).mp h.act
  · exact responds_at_done hn ha hs hq
  · obtain ⟨bs, htrans⟩ := h.transmitting hn ha hP
    rw [← htrans.count] at hp
    obtain ⟨ps, hplays⟩ := exists_plays_of_inRange (pl := effectivePulseLen s P) (encodeAll_widths htrans.fits)
      h.regs.codelen_pos hp
    obtain ⟨out, wr, r, hrun⟩ := htrans.run_plays hs (h.cnt_of_ready ha hs) hq hplays
    exact (responds_at_done (s := played ps out wr r s) hn ha rfl rfl).of_run hrun rfl rfl

/-- A hold: it ends, and the position after it is next. -/
theorem Inv.responds_of_playing {s : State} {c : Enclosing} (h : Inv s) (hn : NoReset s)
    (ha : s.activity = .executing c) (hs : s.stage = .playing) : Responds s := by
  obtain ⟨p, hq, P, hP, _⟩ := h.playingOk ha (by simp [hs])
  have hrun := run_hold_advance hn ha hs (advance_of_pos (s := held s) hq hP)
  exact ((h.of_run hrun).responds_of_ready hn ha rfl).of_run hrun rfl rfl

/-- Inside a SEND or SENDB, wherever its pulse instruction stands. -/
theorem Inv.responds_of_executing {s : State} {c : Enclosing} (h : Inv s) (hn : NoReset s)
    (ha : s.activity = .executing c) : Responds s := by
  cases hs : s.stage with
  | ready => exact h.responds_of_ready hn ha hs
  | playing => exact h.responds_of_playing hn ha hs
  | issued w =>
    obtain ⟨_, hen, _⟩ := h.executing ha
    obtain ⟨l, d, _, hexec⟩ := exec_decodePulse w (beginStep s)
    have hstep := (step_issued hn.rst_low ha hs).trans hexec
    rw [drive_armed (s := beginStep s) hen, hn.beginStep_eq] at hstep
    exact ((step_keeps_inv h hstep).responds_of_playing hn ha rfl).of_run (run_one hstep) rfl rfl

/-- What the body of SEND leaves: the inputs, and a block that waits or stays in the command. -/
theorem sendBody_frame (pidx : Option (BitVec 8)) (plen : Option (BitVec 24)) (w : BitVec 8) (s : State) :
    let t := sendBody pidx plen w s
    t.cmdIn = s.cmdIn ∧ t.rstIn = s.rstIn ∧ (t.activity = .waiting ∨ t.activity = s.activity) := by
  rcases sendBody_cases pidx plen w s with ⟨e, he⟩ | ⟨_, _, ⟨e, he⟩ | ⟨_, _, _, _, he⟩⟩
  · rw [he]; exact ⟨by simp, by simp, .inl (by simp)⟩
  · rw [he]; exact ⟨by simp, by simp, .inl (by simp)⟩
  · rw [he]; exact ⟨rfl, rfl, .inr rfl⟩

/-- What a command that a packet decodes to leaves: the inputs, and a block that waits or transmits. -/
theorem command_frame {s t : State} {h : CmdWord} {words : List CmdWord} {i : Instr}
    (hd : decodePacket (h :: words) = .ok i) (ht : exec i s = .next t) :
    t.cmdIn = s.cmdIn ∧ t.rstIn = s.rstIn ∧ (t.activity = .waiting ∨ ∃ c, t.activity = .executing c) := by
  cases i with
  | enable => cases ht; exact ⟨by simp [enableBody_eq], by simp [enableBody_eq], .inl rfl⟩
  | disable => cases ht; exact ⟨by simp [disableBody_eq], by simp [disableBody_eq], .inl rfl⟩
  | send codes pidx plen width =>
    cases (exec_send (wellFormed_of_decode_send hd).2 s).symm.trans ht
    obtain ⟨hin, hrst, hact⟩ := sendBody_frame pidx plen (width.getD 40) (loadCodes .send codes s)
    exact ⟨hin, hrst, hact.imp_right fun hact => ⟨.send, hact⟩⟩
  | sendb codes =>
    obtain ⟨_, hlen⟩ := wellFormed_of_decode_sendb hd
    by_cases hc : codes = []
    · subst hc
      cases (sendbWithoutCodes s).symm.trans ht
      exact ⟨rfl, rfl, .inl rfl⟩
    · cases (exec_sendb hlen hc s).symm.trans ht
      obtain ⟨hin, hrst, hact⟩ := sendBody_frame none none 40 (enableBody (loadCodes .sendb codes s))
      rw [enableBody_loadCodes] at hin hrst hact ⊢
      exact ⟨hin, hrst, hact.imp_right fun hact => ⟨.sendb, hact⟩⟩
  | ph d => exact absurd hd decodePacket_ne_pulse.1
  | pl d => exact absurd hd decodePacket_ne_pulse.2

/-- A step that answers with a response and takes no word. -/
theorem Answer.responds_or_silent {s t : State} (h : Answer s t) (hstep : step s = .next t) (hin : t.cmdIn = s.cmdIn) :
    Responds s ∨ (t.responses = s.responses ∧ (s.busy = true → t.busy = true)) := by
  cases h with
  | silent hresp hbusy => exact .inr ⟨hresp, hbusy⟩
  | ends r hresp _ hbusy => exact .inl ⟨1, t, _, run_one hstep, hbusy, hresp, hin⟩

/-- A complete packet responds at once, or launches a transmission, which responds. -/
theorem Inv.responds_of_packet {s : State} {h : CmdWord} {codes : List CmdWord} (hinv : Inv s) (hn : NoReset s)
    (ha : s.activity = .receiving h codes) (hbusy : s.busy = true) (hc : cmdReady s = false) : Responds s := by
  cases hd : decodePacket (h :: codes) with
  | error e =>
    exact ⟨1, _, rspWord (some .illegalCommand), run_one (step_illegal hn.rst_low ha hc hd), by simp, by simp, by simp⟩
  | ok i =>
    obtain ⟨t, ht⟩ := exists_exec_next i (beginStep s)
    have hstep := (step_packet hn.rst_low ha hd).trans ht
    have hinv' := step_keeps_inv hinv hstep
    obtain ⟨hin, hrst, hact⟩ := command_frame hd ht
    have hans : Answer s t := (answer_exec ht).of_start rfl id
    rcases hans.responds_or_silent hstep hin with hresponds | ⟨hresp, hstays⟩
    · exact hresponds
    · rcases hact with hwait | ⟨c, hexec⟩
      · obtain ⟨hidle, _⟩ : t.busy = false ∧ _ := by simpa only [ActivityOk, hwait] using hinv'.act
        rw [hstays hbusy] at hidle; cases hidle
      · have hn' : NoReset t := hrst.trans (by rw [beginStep_rstIn, hn]; rfl)
        exact (hinv'.responds_of_executing hn' hexec).of_run (run_one hstep) hresp hin

/-- Settles O55: a complete packet by `Inv.responds_of_packet`, a transmission under way by `Inv.responds_of_executing`. -/
theorem everyCommandResponds : Obligations.EveryCommandResponds := by
  intro s h hn hbusy hc
  cases ha : s.activity with
  | waiting => rw [cmdReady_waiting ha] at hc; cases hc
  | receiving hd codes => exact h.responds_of_packet hn ha hbusy hc
  | executing c => exact h.responds_of_executing hn ha

end Sys2Proof.Machine
end

section
/-! PROOFS. The statement of the host's side of the command channel (30_encoding.md R65, R66; 44_session.md R117, R118). -/

namespace Sys2Proof.Machine

/-! ### The device-table lookup (44_session.md R117) -/

/-- What `resolve` answers for a group in front of others. -/
theorem resolve_cons (token : List Char) (m : List (List Char × CmdWord)) (rest : Groups) (name : List Char) :
    resolve ((token, m) :: rest) name = (m.lookup name).bind fun c => (resolve rest name).map (c :: ·) := by
  rw [resolve]
  cases m.lookup name <;> cases resolve rest name <;> rfl

/-- `resolve` answers exactly when every group has the command name, with their codes in the order of the groups. -/
theorem resolve_eq_some_iff (groups : Groups) (name : List Char) (codes : List CmdWord) :
    resolve groups name = some codes ↔ (groups.map fun g => g.2.lookup name) = codes.map some := by
  induction groups generalizing codes with
  | nil => cases codes <;> simp [resolve]
  | cons g rest ih =>
    obtain ⟨token, m⟩ := g
    cases codes with
    | nil => cases hm : m.lookup name <;> simp [resolve_cons, hm]
    | cons c cs => simp [resolve_cons, Option.bind_eq_some_iff, ih]

/-! ### A line of text (30_encoding.md R65, R66) -/

/-- What follows a key that a token begins with. -/
theorem afterKey_append (key rest : List Char) : afterKey key (key ++ rest) = some rest := by
  induction key with
  | nil => rfl
  | cons k ks ih => rw [List.cons_append, afterKey, if_pos rfl, ih]

/-- The words of a line of two words. -/
theorem words_two {op t : List Char} (hop : ' ' ∉ op) (ht : ' ' ∉ t) (hop' : op ≠ []) (ht' : t ≠ []) :
    (splitAt ' ' (op ++ ' ' :: t)).filter (· ≠ []) = [op, t] := by
  rw [splitAt_append_cons hop, splitAt_of_not_mem ht]
  simp [hop', ht']

/-- The words of a line of three words. -/
theorem words_three {op t u : List Char} (hop : ' ' ∉ op) (ht : ' ' ∉ t) (hu : ' ' ∉ u) (hop' : op ≠ [])
    (ht' : t ≠ []) (hu' : u ≠ []) : (splitAt ' ' (op ++ ' ' :: (t ++ ' ' :: u))).filter (· ≠ []) = [op, t, u] := by
  rw [splitAt_append_cons hop, splitAt_append_cons ht, splitAt_of_not_mem hu]
  simp [hop', ht', hu']

/-- SHUTTER is one SENDB of what the lookup resolves to. -/
theorem parseLine_shutter (lookup : List Char → Groups) {token name : List Char} (ht : token ≠ []) (ht' : ' ' ∉ token)
    (hn : name ≠ []) (hn' : ' ' ∉ name) :
    parseLine lookup ("SHUTTER ".toList ++ token ++ ' ' :: name) = (resolve (lookup token) name).map .sendb := by
  have hline : "SHUTTER ".toList ++ token ++ ' ' :: name = "SHUTTER".toList ++ ' ' :: (token ++ ' ' :: name) := by simp
  rw [hline, parseLine, words_three (by decide) ht' hn' (by decide) ht hn]
  simp

/-- TX is the SEND of its codes with no overrides. -/
theorem parseLine_tx (lookup : List Char → Groups) {text : List Char} (ht : text ≠ []) (ht' : ' ' ∉ text) :
    parseLine lookup ("TX ".toList ++ text) = (codeList text).map fun codes => .send codes none none none := by
  have hline : "TX ".toList ++ text = "TX".toList ++ ' ' :: text := by simp
  rw [hline, parseLine, words_two (by decide) ht' (by decide) ht]
  simp

/-- The operands of a SEND line that gives its codes alone: the three keys before `codes=` are not there. -/
theorem sendLine_codes (text : List Char) :
    sendLine ["codes=".toList ++ text] = (codeList text).map fun codes => .send codes none none none := by
  have hproto : afterKey "proto=".toList ("codes=".toList ++ text) = none := by simp [afterKey]
  have hplen : afterKey "plen=".toList ("codes=".toList ++ text) = none := by simp [afterKey]
  have hwidth : afterKey "width=".toList ("codes=".toList ++ text) = none := by simp [afterKey]
  simp only [sendLine, optItem, hproto, hplen, hwidth, codesItem, afterKey_append, Option.bind_some]

/-- `SEND codes=` is the SEND of its codes with no overrides. -/
theorem parseLine_send (lookup : List Char → Groups) {text : List Char} (ht : ' ' ∉ text) :
    parseLine lookup ("SEND codes=".toList ++ text) = (codeList text).map fun codes => .send codes none none none := by
  have hline : "SEND codes=".toList ++ text = "SEND".toList ++ ' ' :: ("codes=".toList ++ text) := by simp
  rw [hline, parseLine, words_two (by decide) (by simp [ht]) (by decide) (by simp), ← sendLine_codes]
  simp

/-! ### A text of codes (30_encoding.md R65) -/

/-- Texts joined by a character that none of them holds are the pieces at that character. -/
theorem splitAt_intercalate {c : Char} (w : List Char) (ws : List (List Char)) (h : ∀ t ∈ w :: ws, c ∉ t) :
    splitAt c (List.intercalate [c] (w :: ws)) = w :: ws := by
  induction ws generalizing w with
  | nil => simpa [List.intercalate] using splitAt_of_not_mem (h w (by simp))
  | cons v vs ih =>
    have hjoin : List.intercalate [c] (w :: v :: vs) = w ++ c :: List.intercalate [c] (v :: vs) := by
      rw [List.intercalate_cons_cons, List.append_assoc, List.singleton_append]
    rw [hjoin, splitAt_append_cons (h w (by simp)), ih v fun t ht => h t (by simp [ht])]

/-- A list is read exactly when each of its members is. -/
theorem mapM_eq_some_iff {α β : Type} (f : α → Option β) (xs : List α) (ys : List β) :
    xs.mapM f = some ys ↔ xs.map f = ys.map some := by
  induction xs generalizing ys with
  | nil => cases ys <;> simp
  | cons x xs ih =>
    cases ys with
    | nil => simp [Option.bind_eq_some_iff]
    | cons y ys => simp [Option.bind_eq_some_iff, ih]

/-- The codes of a text are the numbers between its commas. -/
theorem codeList_intercalate {number : List Char} {numbers : List (List Char)} (codes : List CmdWord)
    (hne : number ≠ []) (h : ∀ t ∈ number :: numbers, ',' ∉ t) :
    codeList (List.intercalate [','] (number :: numbers)) = some codes ↔
      (number :: numbers).map (operand 64) = codes.map some := by
  have htext : List.intercalate [','] (number :: numbers) ≠ [] := by
    cases numbers <;> simp [List.intercalate, hne]
  rw [codeList, if_neg htext, splitAt_intercalate number numbers h, mapM_eq_some_iff]

/-- Settles O7: the lookup by induction over the groups, the lines by their words, the codes by the pieces between the
commas, and the result by the `FAIL` bit. -/
theorem shutterIsOneSendb : Obligations.ShutterIsOneSendb :=
  ⟨resolve_eq_some_iff, fun lookup _ _ ht ht' hn hn' => parseLine_shutter lookup ht ht' hn hn',
    fun lookup _ ht => ⟨fun hne => parseLine_tx lookup hne ht, parseLine_send lookup ht⟩,
    fun _ _ codes hne h => codeList_intercalate codes hne h, rfl, fun r => by simp [callResult, failOf_rspWord]⟩

end Sys2Proof.Machine
end
